-- ==== Sys2Proof/Word.lean ====
section
/-! DEFINITION. The value types of the instruction decoder (spec/00_scope.md R7, R8, R10, R16): bytes,
assembled 16-bit quantities, the 3-bit and 2-bit fields, single bits, and text. -/

namespace Sys2Proof

/-- One element of the byte stream: "8-bit" (R7, R10). -/
abbrev Byte := BitVec 8

/-- A displacement, a direct address or an immediate: unsigned, 0 to 65535 (R10). -/
abbrev Word := BitVec 16

/-- `Sel3`: a RegisterSelector or MemoryModeSelector, 0 to 7 (R7, R10). -/
abbrev Sel3 := BitVec 3

/-- `Mode2`: the AddressingMode field, 0 to 3 (R7, R10, R95). -/
abbrev Mode2 := BitVec 2

/-- `Bit`: 0 is `false`, 1 is `true` (R10). -/
abbrev Bit := Bool

/-- A string is a sequence of characters (R16). -/
abbrev Text := List Char

end Sys2Proof
end

