-- ==== Sys2Proof/Syntax.lean ====
section
/-! DEFINITION. The opcode classes (spec/30_encoding.md R96, R97) and the seventeen encoding rows of
spec/opcode_table.json, one constructor each, in the table's order. A constructor holds every field of the
row's opcode bytes `b0` and `b1`. The trailing operand bytes (displacement, direct address, immediate) are not
part of it: the handlers of R180, R200 and R210 read them from the byte source one by one, and how many
there are depends on `DIRECT_POLICY` and on where the stream ends. `Operands` pairs an instruction with them. -/

namespace Sys2Proof

/-- The matcher's verdict on a leading byte (R97). -/
inductive OpClass where
  | rmReg
  | immRm
  | immReg
  | unrec
deriving DecidableEq, Repr

/-- The encoding rows. `d` is the direction bit and `w` the operand-size bit (R94); `reg` and `rm` are the
register fields; `x` is `b1[5:3]` of class `IMM_RM`, which the block does not examine (R103) but does latch
(R162), so the row keeps it. -/
inductive Instr where
  /-- `mov_rm_reg.rr`, `100010dw 11rrraaa` (R181). -/
  | movRmRegRr (d w : Bit) (reg rm : Sel3)
  /-- `mov_rm_reg.direct`, `100010dw 00rrr110` (R183). -/
  | movRmRegDirect (d w : Bit) (reg : Sel3)
  /-- `mov_rm_reg.m0`, `100010dw 00rrraaa`, `aaa` not `110` (R182). -/
  | movRmRegM0 (d w : Bit) (reg rm : Sel3)
  /-- `mov_rm_reg.m8`, `100010dw 01rrraaa` (R184). -/
  | movRmRegM8 (d w : Bit) (reg rm : Sel3)
  /-- `mov_rm_reg.m16`, `100010dw 10rrraaa` (R185). -/
  | movRmRegM16 (d w : Bit) (reg rm : Sel3)
  /-- `mov_reg_imm.b`, `10110rrr` (R201). -/
  | movRegImmB (reg : Sel3)
  /-- `mov_reg_imm.w`, `10111rrr` (R202). -/
  | movRegImmW (reg : Sel3)
  /-- `mov_rm_imm.rr.b`, `11000110 11xxxaaa` (R211). -/
  | movRmImmRrB (x rm : Sel3)
  /-- `mov_rm_imm.rr.w`, `11000111 11xxxaaa` (R212). -/
  | movRmImmRrW (x rm : Sel3)
  /-- `mov_rm_imm.direct.b`, `11000110 00xxx110` (R213). -/
  | movRmImmDirectB (x : Sel3)
  /-- `mov_rm_imm.direct.w`, `11000111 00xxx110` (R214). -/
  | movRmImmDirectW (x : Sel3)
  /-- `mov_rm_imm.m0.b`, `11000110 00xxxaaa`, `aaa` not `110` (R215). -/
  | movRmImmM0B (x rm : Sel3)
  /-- `mov_rm_imm.m0.w`, `11000111 00xxxaaa`, `aaa` not `110` (R216). -/
  | movRmImmM0W (x rm : Sel3)
  /-- `mov_rm_imm.m8.b`, `11000110 01xxxaaa` (R217). -/
  | movRmImmM8B (x rm : Sel3)
  /-- `mov_rm_imm.m8.w`, `11000111 01xxxaaa` (R218). -/
  | movRmImmM8W (x rm : Sel3)
  /-- `mov_rm_imm.m16.b`, `11000110 10xxxaaa` (R219). -/
  | movRmImmM16B (x rm : Sel3)
  /-- `mov_rm_imm.m16.w`, `11000111 10xxxaaa` (R220). -/
  | movRmImmM16W (x rm : Sel3)
deriving DecidableEq, Repr

end Sys2Proof
end

