-- ==== Sys2Proof/WellFormed.lean ====
section
/-! DEFINITION. Which terms of `Instr` are rows of the opcode table. Every field takes every value, but for the
"except" keys of the three `m0` rows: `mod = 0` with `rm = 6` is the `direct` row (spec/30_encoding.md R104). -/

namespace Sys2Proof

/-- The selector of the special case `mod = 0`, `rm = 6` (R104). -/
abbrev Sel3.direct : Sel3 := 6#3

/-- The check on an instruction's fields (R104, spec/opcode_table.json "except"). -/
def Instr.wellFormed : Instr → Bool
  | .movRmRegM0 _ _ _ rm => rm != Sel3.direct
  | .movRmImmM0B _ rm => rm != Sel3.direct
  | .movRmImmM0W _ rm => rm != Sel3.direct
  | .movRmRegRr _ _ _ _ => true
  | .movRmRegDirect _ _ _ => true
  | .movRmRegM8 _ _ _ _ => true
  | .movRmRegM16 _ _ _ _ => true
  | .movRegImmB _ => true
  | .movRegImmW _ => true
  | .movRmImmRrB _ _ => true
  | .movRmImmRrW _ _ => true
  | .movRmImmDirectB _ => true
  | .movRmImmDirectW _ => true
  | .movRmImmM8B _ _ => true
  | .movRmImmM8W _ _ => true
  | .movRmImmM16B _ _ => true
  | .movRmImmM16W _ _ => true

end Sys2Proof
end

