-- ==== Sys2Proof/Decode.lean ====
section
/-! DEFINITION. The opcode matcher and the choice of the encoding row, total on any bytes and rejecting by name
(spec/30_encoding.md R91 to R104), then the encoder, the opcode table as data, the operand bytes each row is
followed by, and the layout the host's probe words use. -/

namespace Sys2Proof

/-! ### Fields (R8, R9) -/

/-- `b[7:2]`, the top six bits. -/
def topSix (b : Byte) : BitVec 6 := b.extractLsb' 2 6
/-- `b[7:1]`, the top seven bits. -/
def topSeven (b : Byte) : BitVec 7 := b.extractLsb' 1 7
/-- `b[7:4]`, the top four bits. -/
def topFour (b : Byte) : BitVec 4 := b.extractLsb' 4 4
/-- AddressingMode, `b1[7:6]` (R91, R95). -/
def modField (b1 : Byte) : Mode2 := b1.extractLsb' 6 2
/-- The middle field, `b1[5:3]` (R91, R103). -/
def midField (b1 : Byte) : Sel3 := b1.extractLsb' 3 3
/-- The low field, `b1[2:0]` of `RM_REG` and `IMM_RM` (R91), `b0[2:0]` of `IMM_REG` (R92). -/
def lowField (b : Byte) : Sel3 := b.extractLsb' 0 3
/-- OperandSizeFlag of `RM_REG` and `IMM_RM`, `b0[0]` (R91, R93). -/
def sizeBit (b0 : Byte) : Bit := b0.getLsbD 0
/-- Direction bit of `RM_REG`, `b0[1]` (R91). -/
def directionBit (b0 : Byte) : Bit := b0.getLsbD 1
/-- OperandSizeFlag of `IMM_REG`, `b0[3]` (R92). -/
def immSizeBit (b0 : Byte) : Bit := b0.getLsbD 3

/-! ### The matcher (R97) -/

/-- `Class : Byte -> {RM_REG, IMM_RM, IMM_REG, UNREC}`, the three tests in their fixed order. -/
def classOf (b0 : Byte) : OpClass :=
  if topSix b0 = 0b100010#6 then .rmReg
  else if topSeven b0 = 0b1100011#7 then .immRm
  else if topFour b0 = 0b1011#4 then .immReg
  else .unrec

/-! ### The decoder -/

/-- Why no row is read. -/
inductive Reject where
  /-- No byte at all: the stream is exhausted at an instruction boundary (R152). -/
  | exhausted
  /-- `Class(b0) = UNREC` (R102). -/
  | unrecognised (b0 : Byte)
  /-- The class has a second opcode byte and there is none (R232). -/
  | truncated (b0 : Byte)
deriving DecidableEq, Repr

/-- What the decoder reads: a row and the bytes after its opcode bytes, or a rejection. -/
inductive Decoded where
  | insn (i : Instr) (rest : List Byte)
  | reject (why : Reject)
deriving DecidableEq, Repr

/-- The row of class `RM_REG` with these fields (R181 to R185); `direct` is tested before `m0` (R104). -/
def rmRegRow (d w : Bit) (mod : Mode2) (reg rm : Sel3) : Instr :=
  if mod = 3#2 then .movRmRegRr d w reg rm
  else if mod = 2#2 then .movRmRegM16 d w reg rm
  else if mod = 1#2 then .movRmRegM8 d w reg rm
  else if rm = Sel3.direct then .movRmRegDirect d w reg
  else .movRmRegM0 d w reg rm

/-- The row of class `IMM_RM` with these fields (R211 to R220). -/
def immRmRow (w : Bit) (mod : Mode2) (x rm : Sel3) : Instr :=
  if mod = 3#2 then (if w then .movRmImmRrW x rm else .movRmImmRrB x rm)
  else if mod = 2#2 then (if w then .movRmImmM16W x rm else .movRmImmM16B x rm)
  else if mod = 1#2 then (if w then .movRmImmM8W x rm else .movRmImmM8B x rm)
  else if rm = Sel3.direct then (if w then .movRmImmDirectW x else .movRmImmDirectB x)
  else (if w then .movRmImmM0W x rm else .movRmImmM0B x rm)

/-- The row of class `IMM_REG` (R201, R202). -/
def immRegRow (w : Bit) (reg : Sel3) : Instr :=
  if w then .movRegImmW reg else .movRegImmB reg

/-- The decoder: `b0` alone decides the class; the two classes with a second opcode byte then take `b1`. -/
def decode : List Byte → Decoded
  | [] => .reject .exhausted
  | b0 :: rest =>
    match classOf b0 with
    | .unrec => .reject (.unrecognised b0)
    | .immReg => .insn (immRegRow (immSizeBit b0) (lowField b0)) rest
    | .rmReg =>
      match rest with
      | [] => .reject (.truncated b0)
      | b1 :: tail =>
        .insn (rmRegRow (directionBit b0) (sizeBit b0) (modField b1) (midField b1) (lowField b1)) tail
    | .immRm =>
      match rest with
      | [] => .reject (.truncated b0)
      | b1 :: tail => .insn (immRmRow (sizeBit b0) (modField b1) (midField b1) (lowField b1)) tail

/-! ### The encoder -/

/-- `100010dw` (R91). -/
def rmRegLead (d w : Bit) : Byte := 0b100010#6 ++ BitVec.ofBool d ++ BitVec.ofBool w
/-- `1100011w` (R93). -/
def immRmLead (w : Bit) : Byte := 0b1100011#7 ++ BitVec.ofBool w
/-- `1011wrrr` (R92). -/
def immRegLead (w : Bit) (reg : Sel3) : Byte := 0b1011#4 ++ BitVec.ofBool w ++ reg
/-- `mmrrraaa` (R91). -/
def secondByte (mod : Mode2) (mid low : Sel3) : Byte := mod ++ mid ++ low

/-- The opcode bytes of a row, in stream order (spec/opcode_table.json "encoding"). -/
def encode : Instr → List Byte
  | .movRmRegRr d w reg rm => [rmRegLead d w, secondByte 0b11 reg rm]
  | .movRmRegDirect d w reg => [rmRegLead d w, secondByte 0b00 reg 0b110]
  | .movRmRegM0 d w reg rm => [rmRegLead d w, secondByte 0b00 reg rm]
  | .movRmRegM8 d w reg rm => [rmRegLead d w, secondByte 0b01 reg rm]
  | .movRmRegM16 d w reg rm => [rmRegLead d w, secondByte 0b10 reg rm]
  | .movRegImmB reg => [immRegLead false reg]
  | .movRegImmW reg => [immRegLead true reg]
  | .movRmImmRrB x rm => [immRmLead false, secondByte 0b11 x rm]
  | .movRmImmRrW x rm => [immRmLead true, secondByte 0b11 x rm]
  | .movRmImmDirectB x => [immRmLead false, secondByte 0b00 x 0b110]
  | .movRmImmDirectW x => [immRmLead true, secondByte 0b00 x 0b110]
  | .movRmImmM0B x rm => [immRmLead false, secondByte 0b00 x rm]
  | .movRmImmM0W x rm => [immRmLead true, secondByte 0b00 x rm]
  | .movRmImmM8B x rm => [immRmLead false, secondByte 0b01 x rm]
  | .movRmImmM8W x rm => [immRmLead true, secondByte 0b01 x rm]
  | .movRmImmM16B x rm => [immRmLead false, secondByte 0b10 x rm]
  | .movRmImmM16W x rm => [immRmLead true, secondByte 0b10 x rm]

/-! ### Trailing operand bytes (R63, R101) -/

/-- The trailing operands of a recognised instruction: displacement or direct address, and immediate (R10). -/
structure Operands where
  disp : Word
  imm : Word
deriving DecidableEq, Repr

/-- How many displacement or direct-address bytes follow `b1` where the row decodes at all (R101). -/
def Instr.dispBytes : Instr → Nat
  | .movRmRegRr _ _ _ _ | .movRmRegM0 _ _ _ _ => 0
  | .movRmRegM8 _ _ _ _ => 1
  | .movRmRegDirect _ _ _ | .movRmRegM16 _ _ _ _ => 2
  | .movRegImmB _ | .movRegImmW _ => 0
  | .movRmImmRrB _ _ | .movRmImmRrW _ _ | .movRmImmM0B _ _ | .movRmImmM0W _ _ => 0
  | .movRmImmM8B _ _ | .movRmImmM8W _ _ => 1
  | .movRmImmDirectB _ | .movRmImmDirectW _ | .movRmImmM16B _ _ | .movRmImmM16W _ _ => 2

/-- How many immediate bytes the row ends in (R101). -/
def Instr.immBytes : Instr → Nat
  | .movRmRegRr _ _ _ _ | .movRmRegDirect _ _ _ | .movRmRegM0 _ _ _ _ | .movRmRegM8 _ _ _ _
  | .movRmRegM16 _ _ _ _ => 0
  | .movRegImmB _ | .movRmImmRrB _ _ | .movRmImmDirectB _ | .movRmImmM0B _ _ | .movRmImmM8B _ _
  | .movRmImmM16B _ _ => 1
  | .movRegImmW _ | .movRmImmRrW _ _ | .movRmImmDirectW _ | .movRmImmM0W _ _ | .movRmImmM8W _ _
  | .movRmImmM16W _ _ => 2

/-- Does a value fit a field of `n` bytes (R10: a one-byte field holds 0 to 255, an absent one nothing). -/
def fitsBytes (n : Nat) (v : Word) : Bool := v.toNat < 256 ^ n

/-- The operands a row can carry: each fits the bytes the row has for it. -/
def Operands.fit (o : Operands) (i : Instr) : Bool :=
  fitsBytes i.dispBytes o.disp && fitsBytes i.immBytes o.imm

/-- The low `n` bytes of a value, low byte first (R62). -/
def littleEndian : Nat → Word → List Byte
  | 0, _ => []
  | 1, v => [v.setWidth 8]
  | _, v => [v.setWidth 8, v.extractLsb' 8 8]

/-- All the bytes of an instruction in stream order: opcode bytes, displacement or direct address, immediate,
each low byte first (R62, R63, R222). -/
def encodeWhole (i : Instr) (o : Operands) : List Byte :=
  encode i ++ littleEndian i.dispBytes o.disp ++ littleEndian i.immBytes o.imm

/-- How many bytes the instruction occupies, `b0` included, where it decodes at all (R101). -/
def Instr.length (i : Instr) : Nat := (encode i).length + i.dispBytes + i.immBytes

/-- Is the row the special case `mod = 0`, `rm = 6` (R104). -/
def Instr.isDirect : Instr → Bool
  | .movRmRegDirect _ _ _ | .movRmImmDirectB _ | .movRmImmDirectW _ => true
  | .movRmRegRr _ _ _ _ | .movRmRegM0 _ _ _ _ | .movRmRegM8 _ _ _ _ | .movRmRegM16 _ _ _ _ | .movRegImmB _
  | .movRegImmW _ | .movRmImmRrB _ _ | .movRmImmRrW _ _ | .movRmImmM0B _ _ | .movRmImmM0W _ _
  | .movRmImmM8B _ _ | .movRmImmM8W _ _ | .movRmImmM16B _ _ | .movRmImmM16W _ _ => false

/-- Is the row one of class `RM_REG` with a mode other than register-direct, which `REG_ONLY` rejects (R189). -/
def Instr.isRmRegMemory : Instr → Bool
  | .movRmRegDirect _ _ _ | .movRmRegM0 _ _ _ _ | .movRmRegM8 _ _ _ _ | .movRmRegM16 _ _ _ _ => true
  | .movRmRegRr _ _ _ _ | .movRegImmB _ | .movRegImmW _ | .movRmImmRrB _ _ | .movRmImmRrW _ _
  | .movRmImmDirectB _ | .movRmImmDirectW _ | .movRmImmM0B _ _ | .movRmImmM0W _ _ | .movRmImmM8B _ _
  | .movRmImmM8W _ _ | .movRmImmM16B _ _ | .movRmImmM16W _ _ => false

/-- The class of a row (spec/opcode_table.json "format"). -/
def Instr.cls : Instr → OpClass
  | .movRmRegRr _ _ _ _ | .movRmRegDirect _ _ _ | .movRmRegM0 _ _ _ _ | .movRmRegM8 _ _ _ _
  | .movRmRegM16 _ _ _ _ => .rmReg
  | .movRegImmB _ | .movRegImmW _ => .immReg
  | .movRmImmRrB _ _ | .movRmImmRrW _ _ | .movRmImmDirectB _ | .movRmImmDirectW _ | .movRmImmM0B _ _
  | .movRmImmM0W _ _ | .movRmImmM8B _ _ | .movRmImmM8W _ _ | .movRmImmM16B _ _ | .movRmImmM16W _ _ => .immRm

/-- The instruction with its ignored field `b1[5:3]` 0, for class `IMM_RM` (R103); every other row as it is. -/
def Instr.clearMiddle : Instr → Instr
  | .movRmRegRr d w reg rm => .movRmRegRr d w reg rm
  | .movRmRegDirect d w reg => .movRmRegDirect d w reg
  | .movRmRegM0 d w reg rm => .movRmRegM0 d w reg rm
  | .movRmRegM8 d w reg rm => .movRmRegM8 d w reg rm
  | .movRmRegM16 d w reg rm => .movRmRegM16 d w reg rm
  | .movRegImmB reg => .movRegImmB reg
  | .movRegImmW reg => .movRegImmW reg
  | .movRmImmRrB _ rm => .movRmImmRrB 0 rm
  | .movRmImmRrW _ rm => .movRmImmRrW 0 rm
  | .movRmImmDirectB _ => .movRmImmDirectB 0
  | .movRmImmDirectW _ => .movRmImmDirectW 0
  | .movRmImmM0B _ rm => .movRmImmM0B 0 rm
  | .movRmImmM0W _ rm => .movRmImmM0W 0 rm
  | .movRmImmM8B _ rm => .movRmImmM8B 0 rm
  | .movRmImmM8W _ rm => .movRmImmM8W 0 rm
  | .movRmImmM16B _ rm => .movRmImmM16B 0 rm
  | .movRmImmM16W _ rm => .movRmImmM16W 0 rm

/-! ### The opcode table as data (spec/opcode_table.json, spec/INDEX.md) -/

/-- One row: how many bits the test looks at, the mask and the value it must leave. -/
structure TableRow where
  width : Nat
  mask : Nat
  value : Nat
deriving DecidableEq, Repr

/-- The seventeen rows in the table's order. -/
def opcodeTable : List TableRow :=
  [⟨16, 0xfcc0, 0x88c0⟩, ⟨16, 0xfcc7, 0x8806⟩, ⟨16, 0xfcc0, 0x8800⟩, ⟨16, 0xfcc0, 0x8840⟩, ⟨16, 0xfcc0, 0x8880⟩,
   ⟨8, 0xf8, 0xb0⟩, ⟨8, 0xf8, 0xb8⟩] ++
  [⟨16, 0xffc0, 0xc6c0⟩, ⟨16, 0xffc0, 0xc7c0⟩, ⟨16, 0xffc7, 0xc606⟩, ⟨16, 0xffc7, 0xc706⟩, ⟨16, 0xffc0, 0xc600⟩,
   ⟨16, 0xffc0, 0xc700⟩, ⟨16, 0xffc0, 0xc640⟩, ⟨16, 0xffc0, 0xc740⟩, ⟨16, 0xffc0, 0xc680⟩, ⟨16, 0xffc0, 0xc780⟩]

/-- Does a row's test hold of `b0` and `b1`: `((b0 << 8) | b1) & mask = match`, or `b0 & mask = match` (INDEX). -/
def TableRow.holds (r : TableRow) (b0 b1 : Byte) : Bool :=
  if r.width = 16 then (b0.toNat * 256 + b1.toNat) &&& r.mask == r.value else b0.toNat &&& r.mask == r.value

/-- The place in the table of an instruction's row. -/
def Instr.tableIndex : Instr → Nat
  | .movRmRegRr _ _ _ _ => 0
  | .movRmRegDirect _ _ _ => 1
  | .movRmRegM0 _ _ _ _ => 2
  | .movRmRegM8 _ _ _ _ => 3
  | .movRmRegM16 _ _ _ _ => 4
  | .movRegImmB _ => 5
  | .movRegImmW _ => 6
  | .movRmImmRrB _ _ => 7
  | .movRmImmRrW _ _ => 8
  | .movRmImmDirectB _ => 9
  | .movRmImmDirectW _ => 10
  | .movRmImmM0B _ _ => 11
  | .movRmImmM0W _ _ => 12
  | .movRmImmM8B _ _ => 13
  | .movRmImmM8W _ _ => 14
  | .movRmImmM16B _ _ => 15
  | .movRmImmM16W _ _ => 16

/-! ### The host's probe words -/

/-- The longest instruction has six bytes (R90). -/
def longest : Nat := 6

/-- Byte `k` of a number, counting from its least significant byte. -/
def byteOf (w k : Nat) : Byte := BitVec.ofNat 8 (w / 256 ^ k)

/-- The bytes, in stream order, of an instruction the host gives as a number: the table's rows with a second
opcode byte are numbered as ONE 16-bit word `(b0 << 8) | b1` (spec/INDEX.md "How to read"), the others as the
single byte `b0`; later bytes count on from there, and the bits above `nbits` are zero. DEDUCED: log entry 12. -/
def tableBytes (nbits w : Nat) : List Byte :=
  let v := w % 2 ^ nbits
  let later := (List.range (longest - 2)).map fun k => byteOf v (k + 2)
  let wordFirst :=
    match classOf (byteOf v 1) with
    | .rmReg | .immRm => decide (16 ≤ nbits)
    | .immReg | .unrec => false
  if wordFirst then byteOf v 1 :: byteOf v 0 :: later else byteOf v 0 :: byteOf v 1 :: later

/-- The instruction the decoder reads from such a number; `none` where it refuses. -/
def decodeTableWord (nbits w : Nat) : Option Instr :=
  match decode (tableBytes nbits w) with
  | .insn i _ => some i
  | .reject _ => none

end Sys2Proof
end

