-- ==== Sys2Proof/Config.lean ====
section
/-! DEFINITION. What is fixed for the whole of one decode pass: the three policy parameters of
spec/00_scope.md R6, which the caller supplies, and their defaults (spec/92_eei_decisions.md D2, D3, D4).
The spec leaves no value open that a step would need, so there is no free value here. -/

namespace Sys2Proof

/-- `UNREC_POLICY`: is a leading byte that matches no pattern skipped, or does it abort the pass (R6, R154). -/
inductive UnrecPolicy where
  | lenient
  | strict
deriving DecidableEq, Repr

/-- `MOD_POLICY`: does class `RM_REG` take all four addressing modes, or register-direct only (R6, R189). -/
inductive ModPolicy where
  | full
  | regOnly
deriving DecidableEq, Repr

/-- `DIRECT_POLICY`: what `mod = 0`, `rm = 6` does, a decode error or a 16-bit direct address (R6, R183). -/
inductive DirectPolicy where
  | fail
  | direct16
deriving DecidableEq, Repr

/-- The policy parameters of one pass (R6, R42). -/
structure Policies where
  unrec : UnrecPolicy
  modes : ModPolicy
  direct : DirectPolicy
deriving DecidableEq, Repr

/-- The defaults of R6: `LENIENT`, `FULL`, `FAIL`. -/
def Config.defaults : Policies := ⟨.lenient, .full, .fail⟩

end Sys2Proof
end

