-- ==== Sys2Proof/Machine/State.lean ====
section
/-! DEFINITION. The state of the decoder (spec/10_state.md R30 to R52), its reset value (R51, R270), and the
reasons a step can stop. The read-only tables of R39 are constants (`reg8`, `reg16`, `fragment` in
Machine/Operands.lean) and no field. -/

namespace Sys2Proof.Machine

/-- The byte stream as memory: one cell for each position, addresses strictly rising from 0 (R31, R44, R68).
An address with no cell holds no byte; reading it answers `End` (R67). `LEN` is the number of cells. -/
abbrev Memory := List Host.Cell

/-- The eleven phases of the per-byte state machine (R161). -/
inductive Phase where
  | pIdle
  | pHdr
  | pB0
  | pB1
  | pDlo
  | pDhi
  | pIlo
  | pIhi
  | pEmit
  | pOk
  | pErr
deriving DecidableEq, Repr

/-- The pass status (R35). -/
inductive Status where
  | idle
  | run
  | doneOk
  | doneErr
deriving DecidableEq, Repr

/-- The kinds of spec/60_exceptions.md R230, in the order of their codes. -/
inductive ErrorKind where
  | endOfInputAtBoundary
  | endOfInputMidInstruction
  | unrecognizedOpcode
  | malformedSecondByte
  | directAddressUnimplemented
deriving DecidableEq, Repr

/-- `Result<(), DecodeError>`: `Ok`, or `Err(kind, bytes_ok)` (R35, R236). -/
inductive PassResult where
  | ok
  | err (kind : ErrorKind) (bytesOk : Nat)
deriving DecidableEq, Repr

/-- One record of the diagnostic log (R34). -/
structure DiagRecord where
  kind : ErrorKind
  offset : Nat
  byte : Byte
deriving DecidableEq, Repr

/-- The structured record the block presents when a line is written (R52). A latch the instruction's class does
not write holds nothing of this instruction (R37), so its component is `none`. -/
structure InsnRecord where
  cls : OpClass
  w : Bit
  d : Option Bit
  mod : Option Mode2
  reg : Option Sel3
  rm : Option Sel3
  disp : Option Word
  imm : Option Word
  length : Nat
deriving DecidableEq, Repr

/-- What the caller hands over to start a pass (R48, R273): the byte source's bytes, the sink with what the
environment has in it, and the three policy values. -/
structure PassRequest where
  stream : List Byte
  sink : Text
  policies : Policies
deriving DecidableEq, Repr

/-- The whole state. -/
structure State where
  /-- `src` (R31); `none` while no stream is attached (R51, R270). `LEN` is its number of cells. -/
  src : Option Memory
  /-- `pc`, the byte-position cursor (R32). -/
  pc : Nat
  /-- `sink` (R33); `none` while no sink is attached (R270). -/
  sink : Option Text
  /-- `diag`, oldest record first (R34). -/
  diag : List DiagRecord
  /-- `status` (R35). -/
  status : Status
  /-- `result` (R35); `none` while it is undefined, that is while `status` is `IDLE` or `RUN` (R51). -/
  result : Option PassResult
  /-- `insn_start` (R36). -/
  insnStart : Nat
  /-- Latch `b0` (R37). -/
  b0 : Byte
  /-- Latch `class` (R37). -/
  cls : OpClass
  /-- Latch `w` (R37). -/
  w : Bit
  /-- Latch `d` (R37). -/
  d : Bit
  /-- Latch `b1` (R37). -/
  b1 : Byte
  /-- Latch `mod` (R37). -/
  mod : Mode2
  /-- Latch `reg` (R37). -/
  reg : Sel3
  /-- Latch `rm` (R37). -/
  rm : Sel3
  /-- Latch `disp` (R37). -/
  disp : Word
  /-- Latch `imm` (R37). -/
  imm : Word
  /-- `phase` (R37, R161). -/
  phase : Phase
  /-- `UNREC_POLICY` (R6, R42). -/
  unrecPolicy : UnrecPolicy
  /-- `MOD_POLICY` (R6, R42). -/
  modPolicy : ModPolicy
  /-- `DIRECT_POLICY` (R6, R42). -/
  directPolicy : DirectPolicy
  /-- The structured records presented in this pass, oldest first (R52). DESIGN CHOICE: log entry 7. -/
  records : List InsnRecord
  /-- The MODEL's own field: a start request the caller has made and the block has not taken (R48, R274).
  DESIGN CHOICE: log entry 2. -/
  request : Option PassRequest
deriving DecidableEq, Repr

/-- Reasons the machine stops. -/
inductive Fault where
  /-- Raised by `tick` in a phase between two reads of one instruction, when the latches hold a combination for
  which the transition table of R162 has no row, so that no step is enabled. No run reaches one. Safe. -/
  | noTransition (p : Phase)
deriving DecidableEq, Repr

/-- Reasons an instruction is refused. -/
inductive Refusal where
  /-- Raised by `exec`'s arm of an instruction that has no meaning yet. Safe. -/
  | notModelled (mnemonic : String)
deriving DecidableEq, Repr

/-- The state before the caller has started any pass (R51, R270). The latches and `insn_start` are unspecified
there; the values named for them are DESIGN CHOICEs of log entries 3 and 4. -/
def State.reset : State where
  src := none
  pc := 0
  sink := none
  diag := []
  status := .idle
  result := none
  insnStart := 0
  b0 := 0
  cls := .unrec
  w := false
  d := false
  b1 := 0
  mod := 0
  reg := 0
  rm := 0
  disp := 0
  imm := 0
  phase := .pIdle
  unrecPolicy := Config.defaults.unrec
  modPolicy := Config.defaults.modes
  directPolicy := Config.defaults.direct
  records := []
  request := none

end Sys2Proof.Machine
end

