-- ==== Sys2Proof/Machine/Ops.lean ====
section
/-! DEFINITION. The named operations over the byte stream, the sink, the diagnostic log and the pass: `Next` and
`Need` (spec/00_scope.md R11), `SinkLine` and `Diag` (R13), `raise` (R14, R239), the start and the end of a pass
(R151, R158, R271, R274), and the loading of the latches (spec/10_state.md R37). -/

namespace Sys2Proof.Machine

/-! ### The byte stream -/

/-- `LEN` (R31). -/
def Memory.len (m : Memory) : Nat := m.length

/-- `src[a]`; an address with no cell holds no byte (R31, R67). -/
def Memory.read : Memory → Nat → Option Byte
  | [], _ => none
  | (k, b) :: m, a => if k = a then some b else Memory.read m a

/-- The canonical form from address `k` on: the cells are those of `k`, `k + 1`, … with none left out (R31, R68). -/
def Memory.wfFrom : Nat → Memory → Bool
  | _, [] => true
  | k, (a, _) :: m => a == k && Memory.wfFrom (k + 1) m

/-- The canonical form of a stream: its addresses are 0 to `LEN - 1`, rising (R31, R68). -/
def Memory.wf (m : Memory) : Bool := Memory.wfFrom 0 m

/-- The cells of a sequence of bytes, from address `k` on. -/
def Memory.ofBytesFrom : Nat → List Byte → Memory
  | _, [] => []
  | k, b :: bs => (k, b) :: Memory.ofBytesFrom (k + 1) bs

/-- The stream a byte source supplies: its first byte is at position 0 (R68). -/
def Memory.ofBytes (bs : List Byte) : Memory := Memory.ofBytesFrom 0 bs

/-- Put a byte at an address, in address order. No step writes the stream (R12, R73); the host's loader does. -/
def Memory.store (a : Nat) (b : Byte) : Memory → Memory
  | [] => [(a, b)]
  | (k, c) :: m =>
    if a < k then (a, b) :: (k, c) :: m
    else if a = k then (a, b) :: m
    else (k, c) :: Memory.store a b m

/-- Put bytes at successive addresses. -/
def Memory.storeBytes : Nat → List Byte → Memory → Memory
  | _, [], m => m
  | a, b :: bs, m => Memory.storeBytes (a + 1) bs (Memory.store a b m)

/-- The bytes from address `a` on, at most `n`, as far as the stream has them. -/
def Memory.window (m : Memory) : Nat → Nat → List Byte
  | _, 0 => []
  | a, n + 1 =>
    match Memory.read m a with
    | none => []
    | some b => b :: Memory.window m (a + 1) n

/-- `lo + (hi << 8)` (R62, R99, R100). -/
def assemble (lo hi : Byte) : Word := lo.setWidth 16 + (hi.setWidth 16 <<< 8)

/-- `MemRead(addr, n)` for `n` in {1, 2} (R12): the unsigned little-endian value, where the bytes exist. -/
def Memory.memRead (m : Memory) (a n : Nat) : Option Word :=
  match n with
  | 1 => (Memory.read m a).map fun b => b.setWidth 16
  | 2 =>
    match Memory.read m a, Memory.read m (a + 1) with
    | some lo, some hi => some (assemble lo hi)
    | _, _ => none
  | _ => none

/-- The attached stream; with none attached there is no byte to read (R51). -/
def State.stream (s : State) : Memory := s.src.getD []

/-- `LEN` of the attached stream. -/
def State.len (s : State) : Nat := s.stream.len

/-- The text the sink holds. -/
def State.text (s : State) : Text := s.sink.getD []

/-- The cursor moves forward past `n` bytes (R32, R61). -/
def State.advance (n : Nat) (s : State) : State := { s with pc := s.pc + n }

/-- Write the `disp` latch (R37). -/
def State.setDisp (v : Word) (s : State) : State := { s with disp := v }

/-- Write the `imm` latch (R37). -/
def State.setImm (v : Word) (s : State) : State := { s with imm := v }

/-- Go to a phase (R161). -/
def State.goto (p : Phase) (s : State) : State := { s with phase := p }

/-- `Next()` (R11): the byte at the cursor, which advances by one, or `End`, which leaves it. -/
def State.next (s : State) : Option Byte × State :=
  match s.stream.read s.pc with
  | some b => (some b, s.advance 1)
  | none => (none, s)

/-! ### Output -/

/-- The newline character U+000A (R13). -/
def newline : Char := Char.ofNat 10

/-- The header line (R108, R151). -/
def header : Text := "bits 16".toList

/-- `SinkLine(s)` (R13): the line and one newline are appended. -/
def State.sinkLine (line : Text) (s : State) : State := { s with sink := some (s.text ++ line ++ [newline]) }

/-- `Diag(kind, offset, byte)` (R13, R34). -/
def State.addDiag (kind : ErrorKind) (offset : Nat) (byte : Byte) (s : State) : State :=
  { s with diag := s.diag ++ [⟨kind, offset, byte⟩] }

/-- The numeric codes of the kinds (R230). -/
def ErrorKind.code : ErrorKind → Nat
  | .endOfInputAtBoundary => 0
  | .endOfInputMidInstruction => 1
  | .unrecognizedOpcode => 2
  | .malformedSecondByte => 3
  | .directAddressUnimplemented => 4

/-! ### Taking a decode error, and the other ends of a pass -/

/-- `raise K(insn_start)`, in full (R14, R239): the result is `Err(K, insn_start)`, the pass is over, and nothing
else changes. There is no return from it (R241). -/
def State.raise (k : ErrorKind) (s : State) : State :=
  { s with result := some (.err k s.insnStart), status := .doneErr, phase := .pErr }

/-- The successful end of a pass (R152, R158). -/
def State.finish (s : State) : State := { s with result := some .ok, status := .doneOk, phase := .pOk }

/-- `Need()` (R11): a handler's read of a trailing byte, handed to what follows; `End` raises
`EndOfInputMidInstruction`. -/
def State.need (follow : Byte → State → State) (s : State) : State :=
  match s.next with
  | (some b, s') => follow b s'
  | (none, s') => s'.raise .endOfInputMidInstruction

/-- The caller starts a pass (R48, R162, R271, R274): the new stream from its first byte, the sink it hands over,
its policies, an empty log. The result is undefined again (R51) and no record is presented yet. -/
def State.startPass (r : PassRequest) (s : State) : State :=
  { s with
    src := some (Memory.ofBytes r.stream), pc := 0, sink := some r.sink, diag := [], status := .run,
    result := none, phase := .pHdr, unrecPolicy := r.policies.unrec, modPolicy := r.policies.modes,
    directPolicy := r.policies.direct, records := [], request := none }

/-- The caller's transaction on the control interface (R48): a start is asked for only when no pass is running;
a request while one runs is not taken (R274, spec/93_implementation_defined.md U13). -/
def State.submit (r : PassRequest) (s : State) : State :=
  if s.status = .run then s else { s with request := some r }

/-! ### The latches (R37) -/

/-- The start of an iteration: `insn_start <- pc` (R36, R152). -/
def State.begin (s : State) : State := { s with insnStart := s.pc }

/-- The leading byte has been read: `b0`, `class` and the fields that lie in `b0` (R37, R97). -/
def State.latchB0 (b : Byte) (s : State) : State :=
  match classOf b with
  | .rmReg => { s with b0 := b, cls := .rmReg, w := sizeBit b, d := directionBit b }
  | .immRm => { s with b0 := b, cls := .immRm, w := sizeBit b }
  | .immReg => { s with b0 := b, cls := .immReg, w := immSizeBit b, reg := lowField b }
  | .unrec => { s with b0 := b, cls := .unrec }

/-- The second opcode byte has been read: `b1`, `mod`, `reg`, `rm` (R37). -/
def State.latchB1 (b : Byte) (s : State) : State :=
  { s with b1 := b, mod := modField b, reg := midField b, rm := lowField b }

/-- Consume the leading byte. -/
def State.takeB0 (b : Byte) (s : State) : State := (s.latchB0 b).advance 1

/-- Consume the second opcode byte. -/
def State.takeB1 (b : Byte) (s : State) : State := (s.latchB1 b).advance 1

/-- Begin the iteration that decodes `i`: its opcode bytes are consumed and latched (R36, R37, R153). -/
def State.openInsn (i : Instr) (s : State) : State :=
  match encode i with
  | b0 :: b1 :: _ => (s.begin.takeB0 b0).takeB1 b1
  | [b0] => s.begin.takeB0 b0
  | [] => s.begin

/-- `Unrecognised(b0)` once `b0` is consumed (R154): one diagnostic record and on, or the pass aborts. -/
def State.unrecognised (b : Byte) (s : State) : State :=
  match s.unrecPolicy with
  | .lenient => (s.addDiag .unrecognizedOpcode s.insnStart b).goto .pB0
  | .strict => s.raise .unrecognizedOpcode

end Sys2Proof.Machine
end

