-- ==== Sys2Proof/Machine/Flags.lean ====
section
/-! DEFINITION. The block has no condition flags (spec/10_state.md R41). What the spec calls flags are the two bits
of an instruction: the operand-size flag `w` and the direction bit `d` (spec/30_encoding.md R94). -/

namespace Sys2Proof.Machine

/-- `ImmLen(w)` (R101). -/
def immLen (w : Bit) : Nat := if w then 2 else 1

/-- The direction bit (R188): with `R` the operand `reg` selects and `M` the operand `rm` selects, (dest, src). -/
def ordered (d : Bit) (regOp rmOp : Text) : Text × Text := if d then (regOp, rmOp) else (rmOp, regOp)

end Sys2Proof.Machine
end

