-- ==== Sys2Proof/Machine/Operands.lean ====
section
/-! DEFINITION. The Operand Tables and the mode selector (spec/40_operand_tables.md), the rendering of operands
(spec/42_mov_regmem_reg.md R186, R187), numbers as decimal text (spec/00_scope.md R15), lengths
(spec/30_encoding.md R101), and the reads of displacement and immediate bytes that the handlers share. -/

namespace Sys2Proof.Machine

/-! ### The tables (R131, R132, R134) -/

/-- `REG8` (R131). -/
def reg8 (i : Sel3) : Text :=
  match i.toNat with
  | 0 => "al".toList
  | 1 => "cl".toList
  | 2 => "dl".toList
  | 3 => "bl".toList
  | 4 => "ah".toList
  | 5 => "ch".toList
  | 6 => "dh".toList
  | _ => "bh".toList

/-- `REG16` (R132). -/
def reg16 (i : Sel3) : Text :=
  match i.toNat with
  | 0 => "ax".toList
  | 1 => "cx".toList
  | 2 => "dx".toList
  | 3 => "bx".toList
  | 4 => "sp".toList
  | 5 => "bp".toList
  | 6 => "si".toList
  | _ => "di".toList

/-- `RegName(w, i)` (R130). -/
def regName (w : Bit) (i : Sel3) : Text := if w then reg16 i else reg8 i

/-- `EA`, the base-register fragments (R134). -/
def fragment (i : Sel3) : Text :=
  match i.toNat with
  | 0 => "bx + si".toList
  | 1 => "bx + di".toList
  | 2 => "bp + si".toList
  | 3 => "bp + di".toList
  | 4 => "si".toList
  | 5 => "di".toList
  | 6 => "bp".toList
  | _ => "bx".toList

/-! ### The mode selector (R136) and lengths (R101) -/

/-- What the `rm` field selects. -/
inductive OperandKind where
  | register
  | memory
  | direct
deriving DecidableEq, Repr

/-- `OperandKind(mod, rm)` (R136). -/
def operandKind (mod : Mode2) (rm : Sel3) : OperandKind :=
  if mod = 3#2 then .register
  else if mod = 0#2 ∧ rm = Sel3.direct then .direct
  else .memory

/-- `DispLen(mod, rm)` (R101); the special case has two address bytes where it decodes at all. -/
def dispLen (mod : Mode2) (rm : Sel3) : Nat :=
  if mod = 3#2 then 0
  else if mod = 1#2 then 1
  else if mod = 2#2 then 2
  else if rm = Sel3.direct then 2
  else 0

/-- Is this the special case that `DIRECT_POLICY = FAIL` makes an error (R104, R183). -/
def directFails (p : DirectPolicy) (mod : Mode2) (rm : Sel3) : Bool :=
  p == .fail && operandKind mod rm == .direct

/-- Does `MOD_POLICY = REG_ONLY` make this an error (R189); class `RM_REG` only. -/
def modeRejected (p : ModPolicy) (mod : Mode2) : Bool := p == .regOnly && mod != 3#2

/-- `Length` (R101) from the fields; `none` where the instruction is an error after `b1` and has no length. -/
def insnLength (p : DirectPolicy) (cls : OpClass) (w : Bit) (mod : Mode2) (rm : Sel3) : Option Nat :=
  match cls with
  | .rmReg => if directFails p mod rm then none else some (2 + dispLen mod rm)
  | .immReg => some (1 + immLen w)
  | .immRm => if directFails p mod rm then none else some (2 + dispLen mod rm + immLen w)
  | .unrec => none

/-! ### Text -/

/-- The ASCII digit (R15). -/
def digit (n : Nat) : Char := Char.ofNat (48 + n)

/-- The digits of `n` before `tail`, most significant first; `fuel` bounds their number. -/
def decDigits : Nat → Nat → Text → Text
  | 0, _, tail => tail
  | fuel + 1, n, tail => if n < 10 then digit n :: tail else decDigits fuel (n / 10) (digit (n % 10) :: tail)

/-- `dec(n)` (R15). -/
def dec (n : Nat) : Text := decDigits (n + 1) n []

/-- `RmText(w, mod, rm, disp)` (R187). -/
def rmText (w : Bit) (mod : Mode2) (rm : Sel3) (disp : Word) : Text :=
  match operandKind mod rm with
  | .register => regName w rm
  | .direct => "[".toList ++ dec disp.toNat ++ "]".toList
  | .memory =>
    if mod = 0#2 ∨ disp = 0#16 then "[".toList ++ fragment rm ++ "]".toList
    else "[".toList ++ fragment rm ++ " + ".toList ++ dec disp.toNat ++ "]".toList

/-- The line of a decoded instruction, without its newline (R109, R156). -/
def movLine (dest src : Text) : Text := "mov ".toList ++ dest ++ ", ".toList ++ src

/-- The lines of R156, per class, from the fields. -/
def rmRegLine (d w : Bit) (mod : Mode2) (reg rm : Sel3) (disp : Word) : Text :=
  let o := ordered d (regName w reg) (rmText w mod rm disp)
  movLine o.1 o.2

/-- The line of class `IMM_REG` (R156). -/
def immRegLine (w : Bit) (reg : Sel3) (imm : Word) : Text := movLine (regName w reg) (dec imm.toNat)

/-- The line of class `IMM_RM` (R156). -/
def immRmLine (w : Bit) (mod : Mode2) (rm : Sel3) (disp imm : Word) : Text :=
  movLine (rmText w mod rm disp) (dec imm.toNat)

/-- Write a decoded instruction's line, present its record, and go to the next iteration (R52, R156, R162). -/
def State.emit (line : Text) (record : InsnRecord) (s : State) : State :=
  { s.sinkLine line with records := s.records ++ [record], phase := .pB0 }

/-! ### Reading operand bytes -/

/-- The displacement or direct-address bytes, `n` of them, low byte first (R62, R99, R186). -/
def State.readDisp (n : Nat) (follow : State → State) (s : State) : State :=
  match n with
  | 0 => follow (s.setDisp 0#16)
  | 1 => s.need fun b s => follow (s.setDisp (b.setWidth 16))
  | _ => s.need fun lo s => (s.setDisp (lo.setWidth 16)).need fun hi s => follow (s.setDisp (assemble lo hi))

/-- The immediate bytes, one or two by `w`, low byte first (R62, R100). -/
def State.readImm (w : Bit) (follow : State → State) (s : State) : State :=
  if w then
    s.need fun lo s => (s.setImm (lo.setWidth 16)).need fun hi s => follow (s.setImm (assemble lo hi))
  else s.need fun b s => follow (s.setImm (b.setWidth 16))

/-- The `rm` operand's bytes (R183, R186): the special case fails under `FAIL` before any byte after `b1` is read;
otherwise the displacement or direct address is read into its latch. -/
def State.resolveRm (mod : Mode2) (rm : Sel3) (follow : State → State) (s : State) : State :=
  if directFails s.directPolicy mod rm then s.raise .directAddressUnimplemented
  else s.readDisp (dispLen mod rm) follow

end Sys2Proof.Machine
end

