-- ==== Sys2Proof/Machine/ImmReg.lean ====
section
/-! DEFINITION. Class `IMM_REG`: `MOV` immediate to register (spec/43_mov_imm_reg.md). -/

namespace Sys2Proof.Machine

/-- The record of a class `IMM_REG` instruction (R52). -/
def immRegRecord (w : Bit) (reg : Sel3) (imm : Word) (length : Nat) : InsnRecord :=
  ⟨.immReg, w, none, none, some reg, none, none, some imm, length⟩

/-- `H_IMM_REG` once `b0` is read (R200). -/
def handleImmReg (w : Bit) (reg : Sel3) (s : State) : State :=
  s.readImm w fun s =>
    s.emit (immRegLine w reg s.imm) (immRegRecord w reg s.imm (s.pc - s.insnStart))

/-- `mov_reg_imm.b` (R201). -/
def execMovRegImmB (reg : Sel3) (s : State) : Host.Outcome State Fault Refusal :=
  .next (handleImmReg false reg (s.openInsn (.movRegImmB reg)))

/-- `mov_reg_imm.w` (R202). -/
def execMovRegImmW (reg : Sel3) (s : State) : Host.Outcome State Fault Refusal :=
  .next (handleImmReg true reg (s.openInsn (.movRegImmW reg)))

end Sys2Proof.Machine
end

