-- ==== Sys2Proof/Machine/ImmRm.lean ====
section
/-! DEFINITION. Class `IMM_RM`: `MOV` immediate to register or memory (spec/44_mov_imm_regmem.md). -/

namespace Sys2Proof.Machine

/-- The record of a class `IMM_RM` instruction (R52); `b1[5:3]` has no meaning in it (R103, U12). -/
def immRmRecord (w : Bit) (mod : Mode2) (rm : Sel3) (disp imm : Word) (length : Nat) : InsnRecord :=
  ⟨.immRm, w, none, some mod, none, some rm, some disp, some imm, length⟩

/-- `H_IMM_RM` once `b1` is read (R210, R222): the displacement, then the immediate. `MOD_POLICY` does not apply
(R189), and `b1[5:3]` is not examined (R221). -/
def handleImmRm (w : Bit) (mod : Mode2) (rm : Sel3) (s : State) : State :=
  s.resolveRm mod rm fun s =>
    s.readImm w fun s =>
      s.emit (immRmLine w mod rm s.disp s.imm)
        (immRmRecord w mod rm s.disp s.imm (s.pc - s.insnStart))

/-- `mov_rm_imm.rr.b` (R211). -/
def execMovRmImmRrB (x rm : Sel3) (s : State) : Host.Outcome State Fault Refusal :=
  .next (handleImmRm false 3#2 rm (s.openInsn (.movRmImmRrB x rm)))

/-- `mov_rm_imm.rr.w` (R212). -/
def execMovRmImmRrW (x rm : Sel3) (s : State) : Host.Outcome State Fault Refusal :=
  .next (handleImmRm true 3#2 rm (s.openInsn (.movRmImmRrW x rm)))

/-- `mov_rm_imm.direct.b` (R213). -/
def execMovRmImmDirectB (x : Sel3) (s : State) : Host.Outcome State Fault Refusal :=
  .next (handleImmRm false 0#2 Sel3.direct (s.openInsn (.movRmImmDirectB x)))

/-- `mov_rm_imm.direct.w` (R214). -/
def execMovRmImmDirectW (x : Sel3) (s : State) : Host.Outcome State Fault Refusal :=
  .next (handleImmRm true 0#2 Sel3.direct (s.openInsn (.movRmImmDirectW x)))

/-- `mov_rm_imm.m0.b` (R215). -/
def execMovRmImmM0B (x rm : Sel3) (s : State) : Host.Outcome State Fault Refusal :=
  .next (handleImmRm false 0#2 rm (s.openInsn (.movRmImmM0B x rm)))

/-- `mov_rm_imm.m0.w` (R216). -/
def execMovRmImmM0W (x rm : Sel3) (s : State) : Host.Outcome State Fault Refusal :=
  .next (handleImmRm true 0#2 rm (s.openInsn (.movRmImmM0W x rm)))

/-- `mov_rm_imm.m8.b` (R217). -/
def execMovRmImmM8B (x rm : Sel3) (s : State) : Host.Outcome State Fault Refusal :=
  .next (handleImmRm false 1#2 rm (s.openInsn (.movRmImmM8B x rm)))

/-- `mov_rm_imm.m8.w` (R218). -/
def execMovRmImmM8W (x rm : Sel3) (s : State) : Host.Outcome State Fault Refusal :=
  .next (handleImmRm true 1#2 rm (s.openInsn (.movRmImmM8W x rm)))

/-- `mov_rm_imm.m16.b` (R219). -/
def execMovRmImmM16B (x rm : Sel3) (s : State) : Host.Outcome State Fault Refusal :=
  .next (handleImmRm false 2#2 rm (s.openInsn (.movRmImmM16B x rm)))

/-- `mov_rm_imm.m16.w` (R220). -/
def execMovRmImmM16W (x rm : Sel3) (s : State) : Host.Outcome State Fault Refusal :=
  .next (handleImmRm true 2#2 rm (s.openInsn (.movRmImmM16W x rm)))

end Sys2Proof.Machine
end

