-- ==== Sys2Proof/Machine/RmReg.lean ====
section
/-! DEFINITION. Class `RM_REG`: `MOV` register/memory to and from register (spec/42_mov_regmem_reg.md). -/

namespace Sys2Proof.Machine

/-- The record of a class `RM_REG` instruction (R52). -/
def rmRegRecord (d w : Bit) (mod : Mode2) (reg rm : Sel3) (disp : Word) (length : Nat) : InsnRecord :=
  ⟨.rmReg, w, some d, some mod, some reg, some rm, some disp, none, length⟩

/-- `H_RM_REG` once `b1` is read (R180, R188, R189). -/
def handleRmReg (d w : Bit) (mod : Mode2) (reg rm : Sel3) (s : State) : State :=
  if modeRejected s.modPolicy mod then s.raise .malformedSecondByte
  else s.resolveRm mod rm fun s =>
    s.emit (rmRegLine d w mod reg rm s.disp) (rmRegRecord d w mod reg rm s.disp (s.pc - s.insnStart))

/-- `mov_rm_reg.rr` (R181). -/
def execMovRmRegRr (d w : Bit) (reg rm : Sel3) (s : State) : Host.Outcome State Fault Refusal :=
  .next (handleRmReg d w 3#2 reg rm (s.openInsn (.movRmRegRr d w reg rm)))

/-- `mov_rm_reg.direct` (R183). -/
def execMovRmRegDirect (d w : Bit) (reg : Sel3) (s : State) : Host.Outcome State Fault Refusal :=
  .next (handleRmReg d w 0#2 reg Sel3.direct (s.openInsn (.movRmRegDirect d w reg)))

/-- `mov_rm_reg.m0` (R182). -/
def execMovRmRegM0 (d w : Bit) (reg rm : Sel3) (s : State) : Host.Outcome State Fault Refusal :=
  .next (handleRmReg d w 0#2 reg rm (s.openInsn (.movRmRegM0 d w reg rm)))

/-- `mov_rm_reg.m8` (R184). -/
def execMovRmRegM8 (d w : Bit) (reg rm : Sel3) (s : State) : Host.Outcome State Fault Refusal :=
  .next (handleRmReg d w 1#2 reg rm (s.openInsn (.movRmRegM8 d w reg rm)))

/-- `mov_rm_reg.m16` (R185). -/
def execMovRmRegM16 (d w : Bit) (reg rm : Sel3) (s : State) : Host.Outcome State Fault Refusal :=
  .next (handleRmReg d w 2#2 reg rm (s.openInsn (.movRmRegM16 d w reg rm)))

end Sys2Proof.Machine
end

