-- ==== Sys2Proof/Machine/Dispatch.lean ====
section
/-! DEFINITION. One arm per encoding row: the whole iteration that decodes it (spec/41_decode_pass.md R153). -/

namespace Sys2Proof.Machine

def exec (i : Instr) (s : State) : Host.Outcome State Fault Refusal :=
  match i with
  | .movRmRegRr d w reg rm => Sys2Proof.Machine.execMovRmRegRr d w reg rm s
  | .movRmRegDirect d w reg => Sys2Proof.Machine.execMovRmRegDirect d w reg s
  | .movRmRegM0 d w reg rm => Sys2Proof.Machine.execMovRmRegM0 d w reg rm s
  | .movRmRegM8 d w reg rm => Sys2Proof.Machine.execMovRmRegM8 d w reg rm s
  | .movRmRegM16 d w reg rm => Sys2Proof.Machine.execMovRmRegM16 d w reg rm s
  | .movRegImmB reg => Sys2Proof.Machine.execMovRegImmB reg s
  | .movRegImmW reg => Sys2Proof.Machine.execMovRegImmW reg s
  | .movRmImmRrB x rm => Sys2Proof.Machine.execMovRmImmRrB x rm s
  | .movRmImmRrW x rm => Sys2Proof.Machine.execMovRmImmRrW x rm s
  | .movRmImmDirectB x => Sys2Proof.Machine.execMovRmImmDirectB x s
  | .movRmImmDirectW x => Sys2Proof.Machine.execMovRmImmDirectW x s
  | .movRmImmM0B x rm => Sys2Proof.Machine.execMovRmImmM0B x rm s
  | .movRmImmM0W x rm => Sys2Proof.Machine.execMovRmImmM0W x rm s
  | .movRmImmM8B x rm => Sys2Proof.Machine.execMovRmImmM8B x rm s
  | .movRmImmM8W x rm => Sys2Proof.Machine.execMovRmImmM8W x rm s
  | .movRmImmM16B x rm => Sys2Proof.Machine.execMovRmImmM16B x rm s
  | .movRmImmM16W x rm => Sys2Proof.Machine.execMovRmImmM16W x rm s

end Sys2Proof.Machine
end

