-- ==== Sys2Proof/Machine/Phases.lean ====
section
/-! DEFINITION. The per-byte state machine (spec/41_decode_pass.md R161, R162): one transaction a tick. The meanings
of the rows run the same transactions of one instruction together (R163). -/

namespace Sys2Proof.Machine

/-- Read the next byte, or raise `EndOfInputMidInstruction`: the reading phases other than `P_B0` (R162). -/
def State.needTick (follow : Byte → State → State) (s : State) : Host.Outcome State Fault Refusal :=
  .next (s.need follow)

/-- "after D": `P_EMIT` for `RM_REG`, `P_ILO` for `IMM_RM` (R162). -/
def State.afterDisp (s : State) : State :=
  s.goto (match s.cls with | .rmReg => .pEmit | .immRm | .immReg | .unrec => .pIlo)

/-- `P_B0` (R152, R162). -/
def tickB0 (s : State) : State :=
  match s.begin.next with
  | (none, s) => s.finish
  | (some b, s) =>
    let s := s.latchB0 b
    match s.cls with
    | .rmReg | .immRm => s.goto .pB1
    | .immReg => s.goto .pIlo
    | .unrec => s.unrecognised b

/-- `P_B1` once the byte is read: the four rows of R162. -/
def tickB1 (b : Byte) (s : State) : State :=
  let s := s.latchB1 b
  if s.cls = .rmReg ∧ modeRejected s.modPolicy s.mod then s.raise .malformedSecondByte
  else if directFails s.directPolicy s.mod s.rm then s.raise .directAddressUnimplemented
  else if dispLen s.mod s.rm = 0 then (s.setDisp 0#16).afterDisp
  else s.goto .pDlo

/-- `P_DLO` once the byte is read (R162). -/
def tickDlo (b : Byte) (s : State) : State :=
  let s := s.setDisp (b.setWidth 16)
  if dispLen s.mod s.rm = 1 then s.afterDisp else s.goto .pDhi

/-- `P_DHI` once the byte is read: `disp <- disp + (byte << 8)` (R162). -/
def tickDhi (b : Byte) (s : State) : State :=
  (s.setDisp (s.disp + (b.setWidth 16 <<< 8))).afterDisp

/-- `P_ILO` once the byte is read (R162). -/
def tickIlo (b : Byte) (s : State) : State :=
  (s.setImm (b.setWidth 16)).goto (if s.w then .pIhi else .pEmit)

/-- `P_IHI` once the byte is read: `imm <- imm + (byte << 8)` (R162). -/
def tickIhi (b : Byte) (s : State) : State :=
  (s.setImm (s.imm + (b.setWidth 16 <<< 8))).goto .pEmit

/-- `P_EMIT`: the line and the record the latches hold, by class (R52, R156, R162). -/
def tickEmit (s : State) : Host.Outcome State Fault Refusal :=
  let n := s.pc - s.insnStart
  match s.cls with
  | .rmReg =>
    .next (s.emit (rmRegLine s.d s.w s.mod s.reg s.rm s.disp) (rmRegRecord s.d s.w s.mod s.reg s.rm s.disp n))
  | .immReg => .next (s.emit (immRegLine s.w s.reg s.imm) (immRegRecord s.w s.reg s.imm n))
  | .immRm =>
    .next (s.emit (immRmLine s.w s.mod s.rm s.disp s.imm) (immRmRecord s.w s.mod s.rm s.disp s.imm n))
  | .unrec => .fault (.noTransition .pEmit)

/-- Is the class one that has a second opcode byte (R91, R93). -/
def hasSecondByte : OpClass → Bool
  | .rmReg | .immRm => true
  | .immReg | .unrec => false

/-- One transaction of the state machine (R162). In `P_IDLE`, `P_OK` and `P_ERR` the block waits for the caller,
who may start a pass (R274). -/
def tick (s : State) : Host.Outcome State Fault Refusal :=
  match s.phase with
  | .pIdle | .pOk | .pErr =>
    match s.request with
    | none => .next s
    | some r => .next (s.startPass r)
  | .pHdr => .next ((s.sinkLine header).goto .pB0)
  | .pB0 => .next (tickB0 s)
  | .pB1 => if hasSecondByte s.cls then s.needTick tickB1 else .fault (.noTransition .pB1)
  | .pDlo =>
    if hasSecondByte s.cls ∧ dispLen s.mod s.rm ≠ 0 then s.needTick tickDlo else .fault (.noTransition .pDlo)
  | .pDhi => if hasSecondByte s.cls then s.needTick tickDhi else .fault (.noTransition .pDhi)
  | .pIlo => s.needTick tickIlo
  | .pIhi => s.needTick tickIhi
  | .pEmit => tickEmit s

/-- `n` transactions one after another, stopping at a fault or refusal. -/
def ticks : Nat → State → Host.Outcome State Fault Refusal
  | 0, s => .next s
  | n + 1, s =>
    match tick s with
    | .next s' => ticks n s'
    | .fault f => .fault f
    | .refused r => .refused r

end Sys2Proof.Machine
end

