-- ==== Sys2Proof/Machine/Step.lean ====
section
/-! DEFINITION. One step: at an instruction boundary (`P_B0`) one whole iteration of the engine's loop
(spec/41_decode_pass.md R150, R152 to R154), in every other phase one transaction of the state machine (R162). -/

namespace Sys2Proof.Machine

/-- One step of the machine. -/
def step (s : State) : Host.Outcome State Fault Refusal :=
  match s.phase with
  | .pB0 =>
    match decode (s.stream.window s.pc 2) with
    | .insn i _ => exec i s
    | .reject .exhausted => .next s.begin.finish
    | .reject (.unrecognised b) => .next ((s.begin.takeB0 b).unrecognised b)
    | .reject (.truncated b) => .next ((s.begin.takeB0 b).raise .endOfInputMidInstruction)
  | .pIdle | .pHdr | .pB1 | .pDlo | .pDhi | .pIlo | .pIhi | .pEmit | .pOk | .pErr => tick s

/-- The state in which the next step decodes the instruction the host gives as a number: its bytes stand in the
stream at the cursor, a pass is running and an iteration is about to begin, and a sink is attached. -/
def State.withFetchWord (s : State) (nbits w : Nat) : State :=
  { s with
    src := some (Memory.storeBytes s.pc (tableBytes nbits w) s.stream), sink := some s.text,
    status := .run, phase := .pB0 }

end Sys2Proof.Machine
end

