-- ==== Sys2Proof/Safety.lean ====
section
/-! DEFINITION. What counts as a consistent state and as a good outcome of an iteration, in the words of the spec:
the invariant of the state (spec/10_state.md R31 to R37, R51; spec/60_exceptions.md R239), what a decoded
instruction leaves and what a decode error leaves, the output grammar (spec/30_encoding.md R107), and the line and
record of a whole instruction with its operands. -/

namespace Sys2Proof.Machine

/-! ### The invariant -/

/-- A stream and a sink are attached from the first start of a pass on (R51, R270, R271). -/
def State.attached (s : State) : Prop := s.phase = .pIdle ∨ (s.src.isSome ∧ s.sink.isSome)

/-- `status`, `result` and `phase` agree (R35, R162), a successful pass has consumed its whole stream (R158), and a
failed one records a kind that is an error and the failing instruction's start, with 1 to 5 bytes of that
instruction consumed (R236, R239). -/
def State.agrees (s : State) : Prop :=
  match s.phase with
  | .pIdle => s.status = .idle ∧ s.result = none
  | .pOk => s.status = .doneOk ∧ s.result = some .ok ∧ s.pc = s.len
  | .pErr =>
    s.status = .doneErr ∧ (∃ k, k ≠ .endOfInputAtBoundary ∧ s.result = some (.err k s.insnStart)) ∧
      s.insnStart + 1 ≤ s.pc ∧ s.pc ≤ s.insnStart + 5
  | .pHdr | .pB0 | .pB1 | .pDlo | .pDhi | .pIlo | .pIhi | .pEmit => s.status = .run ∧ s.result = none

/-- The displacement bytes of the instruction the latches hold (R37, R101). -/
def State.latchedDisp (s : State) : Nat := if hasSecondByte s.cls then dispLen s.mod s.rm else 0

/-- The opcode bytes of the instruction the latches hold. -/
def State.latchedOpcode (s : State) : Nat := if hasSecondByte s.cls then 2 else 1

/-- Between two reads of one instruction the latches fit the phase, and the cursor has moved past exactly the
bytes read (R162). -/
def State.fits (s : State) : Prop :=
  match s.phase with
  | .pB1 => hasSecondByte s.cls ∧ s.pc = s.insnStart + 1
  | .pDlo =>
    hasSecondByte s.cls ∧ s.latchedDisp ≠ 0 ∧ s.pc = s.insnStart + 2
  | .pDhi => hasSecondByte s.cls ∧ s.latchedDisp = 2 ∧ s.pc = s.insnStart + 3
  | .pIlo =>
    (s.cls = .immReg ∨ s.cls = .immRm) ∧ s.pc = s.insnStart + s.latchedOpcode + s.latchedDisp
  | .pIhi =>
    (s.cls = .immReg ∨ s.cls = .immRm) ∧ s.w = true ∧ s.pc = s.insnStart + s.latchedOpcode + s.latchedDisp + 1
  | .pEmit => s.cls ≠ .unrec
  | .pIdle | .pHdr | .pB0 | .pOk | .pErr => True

/-- The invariant of the machine. -/
def State.Inv (s : State) : Prop :=
  s.stream.wf = true ∧ s.pc ≤ s.len ∧ s.attached ∧ s.agrees ∧ s.fits

/-! ### Outcomes of an iteration -/

/-- From `s` at an instruction boundary to `t`: an instruction of `n` bytes was decoded, its line was written, and
the pass goes on (R153, R156). -/
def State.Decodes (s t : State) (n : Nat) (line : Text) : Prop :=
  t.pc = s.pc + n ∧ t.insnStart = s.pc ∧ t.text = s.text ++ line ++ [newline] ∧ t.phase = .pB0 ∧
    t.status = s.status ∧ t.result = s.result ∧ t.diag = s.diag

/-- From `s` to `t` one structured record was presented (R52). -/
def State.Presents (s t : State) (record : InsnRecord) : Prop := t.records = s.records ++ [record]

/-- From `s` at an instruction boundary to `t`: the pass ended in `Err(k, insn_start)` with `n` bytes of the failing
instruction consumed; nothing was written or logged (R159, R236, R239). -/
def State.Raises (s t : State) (k : ErrorKind) (n : Nat) : Prop :=
  t.pc = s.pc + n ∧ t.insnStart = s.pc ∧ t.result = some (.err k s.pc) ∧ t.status = .doneErr ∧
    t.phase = .pErr ∧ t.text = s.text ∧ t.diag = s.diag

/-- Everything a caller or a later iteration can see of two states is the same: they differ at most in the latches
of R37 other than `phase`. -/
def State.SameButLatches (s t : State) : Prop :=
  { s with b0 := t.b0, cls := t.cls, w := t.w, d := t.d, b1 := t.b1, mod := t.mod, reg := t.reg, rm := t.rm,
           disp := t.disp, imm := t.imm } = t

/-! ### Counting reads (R157) -/

/-- Does the next transaction of the state machine issue a `Next()` (R161). -/
def State.reads (s : State) : Bool :=
  match s.phase with
  | .pB0 | .pB1 | .pDlo | .pDhi | .pIlo | .pIhi => true
  | .pIdle | .pHdr | .pEmit | .pOk | .pErr => false

/-- How many of the first `n` transactions issue a `Next()`. -/
def readsIn : Nat → State → Nat
  | 0, _ => 0
  | n + 1, s =>
    (if s.reads then 1 else 0) +
      match tick s with
      | .next t => readsIn n t
      | .fault _ => 0
      | .refused _ => 0

/-! ### Output text (R15, R16, R107) -/

/-- The number a string of decimal digits denotes. -/
def decValue (t : Text) : Nat := t.foldl (fun n c => 10 * n + (c.toNat - 48)) 0

/-- An ASCII digit, U+0030 to U+0039 (R15). -/
def isDigit (c : Char) : Bool := 48 ≤ c.toNat && c.toNat ≤ 57

/-- The nonterminal `decimal` of R107. -/
def isDecimal (t : Text) : Prop := t = "0".toList ∨ (t ≠ [] ∧ t.head? ≠ some '0' ∧ t.all isDigit = true)

/-- The terminals of the nonterminal `register` of R107. -/
def registerTexts : List Text :=
  ["al".toList, "cl".toList, "dl".toList, "bl".toList, "ah".toList, "ch".toList, "dh".toList, "bh".toList] ++
  ["ax".toList, "cx".toList, "dx".toList, "bx".toList, "sp".toList, "bp".toList, "si".toList, "di".toList]

/-- The terminals of the nonterminal `fragment` of R107. -/
def fragmentTexts : List Text :=
  ["bx + si".toList, "bx + di".toList, "bp + si".toList, "bp + di".toList] ++
  ["si".toList, "di".toList, "bp".toList, "bx".toList]

/-- The nonterminal `memory` of R107; its last alternative is for `DIRECT_POLICY = DIRECT16` only. -/
def isMemory (p : DirectPolicy) (t : Text) : Prop :=
  (∃ f ∈ fragmentTexts, t = "[".toList ++ f ++ "]".toList) ∨
  (∃ f ∈ fragmentTexts, ∃ n, isDecimal n ∧ t = "[".toList ++ f ++ " + ".toList ++ n ++ "]".toList) ∨
  (p = .direct16 ∧ ∃ n, isDecimal n ∧ t = "[".toList ++ n ++ "]".toList)

/-- The nonterminal `line` of R107 without its newline; at most one operand is a memory operand. -/
def isLine (p : DirectPolicy) (t : Text) : Prop :=
  ∃ dest src, t = "mov ".toList ++ dest ++ ", ".toList ++ src ∧
    ((dest ∈ registerTexts ∧ (src ∈ registerTexts ∨ isMemory p src ∨ isDecimal src)) ∨
     (isMemory p dest ∧ (src ∈ registerTexts ∨ isDecimal src)))

/-- The characters the block writes (R16). -/
def outputChar (c : Char) : Bool :=
  (97 ≤ c.toNat && c.toNat ≤ 122) || isDigit c || c == ' ' || c == ',' || c == '+' || c == '[' || c == ']' ||
    c == newline

/-- A two-operand line with the operand of `reg` and the operand of `rm`, in the order `d` asks for: "bit set → reg
field is destination; bit clear → reg field is source" (R188). -/
def moveText (d : Bit) (regOp rmOp : Text) : Text :=
  if d then "mov ".toList ++ regOp ++ ", ".toList ++ rmOp else "mov ".toList ++ rmOp ++ ", ".toList ++ regOp

/-- A line of the immediate forms (R156). -/
def immText (dest : Text) (imm : Nat) : Text := "mov ".toList ++ dest ++ ", ".toList ++ dec imm

/-- A memory operand over a fragment: a zero displacement is omitted (R187). -/
def memoryText (f : Text) (disp : Nat) : Text :=
  if disp = 0 then "[".toList ++ f ++ "]".toList else "[".toList ++ f ++ " + ".toList ++ dec disp ++ "]".toList

/-- A memory operand at a constant address, zero included (R183). -/
def directText (address : Nat) : Text := "[".toList ++ dec address ++ "]".toList

/-! ### A whole instruction -/

/-- The line of an instruction with its operands (R156). -/
def wholeLine (i : Instr) (o : Operands) : Text :=
  match i with
  | .movRmRegRr d w reg rm => rmRegLine d w 3#2 reg rm o.disp
  | .movRmRegDirect d w reg => rmRegLine d w 0#2 reg Sel3.direct o.disp
  | .movRmRegM0 d w reg rm => rmRegLine d w 0#2 reg rm o.disp
  | .movRmRegM8 d w reg rm => rmRegLine d w 1#2 reg rm o.disp
  | .movRmRegM16 d w reg rm => rmRegLine d w 2#2 reg rm o.disp
  | .movRegImmB reg => immRegLine false reg o.imm
  | .movRegImmW reg => immRegLine true reg o.imm
  | .movRmImmRrB _ rm => immRmLine false 3#2 rm o.disp o.imm
  | .movRmImmRrW _ rm => immRmLine true 3#2 rm o.disp o.imm
  | .movRmImmDirectB _ => immRmLine false 0#2 Sel3.direct o.disp o.imm
  | .movRmImmDirectW _ => immRmLine true 0#2 Sel3.direct o.disp o.imm
  | .movRmImmM0B _ rm => immRmLine false 0#2 rm o.disp o.imm
  | .movRmImmM0W _ rm => immRmLine true 0#2 rm o.disp o.imm
  | .movRmImmM8B _ rm => immRmLine false 1#2 rm o.disp o.imm
  | .movRmImmM8W _ rm => immRmLine true 1#2 rm o.disp o.imm
  | .movRmImmM16B _ rm => immRmLine false 2#2 rm o.disp o.imm
  | .movRmImmM16W _ rm => immRmLine true 2#2 rm o.disp o.imm

/-- The structured record of an instruction with its operands (R52). -/
def wholeRecord (i : Instr) (o : Operands) : InsnRecord :=
  match i with
  | .movRmRegRr d w reg rm => rmRegRecord d w 3#2 reg rm o.disp (Instr.length (.movRmRegRr d w reg rm))
  | .movRmRegDirect d w reg => rmRegRecord d w 0#2 reg Sel3.direct o.disp (Instr.length (.movRmRegDirect d w reg))
  | .movRmRegM0 d w reg rm => rmRegRecord d w 0#2 reg rm o.disp (Instr.length (.movRmRegM0 d w reg rm))
  | .movRmRegM8 d w reg rm => rmRegRecord d w 1#2 reg rm o.disp (Instr.length (.movRmRegM8 d w reg rm))
  | .movRmRegM16 d w reg rm => rmRegRecord d w 2#2 reg rm o.disp (Instr.length (.movRmRegM16 d w reg rm))
  | .movRegImmB reg => immRegRecord false reg o.imm (Instr.length (.movRegImmB reg))
  | .movRegImmW reg => immRegRecord true reg o.imm (Instr.length (.movRegImmW reg))
  | .movRmImmRrB x rm => immRmRecord false 3#2 rm o.disp o.imm (Instr.length (.movRmImmRrB x rm))
  | .movRmImmRrW x rm => immRmRecord true 3#2 rm o.disp o.imm (Instr.length (.movRmImmRrW x rm))
  | .movRmImmDirectB x => immRmRecord false 0#2 Sel3.direct o.disp o.imm (Instr.length (.movRmImmDirectB x))
  | .movRmImmDirectW x => immRmRecord true 0#2 Sel3.direct o.disp o.imm (Instr.length (.movRmImmDirectW x))
  | .movRmImmM0B x rm => immRmRecord false 0#2 rm o.disp o.imm (Instr.length (.movRmImmM0B x rm))
  | .movRmImmM0W x rm => immRmRecord true 0#2 rm o.disp o.imm (Instr.length (.movRmImmM0W x rm))
  | .movRmImmM8B x rm => immRmRecord false 1#2 rm o.disp o.imm (Instr.length (.movRmImmM8B x rm))
  | .movRmImmM8W x rm => immRmRecord true 1#2 rm o.disp o.imm (Instr.length (.movRmImmM8W x rm))
  | .movRmImmM16B x rm => immRmRecord false 2#2 rm o.disp o.imm (Instr.length (.movRmImmM16B x rm))
  | .movRmImmM16W x rm => immRmRecord true 2#2 rm o.disp o.imm (Instr.length (.movRmImmM16W x rm))

/-- Do the policies of `s` let the instruction decode (R183, R189). -/
def State.accepts (s : State) (i : Instr) : Prop :=
  (i.isRmRegMemory = true → s.modPolicy = .full) ∧ (i.isDirect = true → s.directPolicy = .direct16)

/-- One element of a stream that decodes without error: an instruction with its operands, or an unrecognised
byte, which only the lenient policy passes over (R154, R158). -/
inductive Item where
  | insn (i : Instr) (o : Operands)
  | skip (b : Byte)
deriving DecidableEq, Repr

/-- The bytes of an item. -/
def Item.bytes : Item → List Byte
  | .insn i o => encodeWhole i o
  | .skip b => [b]

/-- Does the item decode without error under the policies of `s`. -/
def Item.ok (s : State) : Item → Prop
  | .insn i o => i.wellFormed = true ∧ o.fit i = true ∧ s.accepts i
  | .skip b => classOf b = .unrec ∧ s.unrecPolicy = .lenient

/-- What the item adds to the sink: an instruction's line and a newline, a skipped byte nothing. -/
def Item.text : Item → Text
  | .insn i o => wholeLine i o ++ [newline]
  | .skip _ => []

/-- What the item adds to the presented records. -/
def Item.presented : Item → List InsnRecord
  | .insn i o => [wholeRecord i o]
  | .skip _ => []

/-- What the item adds to the diagnostic log at position `a`. -/
def Item.logged (a : Nat) : Item → List DiagRecord
  | .insn _ _ => []
  | .skip b => [⟨.unrecognizedOpcode, a, b⟩]

/-- The diagnostic log of a sequence of items that begins at position `a`. -/
def loggedFrom : Nat → List Item → List DiagRecord
  | _, [] => []
  | a, x :: xs => x.logged a ++ loggedFrom (a + x.bytes.length) xs

end Sys2Proof.Machine
end

