-- ==== Sys2Proof/Certificates/Slice0/Obligations.lean ====
section
/-! DEFINITION. The statements for the provers. Where a docstring says "the spec's own choice", the clause rests on a
decision the spec marks as its own ([decision: see 92_eei_decisions.md D<n>]), on a fact it marks as general
knowledge, or on a choice of the model named by its log entry. -/

open Sys2Proof Sys2Proof.Machine

/-! ### Encoding -/

/-- The opcode map by leading byte (30_encoding.md section 3; the pattern of `IMM_RM` is the spec's own choice D17). -/
def Obligations.MatcherMapOfLeadingBytes : Prop :=
  ∀ b : Byte, classOf b =
    if 0x88#8 ≤ b ∧ b ≤ 0x8b#8 then .rmReg
    else if 0xb0#8 ≤ b ∧ b ≤ 0xbf#8 then .immReg
    else if b = 0xc6#8 ∨ b = 0xc7#8 then .immRm
    else .unrec

/-- Words written out bit by bit from the encodings decode to the rows they stand for. The third and fifth words rest on
the addressing-mode values (30_encoding.md section 2, D16 for the value 2), the fifth also on the pattern of `IMM_RM`
that the spec takes from general knowledge (D17, log entry 11). -/
def Obligations.WrittenOutWordsDecode : Prop :=
  decode [0b10001001#8, 0b11011001#8] = .insn (.movRmRegRr false true 3 1) [] ∧
  decode [0b10001011#8, 0b00101110#8, 0x0d#8, 0x0d#8] = .insn (.movRmRegDirect true true 5) [0x0d#8, 0x0d#8] ∧
  decode [0b10001010#8, 0b01100000#8, 0x04#8] = .insn (.movRmRegM8 true false 4 0) [0x04#8] ∧
  decode [0b10110001#8, 0x0c#8] = .insn (.movRegImmB 1) [0x0c#8] ∧
  decode [0b11000111#8, 0b10000101#8] = .insn (.movRmImmM16W 0 5) []

/-- Decoding an encoded well-formed instruction gives it back, with every field at every value and whatever bytes
follow (30_encoding.md sections 1 and 3). -/
def Obligations.DecodeOfEncodeIsTheInstruction : Prop :=
  ∀ (i : Instr) (rest : List Byte), i.wellFormed = true → decode (encode i ++ rest) = .insn i rest

/-- What the decoder reads is well formed, and encoding it gives back the bytes it was read from: no bit of `b0` or
`b1` is dropped. -/
def Obligations.EncodeOfDecodeIsTheBytes : Prop :=
  ∀ (bytes rest : List Byte) (i : Instr),
    decode bytes = .insn i rest → i.wellFormed = true ∧ encode i ++ rest = bytes

/-- The row read is the first of the opcode table whose test holds, and a byte no row's test admits is rejected
(INDEX.md "How to read opcode_table.json"). -/
def Obligations.DecoderTakesTheFirstTableRow : Prop :=
  ∀ (b0 b1 : Byte) (rest : List Byte),
    match decode (b0 :: b1 :: rest) with
    | .insn i _ => opcodeTable.findIdx? (fun r => r.holds b0 b1) = some i.tableIndex
    | .reject _ => opcodeTable.findIdx? (fun r => r.holds b0 b1) = none

/-- One step decodes a whole instruction of any row with any operands that fit its bytes: the line and the record
are those of the instruction that was encoded, and the cursor stands behind its last byte. The records are the
spec's own choice D28 in the form of log entry 7. -/
def Obligations.WholeInstructionIsDecodedByOneStep : Prop :=
  ∀ (i : Instr) (o : Operands) (pre post : List Byte) (s : State),
    i.wellFormed = true → o.fit i = true → s.accepts i → s.phase = .pB0 →
    s.src = some (Memory.ofBytes (pre ++ encodeWhole i o ++ post)) → s.pc = pre.length →
    ∃ t, step s = .next t ∧ s.Decodes t i.length (wholeLine i o) ∧ s.Presents t (wholeRecord i o)

/-! ### Numbers and names -/

/-- `dec(n)`: the decimal digits of `n`, most significant first, with no leading zero (R15). -/
def Obligations.DecimalTextIsCanonical : Prop :=
  ∀ n : Nat, decValue (dec n) = n ∧ (dec n).all isDigit = true ∧
    (n = 0 → dec n = "0".toList) ∧ (n ≠ 0 → (dec n).head? ≠ some '0') ∧ dec n ≠ []

/-- The laws of the register tables (R133): total by their type, 8 entries of two names, distinct, non-empty. -/
def Obligations.RegisterTablesObeyTheirLaws : Prop :=
  (∀ (w v : Bit) (i j : Sel3), regName w i = regName v j → w = v ∧ i = j) ∧
  (∀ (w : Bit) (i : Sel3), (regName w i).length = 2 ∧ ∀ c ∈ regName w i, 97 ≤ c.toNat ∧ c.toNat ≤ 122) ∧
  regName false 1 = "cl".toList ∧ regName false 4 = "ah".toList ∧ regName true 1 = "cx".toList ∧
  regName true 2 = "dx".toList ∧ regName true 3 = "bx".toList

/-- Every entry of the three tables at its selector (40_operand_tables.md sections 1 and 2), and that a fragment is no
other's text. Eleven of the names and six of the fragments are the spec's general knowledge (D18, G3, G4, log
entry 11). -/
def Obligations.OperandTableEntries : Prop :=
  [0#3, 1#3, 2#3, 3#3, 4#3, 5#3, 6#3, 7#3].map (regName false) =
    ["al", "cl", "dl", "bl", "ah", "ch", "dh", "bh"].map String.toList ∧
  [0#3, 1#3, 2#3, 3#3, 4#3, 5#3, 6#3, 7#3].map (regName true) =
    ["ax", "cx", "dx", "bx", "sp", "bp", "si", "di"].map String.toList ∧
  [0#3, 1#3, 2#3, 3#3, 4#3, 5#3, 6#3, 7#3].map fragment =
    ["bx + si", "bx + di", "bp + si", "bp + di", "si", "di", "bp", "bx"].map String.toList ∧
  ∀ i j : Sel3, fragment i = fragment j → i = j

/-- The rendering of the `rm` operand (R187), line by line. -/
def Obligations.RmTextRendersTheOperand : Prop :=
  ∀ (w : Bit) (mod : Mode2) (rm : Sel3) (disp : Word),
    (mod = 3#2 → rmText w mod rm disp = regName w rm) ∧
    (mod = 0#2 → rm = 6#3 → rmText w mod rm disp = "[".toList ++ dec disp.toNat ++ "]".toList) ∧
    (mod = 0#2 → rm ≠ 6#3 → rmText w mod rm disp = "[".toList ++ fragment rm ++ "]".toList) ∧
    (mod = 1#2 ∨ mod = 2#2 → disp = 0#16 → rmText w mod rm disp = "[".toList ++ fragment rm ++ "]".toList) ∧
    (mod = 1#2 ∨ mod = 2#2 → disp ≠ 0#16 →
      rmText w mod rm disp = "[".toList ++ fragment rm ++ " + ".toList ++ dec disp.toNat ++ "]".toList)

/-! ### The rows of class RM_REG -/

/-- Row `mov_rm_reg.rr` (R181). -/
def Obligations.RmRegRegisterDirect : Prop :=
  ∀ (d w : Bit) (reg rm : Sel3) (s : State),
    (∀ rest, decode ((0b100010#6 ++ BitVec.ofBool d ++ BitVec.ofBool w) :: (0b11#2 ++ reg ++ rm) :: rest) =
      .insn (.movRmRegRr d w reg rm) rest) ∧
    (∃ t, exec (.movRmRegRr d w reg rm) s = .next t ∧
      s.Decodes t 2 (moveText d (regName w reg) (regName w rm))) ∧
    (s.phase = .pB0 → s.stream.window s.pc 2 = [0b100010#6 ++ BitVec.ofBool d ++ BitVec.ofBool w] →
      ∃ t, step s = .next t ∧ s.Raises t .endOfInputMidInstruction 1) ∧
    (∃ t u, exec (.movRmRegRr d w reg rm) s = .next t ∧ exec (.movRmRegRr (!d) w rm reg) s = .next u ∧
      t.text = u.text)

/-- Row `mov_rm_reg.m0` (R182). -/
def Obligations.RmRegMemoryNoDisplacement : Prop :=
  ∀ (d w : Bit) (reg rm : Sel3) (s : State), rm ≠ 6#3 →
    (∀ rest, decode ((0b100010#6 ++ BitVec.ofBool d ++ BitVec.ofBool w) :: (0b00#2 ++ reg ++ rm) :: rest) =
      .insn (.movRmRegM0 d w reg rm) rest) ∧
    (s.modPolicy = .full → ∃ t, exec (.movRmRegM0 d w reg rm) s = .next t ∧
      s.Decodes t 2 (moveText d (regName w reg) (memoryText (fragment rm) 0))) ∧
    (s.modPolicy = .regOnly → ∃ t, exec (.movRmRegM0 d w reg rm) s = .next t ∧
      s.Raises t .malformedSecondByte 2) ∧
    (s.phase = .pB0 → s.stream.window s.pc 2 = [0b100010#6 ++ BitVec.ofBool d ++ BitVec.ofBool w] →
      ∃ t, step s = .next t ∧ s.Raises t .endOfInputMidInstruction 1) ∧
    (s.modPolicy = .full → s.stream.memRead (s.pc + 2) 1 = some 0#16 →
      ∃ t u, exec (.movRmRegM0 d w reg rm) s = .next t ∧ exec (.movRmRegM8 d w reg rm) s = .next u ∧
        t.text = u.text) ∧
    (s.modPolicy = .full → s.stream.memRead (s.pc + 2) 2 = some 0#16 →
      ∃ t u, exec (.movRmRegM0 d w reg rm) s = .next t ∧ exec (.movRmRegM16 d w reg rm) s = .next u ∧
        t.text = u.text)

/-- Row `mov_rm_reg.direct` (42_mov_regmem_reg.md section 3, 60_exceptions.md section 3). That the special case fails
under `FAIL` and its text under `DIRECT16` are the spec's own choice D4, D12, D26. -/
def Obligations.RmRegDirectAddress : Prop :=
  ∀ (d w : Bit) (reg : Sel3) (s : State),
    (∀ rest, decode ((0b100010#6 ++ BitVec.ofBool d ++ BitVec.ofBool w) :: (0b00#2 ++ reg ++ 0b110#3) :: rest) =
      .insn (.movRmRegDirect d w reg) rest) ∧
    (∀ a, s.modPolicy = .full → s.directPolicy = .direct16 → s.stream.memRead (s.pc + 2) 2 = some a →
      ∃ t, exec (.movRmRegDirect d w reg) s = .next t ∧
        s.Decodes t 4 (moveText d (regName w reg) (directText a.toNat))) ∧
    (s.modPolicy = .full → s.directPolicy = .fail →
      ∃ t, exec (.movRmRegDirect d w reg) s = .next t ∧ s.Raises t .directAddressUnimplemented 2) ∧
    (s.modPolicy = .regOnly →
      ∃ t, exec (.movRmRegDirect d w reg) s = .next t ∧ s.Raises t .malformedSecondByte 2) ∧
    (∀ n, n < 2 → s.modPolicy = .full → s.directPolicy = .direct16 → (s.stream.window (s.pc + 2) 2).length = n →
      ∃ t, exec (.movRmRegDirect d w reg) s = .next t ∧ s.Raises t .endOfInputMidInstruction (2 + n))

/-- Row `mov_rm_reg.m8` (R184). -/
def Obligations.RmRegMemoryDisplacement8 : Prop :=
  ∀ (d w : Bit) (reg rm : Sel3) (s : State),
    (∀ rest, decode ((0b100010#6 ++ BitVec.ofBool d ++ BitVec.ofBool w) :: (0b01#2 ++ reg ++ rm) :: rest) =
      .insn (.movRmRegM8 d w reg rm) rest) ∧
    (∀ b, s.modPolicy = .full → s.stream.read (s.pc + 2) = some b →
      ∃ t, exec (.movRmRegM8 d w reg rm) s = .next t ∧
        s.Decodes t 3 (moveText d (regName w reg) (memoryText (fragment rm) b.toNat))) ∧
    (s.modPolicy = .full → s.stream.read (s.pc + 2) = none →
      ∃ t, exec (.movRmRegM8 d w reg rm) s = .next t ∧ s.Raises t .endOfInputMidInstruction 2) ∧
    (s.modPolicy = .regOnly →
      ∃ t, exec (.movRmRegM8 d w reg rm) s = .next t ∧ s.Raises t .malformedSecondByte 2) ∧
    (s.phase = .pB0 → s.stream.window s.pc 2 = [0b100010#6 ++ BitVec.ofBool d ++ BitVec.ofBool w] →
      ∃ t, step s = .next t ∧ s.Raises t .endOfInputMidInstruction 1)

/-- Row `mov_rm_reg.m16` (R185). -/
def Obligations.RmRegMemoryDisplacement16 : Prop :=
  ∀ (d w : Bit) (reg rm : Sel3) (s : State),
    (∀ rest, decode ((0b100010#6 ++ BitVec.ofBool d ++ BitVec.ofBool w) :: (0b10#2 ++ reg ++ rm) :: rest) =
      .insn (.movRmRegM16 d w reg rm) rest) ∧
    (∀ lo hi : Byte, s.modPolicy = .full → s.stream.window (s.pc + 2) 2 = [lo, hi] →
      ∃ t, exec (.movRmRegM16 d w reg rm) s = .next t ∧
        s.Decodes t 4 (moveText d (regName w reg) (memoryText (fragment rm) (lo.toNat + 256 * hi.toNat)))) ∧
    (∀ n, n < 2 → s.modPolicy = .full → (s.stream.window (s.pc + 2) 2).length = n →
      ∃ t, exec (.movRmRegM16 d w reg rm) s = .next t ∧ s.Raises t .endOfInputMidInstruction (2 + n)) ∧
    (s.modPolicy = .regOnly →
      ∃ t, exec (.movRmRegM16 d w reg rm) s = .next t ∧ s.Raises t .malformedSecondByte 2) ∧
    (s.phase = .pB0 → s.stream.window s.pc 2 = [0b100010#6 ++ BitVec.ofBool d ++ BitVec.ofBool w] →
      ∃ t, step s = .next t ∧ s.Raises t .endOfInputMidInstruction 1)

/-- The direction bit (R188), for every row of class `RM_REG` in the state `s`: the same bytes are read and the same
error arises or none. Where the instruction is decoded the line has the operand of `reg` first exactly when `d = 1`,
and apart from the line, the record and the latches `b0` and `d` nothing depends on the bit. Where it fails nothing is
written, and the two outcomes differ at most in latches (which R239 says are not to be read). -/
def Obligations.DirectionBitOrdersTheOperands : Prop :=
  ∀ (w : Bit) (reg rm : Sel3) (row : Bit → Instr) (s : State),
    (row = (fun d => .movRmRegRr d w reg rm) ∨ row = (fun d => .movRmRegDirect d w reg) ∨
      row = (fun d => .movRmRegM0 d w reg rm) ∨ row = (fun d => .movRmRegM8 d w reg rm) ∨
      row = (fun d => .movRmRegM16 d w reg rm)) →
    ∃ t u, exec (row true) s = .next t ∧ exec (row false) s = .next u ∧ t.pc = u.pc ∧ t.phase = u.phase ∧
      (t.phase = .pB0 → u = { t with b0 := u.b0, d := u.d, sink := u.sink, records := u.records } ∧ ∃ m : Text,
        t.text = s.text ++ ("mov ".toList ++ regName w reg ++ ", ".toList ++ m) ++ [newline] ∧
        u.text = s.text ++ ("mov ".toList ++ m ++ ", ".toList ++ regName w reg) ++ [newline]) ∧
      (t.phase ≠ .pB0 → t.SameButLatches u ∧ t.result = u.result ∧ t.text = s.text ∧ u.text = s.text)

/-! ### The rows of class IMM_REG -/

/-- Row `mov_reg_imm.b` (R201). -/
def Obligations.ImmediateToByteRegister : Prop :=
  ∀ (reg : Sel3) (s : State),
    (∀ rest, decode ((0b10110#5 ++ reg) :: rest) = .insn (.movRegImmB reg) rest) ∧
    (∀ b, s.stream.read (s.pc + 1) = some b →
      ∃ t, exec (.movRegImmB reg) s = .next t ∧
        s.Decodes t 2 (immText (reg8 reg) b.toNat)) ∧
    (s.stream.read (s.pc + 1) = none →
      ∃ t, exec (.movRegImmB reg) s = .next t ∧ s.Raises t .endOfInputMidInstruction 1)

/-- Row `mov_reg_imm.w` (R202). -/
def Obligations.ImmediateToWordRegister : Prop :=
  ∀ (reg : Sel3) (s : State),
    (∀ rest, decode ((0b10111#5 ++ reg) :: rest) = .insn (.movRegImmW reg) rest) ∧
    (∀ lo hi : Byte, s.stream.window (s.pc + 1) 2 = [lo, hi] →
      ∃ t, exec (.movRegImmW reg) s = .next t ∧
        s.Decodes t 3 (immText (reg16 reg) (lo.toNat + 256 * hi.toNat))) ∧
    (∀ n, n < 2 → (s.stream.window (s.pc + 1) 2).length = n →
      ∃ t, exec (.movRegImmW reg) s = .next t ∧ s.Raises t .endOfInputMidInstruction (1 + n))

/-! ### The rows of class IMM_RM (44_mov_imm_regmem.md section 2; decoding the class in full and the order of its
bytes are the spec's own choice D13, its pattern D17, the missing size keyword D15) -/

/-- Rows `mov_rm_imm.rr.b` and `mov_rm_imm.rr.w`: the immediate is one byte or two by `w`. -/
def Obligations.ImmediateThroughRmToRegister : Prop :=
  ∀ (x rm : Sel3) (s : State),
    (∀ rest, decode (0b11000110#8 :: (0b11#2 ++ x ++ rm) :: rest) = .insn (.movRmImmRrB x rm) rest) ∧
    (∀ rest, decode (0b11000111#8 :: (0b11#2 ++ x ++ rm) :: rest) = .insn (.movRmImmRrW x rm) rest) ∧
    (∀ b, s.stream.read (s.pc + 2) = some b →
      ∃ t, exec (.movRmImmRrB x rm) s = .next t ∧
        s.Decodes t 3 (immText (reg8 rm) b.toNat)) ∧
    (∀ lo hi : Byte, s.stream.window (s.pc + 2) 2 = [lo, hi] →
      ∃ t, exec (.movRmImmRrW x rm) s = .next t ∧
        s.Decodes t 4 (immText (reg16 rm) (lo.toNat + 256 * hi.toNat)))

/-- Rows `mov_rm_imm.direct.b` and `mov_rm_imm.direct.w`; the special case is the spec's own choice D4. -/
def Obligations.ImmediateToDirectAddress : Prop :=
  ∀ (x : Sel3) (s : State),
    (∀ rest, decode (0b11000110#8 :: (0b00#2 ++ x ++ 0b110#3) :: rest) = .insn (.movRmImmDirectB x) rest) ∧
    (∀ rest, decode (0b11000111#8 :: (0b00#2 ++ x ++ 0b110#3) :: rest) = .insn (.movRmImmDirectW x) rest) ∧
    (∀ lo hi b : Byte, s.directPolicy = .direct16 → s.stream.window (s.pc + 2) 3 = [lo, hi, b] →
      ∃ t, exec (.movRmImmDirectB x) s = .next t ∧
        s.Decodes t 5 (immText (directText (lo.toNat + 256 * hi.toNat)) b.toNat)) ∧
    (∀ lo hi ilo ihi : Byte, s.directPolicy = .direct16 → s.stream.window (s.pc + 2) 4 = [lo, hi, ilo, ihi] →
      ∃ t, exec (.movRmImmDirectW x) s = .next t ∧
        s.Decodes t 6 (immText (directText (lo.toNat + 256 * hi.toNat)) (ilo.toNat + 256 * ihi.toNat))) ∧
    (s.directPolicy = .fail →
      ∃ t u, exec (.movRmImmDirectB x) s = .next t ∧ s.Raises t .directAddressUnimplemented 2 ∧
        exec (.movRmImmDirectW x) s = .next u ∧ s.Raises u .directAddressUnimplemented 2)

/-- Rows `mov_rm_imm.m0.b` and `mov_rm_imm.m0.w`. -/
def Obligations.ImmediateToMemoryNoDisplacement : Prop :=
  ∀ (x rm : Sel3) (s : State), rm ≠ 6#3 →
    (∀ rest, decode (0b11000110#8 :: (0b00#2 ++ x ++ rm) :: rest) = .insn (.movRmImmM0B x rm) rest) ∧
    (∀ rest, decode (0b11000111#8 :: (0b00#2 ++ x ++ rm) :: rest) = .insn (.movRmImmM0W x rm) rest) ∧
    (∀ b, s.stream.read (s.pc + 2) = some b →
      ∃ t, exec (.movRmImmM0B x rm) s = .next t ∧
        s.Decodes t 3 (immText (memoryText (fragment rm) 0) b.toNat)) ∧
    (∀ lo hi : Byte, s.stream.window (s.pc + 2) 2 = [lo, hi] →
      ∃ t, exec (.movRmImmM0W x rm) s = .next t ∧
        s.Decodes t 4 (immText (memoryText (fragment rm) 0) (lo.toNat + 256 * hi.toNat)))

/-- Rows `mov_rm_imm.m8.b` and `mov_rm_imm.m8.w`: one displacement byte, then one immediate byte or two. -/
def Obligations.ImmediateToMemoryDisplacement8 : Prop :=
  ∀ (x rm : Sel3) (s : State),
    (∀ rest, decode (0b11000110#8 :: (0b01#2 ++ x ++ rm) :: rest) = .insn (.movRmImmM8B x rm) rest) ∧
    (∀ rest, decode (0b11000111#8 :: (0b01#2 ++ x ++ rm) :: rest) = .insn (.movRmImmM8W x rm) rest) ∧
    (∀ disp b : Byte, s.stream.window (s.pc + 2) 2 = [disp, b] →
      ∃ t, exec (.movRmImmM8B x rm) s = .next t ∧
        s.Decodes t 4 (immText (memoryText (fragment rm) disp.toNat) b.toNat)) ∧
    (∀ disp lo hi : Byte, s.stream.window (s.pc + 2) 3 = [disp, lo, hi] →
      ∃ t, exec (.movRmImmM8W x rm) s = .next t ∧
        s.Decodes t 5 (immText (memoryText (fragment rm) disp.toNat) (lo.toNat + 256 * hi.toNat)))

/-- Rows `mov_rm_imm.m16.b` and `mov_rm_imm.m16.w`: two displacement bytes, then one immediate byte or two. -/
def Obligations.ImmediateToMemoryDisplacement16 : Prop :=
  ∀ (x rm : Sel3) (s : State),
    (∀ rest, decode (0b11000110#8 :: (0b10#2 ++ x ++ rm) :: rest) = .insn (.movRmImmM16B x rm) rest) ∧
    (∀ rest, decode (0b11000111#8 :: (0b10#2 ++ x ++ rm) :: rest) = .insn (.movRmImmM16W x rm) rest) ∧
    (∀ dlo dhi b : Byte, s.stream.window (s.pc + 2) 3 = [dlo, dhi, b] →
      ∃ t, exec (.movRmImmM16B x rm) s = .next t ∧
        s.Decodes t 5 (immText (memoryText (fragment rm) (dlo.toNat + 256 * dhi.toNat)) b.toNat)) ∧
    (∀ dlo dhi lo hi : Byte, s.stream.window (s.pc + 2) 4 = [dlo, dhi, lo, hi] →
      ∃ t, exec (.movRmImmM16W x rm) s = .next t ∧
        s.Decodes t 6 (immText (memoryText (fragment rm) (dlo.toNat + 256 * dhi.toNat)) (lo.toNat + 256 * hi.toNat)))

/-- The middle field of `b1` in class `IMM_RM` is not examined: all eight values give the same outcome, in the ten
rows; only the latches `b1` and `reg` can differ (30_encoding.md section 6, 44_mov_imm_regmem.md section 1, the spec's
own choice D14). That `reg` is loaded with the field, after an error too, is 41_decode_pass.md section 3 (D5) as log
entry 9 reads it. -/
def Obligations.MiddleFieldOfImmRmIsIgnored : Prop :=
  ∀ (x y rm : Sel3) (row : Sel3 → Instr) (s : State),
    (row = (.movRmImmRrB · rm) ∨ row = (.movRmImmRrW · rm) ∨ row = Instr.movRmImmDirectB ∨
      row = Instr.movRmImmDirectW ∨ row = (.movRmImmM0B · rm) ∨ row = (.movRmImmM0W · rm) ∨
      row = (.movRmImmM8B · rm) ∨ row = (.movRmImmM8W · rm) ∨ row = (.movRmImmM16B · rm) ∨
      row = (.movRmImmM16W · rm)) →
    ∃ t u, exec (row x) s = .next t ∧ exec (row y) s = .next u ∧ u = { t with b1 := u.b1, reg := u.reg } ∧
      t.reg = x ∧ u.reg = y

/-! ### Displacements, immediates, lengths -/

/-- Displacement assembly over every row with a second opcode byte, by the mode the row's `b1` holds: one byte unsigned,
two bytes little-endian unsigned, or none (30_encoding.md section 4). That the latch holds 0 where there is none is
41_decode_pass.md section 3, the spec's own choice D5; the mode values 0 and 2 are its choice D16. The direct address
(`mod = 0`, `rm = 6`) has its own statements, `RmRegDirectAddress` and `ImmediateToDirectAddress`. -/
def Obligations.DisplacementIsUnsignedLittleEndian : Prop :=
  ∀ (i : Instr) (s t : State), i.wellFormed = true → hasSecondByte i.cls = true → exec i s = .next t → t.phase = .pB0 →
    (t.mod = 1#2 → ∃ b : Byte, s.stream.read (s.pc + 2) = some b ∧ t.disp.toNat = b.toNat) ∧
    (t.mod = 2#2 → ∃ lo hi : Byte, s.stream.read (s.pc + 2) = some lo ∧ s.stream.read (s.pc + 3) = some hi ∧
      t.disp.toNat = lo.toNat + 256 * hi.toNat) ∧
    (t.mod = 3#2 → t.disp = 0#16) ∧ (t.mod = 0#2 → t.rm ≠ 6#3 → t.disp = 0#16)

/-- Immediate assembly over every row that has an immediate, by the operand-size bit: the last byte or the last two
bytes of the instruction, unsigned, low byte first (30_encoding.md section 4). That the immediate of class `IMM_RM`
comes last, behind the displacement, is the spec's own choice D13 (log entry 11). -/
def Obligations.ImmediateIsUnsignedLittleEndian : Prop :=
  ∀ (i : Instr) (s t : State), i.cls ≠ .rmReg → exec i s = .next t → t.phase = .pB0 →
    (t.w = false → ∃ b : Byte, s.stream.read (t.pc - 1) = some b ∧ t.imm.toNat = b.toNat) ∧
    (t.w = true → ∃ lo hi : Byte, s.stream.read (t.pc - 2) = some lo ∧ s.stream.read (t.pc - 1) = some hi ∧
      t.imm.toNat = lo.toNat + 256 * hi.toNat)

/-- A decoded instruction's length is `Length` of its latched fields and policies, the cursor has moved by it, and
the record says it (30_encoding.md section 5; the record is the spec's own choice D28 in the form of log entry 7). -/
def Obligations.CursorMovesByTheLengthOfTheInstruction : Prop :=
  ∀ (i : Instr) (s t : State), i.wellFormed = true → exec i s = .next t → t.phase = .pB0 →
    insnLength s.directPolicy t.cls t.w t.mod t.rm = some (t.pc - s.pc) ∧ t.pc = s.pc + i.length ∧
    ∃ r, t.records = s.records ++ [r] ∧ r.length = i.length

/-- The record presented with a line holds the latches of the instruction, each component the class has, and its
length (10_state.md section 3; the record is the spec's own choice D28 in the form of log entry 7). -/
def Obligations.PresentedRecordHoldsTheLatches : Prop :=
  ∀ (i : Instr) (s t : State), exec i s = .next t → t.phase = .pB0 →
    (i.cls = .rmReg → s.Presents t
      ⟨.rmReg, t.w, some t.d, some t.mod, some t.reg, some t.rm, some t.disp, none, t.pc - s.pc⟩) ∧
    (i.cls = .immReg → s.Presents t ⟨.immReg, t.w, none, none, some t.reg, none, none, some t.imm, t.pc - s.pc⟩) ∧
    (i.cls = .immRm → s.Presents t
      ⟨.immRm, t.w, none, some t.mod, none, some t.rm, some t.disp, some t.imm, t.pc - s.pc⟩)

/-- The latches after an instruction of any row, whether it was decoded or failed after its opcode bytes, hold the
row's opcode bytes and fields (10_state.md section 3; when each is loaded is the spec's own choice D5 with log
entry 9). -/
def Obligations.LatchesHoldTheOpcodeFields : Prop :=
  ∀ (i : Instr) (s t : State), exec i s = .next t →
    (encode i).head? = some t.b0 ∧ t.cls = i.cls ∧ t.cls = classOf t.b0 ∧
    (hasSecondByte i.cls = true → (encode i)[1]? = some t.b1 ∧ t.w = sizeBit t.b0 ∧ t.mod = modField t.b1 ∧
      t.reg = midField t.b1 ∧ t.rm = lowField t.b1) ∧
    (i.cls = .rmReg → t.d = directionBit t.b0) ∧
    (i.cls = .immReg → t.w = immSizeBit t.b0 ∧ t.reg = lowField t.b0)

/-! ### Frames -/

/-- What the five rows of class `RM_REG` leave unchanged. Special registers are the policies, the request, the
diagnostic log; `status` and `result` change only on an error. -/
def Obligations.RmRegFrame : Prop :=
  ∀ (i : Instr) (s t : State), i.cls = .rmReg → exec i s = .next t →
    (∀ a, t.stream.read a = s.stream.read a) ∧ t.src = s.src ∧ t.diag = s.diag ∧ t.imm = s.imm ∧
    t.unrecPolicy = s.unrecPolicy ∧ t.modPolicy = s.modPolicy ∧ t.directPolicy = s.directPolicy ∧
    t.request = s.request ∧
    ((t.phase = .pB0 ∧ t.status = s.status ∧ t.result = s.result) ∨
      (t.phase = .pErr ∧ t.sink = s.sink ∧ t.records = s.records))

/-- What the two rows of class `IMM_REG` leave unchanged. That the latch `d` is left as it was is 41_decode_pass.md
section 3 as log entry 9 reads it. -/
def Obligations.ImmRegFrame : Prop :=
  ∀ (i : Instr) (s t : State), i.cls = .immReg → exec i s = .next t →
    (∀ a, t.stream.read a = s.stream.read a) ∧ t.src = s.src ∧ t.diag = s.diag ∧
    t.d = s.d ∧ t.b1 = s.b1 ∧ t.mod = s.mod ∧ t.rm = s.rm ∧ t.disp = s.disp ∧
    t.unrecPolicy = s.unrecPolicy ∧ t.modPolicy = s.modPolicy ∧ t.directPolicy = s.directPolicy ∧
    t.request = s.request ∧
    ((t.phase = .pB0 ∧ t.status = s.status ∧ t.result = s.result) ∨
      (t.phase = .pErr ∧ t.sink = s.sink ∧ t.records = s.records))

/-- What the ten rows of class `IMM_RM` leave unchanged. That the latch `d` is left as it was is 41_decode_pass.md
section 3 as log entry 9 reads it. -/
def Obligations.ImmRmFrame : Prop :=
  ∀ (i : Instr) (s t : State), i.cls = .immRm → exec i s = .next t →
    (∀ a, t.stream.read a = s.stream.read a) ∧ t.src = s.src ∧ t.diag = s.diag ∧ t.d = s.d ∧
    t.unrecPolicy = s.unrecPolicy ∧ t.modPolicy = s.modPolicy ∧ t.directPolicy = s.directPolicy ∧
    t.request = s.request ∧
    ((t.phase = .pB0 ∧ t.status = s.status ∧ t.result = s.result) ∨
      (t.phase = .pErr ∧ t.sink = s.sink ∧ t.records = s.records))

/-! ### The engine's loop -/

/-- When the bytes at the cursor, however many of them are looked at, decode to an instruction, one step at an
instruction boundary is `exec` of it; `exec` itself moves the cursor past the instruction. -/
def Obligations.StepRunsTheDecodedInstruction : Prop :=
  ∀ (s : State) (n : Nat) (i : Instr) (rest : List Byte),
    s.phase = .pB0 → decode (s.stream.window s.pc n) = .insn i rest → i.wellFormed = true ∧ step s = exec i s

/-- The end of the stream at an instruction boundary ends the pass with `Ok` and is no error: nothing is read,
written, logged or presented; and no step ends a pass with its kind (R231). -/
def Obligations.EndAtABoundaryIsNormalTermination : Prop :=
  (∀ s : State, s.phase = .pB0 → s.stream.read s.pc = none →
    ∃ t, step s = .next t ∧ t.result = some .ok ∧ t.status = .doneOk ∧ t.phase = .pOk ∧ t.pc = s.pc ∧
      t.sink = s.sink ∧ t.diag = s.diag ∧ t.records = s.records ∧ t.src = s.src) ∧
  (∀ s t : State, s.phase ≠ .pErr → step s = .next t → t.phase = .pErr →
    ∀ n, t.result ≠ some (.err .endOfInputAtBoundary n))

/-- An unrecognised leading byte: one diagnostic record and one byte consumed under `LENIENT`, an abort under
`STRICT`; nothing is written to the sink (41_decode_pass.md section 1; the policy is the spec's own choice D2,
D25, the record D6). -/
def Obligations.UnrecognisedLeadingByte : Prop :=
  ∀ (s : State) (b : Byte), s.phase = .pB0 → s.stream.read s.pc = some b → classOf b = .unrec →
    (s.unrecPolicy = .lenient → ∃ t, step s = .next t ∧ t.pc = s.pc + 1 ∧ t.phase = .pB0 ∧
      t.diag = s.diag ++ [⟨.unrecognizedOpcode, s.pc, b⟩] ∧ t.sink = s.sink ∧ t.records = s.records ∧
      t.status = s.status ∧ t.result = s.result) ∧
    (s.unrecPolicy = .strict → ∃ t, step s = .next t ∧ s.Raises t .unrecognizedOpcode 1)

/-- A stream that ends inside an instruction: cutting after any of its first `n - 1` bytes raises
`EndOfInputMidInstruction` with the bytes that were present consumed; cutting after 0 bytes is a boundary (R232). -/
def Obligations.TruncatedInstructionAbortsThePass : Prop :=
  ∀ (i : Instr) (o : Operands) (pre : List Byte) (k : Nat) (s : State),
    i.wellFormed = true → s.accepts i → s.phase = .pB0 → k < i.length →
    s.src = some (Memory.ofBytes (pre ++ (encodeWhole i o).take k)) → s.pc = pre.length →
    ∃ t, step s = .next t ∧
      (1 ≤ k → s.Raises t .endOfInputMidInstruction k) ∧ (k = 0 → t.status = .doneOk ∧ t.result = some .ok)

/-- The order of the checks within one instruction, at the second byte: `MalformedSecondByte` before
`DirectAddressUnimplemented`, both before any later read is asked for, whatever the stream holds after `b1`
(60_exceptions.md section 3; the kinds' moments are the spec's own choice D12, D27). -/
def Obligations.ChecksOfTheSecondByteComeInOrder : Prop :=
  ∀ (s : State) (b0 b1 : Byte), s.phase = .pB0 → s.stream.read s.pc = some b0 →
    s.stream.read (s.pc + 1) = some b1 →
    (classOf b0 = .rmReg → s.modPolicy = .regOnly → modField b1 ≠ 3#2 →
      ∃ t, step s = .next t ∧ s.Raises t .malformedSecondByte 2) ∧
    (hasSecondByte (classOf b0) = true → (classOf b0 = .rmReg → s.modPolicy = .full) → s.directPolicy = .fail →
      modField b1 = 0#2 → lowField b1 = 6#3 →
      ∃ t, step s = .next t ∧ s.Raises t .directAddressUnimplemented 2)

/-- Under `FULL`, `MalformedSecondByte` never arises; under `DIRECT16`, `DirectAddressUnimplemented` never; under
`LENIENT`, `UnrecognizedOpcode` is never an error; and `EndOfInputAtBoundary` is the kind of no error
(60_exceptions.md section 1). -/
def Obligations.ErrorKindsBelongToTheirPolicies : Prop :=
  ∀ (s t : State) (k : ErrorKind), s.phase = .pB0 → step s = .next t → t.phase = .pErr →
    t.result = some (.err k s.pc) →
    k ≠ .endOfInputAtBoundary ∧ (k = .malformedSecondByte → s.modPolicy = .regOnly) ∧
    (k = .directAddressUnimplemented → s.directPolicy = .fail) ∧ (k = .unrecognizedOpcode → s.unrecPolicy = .strict)

/-- An iteration has four outcomes: one line written, one byte skipped with a diagnostic, the pass ends `Ok`, the
pass ends `Err` with nothing written and 1 to 5 bytes of the failing instruction consumed (90_conflicts.md C9,
60_exceptions.md section 4; what an error records and leaves is the spec's own choice D9, D10, the diagnostic record
D6, the record presented D28 in the form of log entry 7). -/
def Obligations.IterationHasFourOutcomes : Prop :=
  ∀ s : State, s.phase = .pB0 → ∃ t, step s = .next t ∧
    ((∃ n line r, 2 ≤ n ∧ n ≤ 6 ∧ s.Decodes t n line ∧ s.Presents t r) ∨
     (∃ b, s.stream.read s.pc = some b ∧ s.unrecPolicy = .lenient ∧ t.pc = s.pc + 1 ∧ t.phase = .pB0 ∧
        t.sink = s.sink ∧ t.diag = s.diag ++ [⟨.unrecognizedOpcode, s.pc, b⟩]) ∨
     (s.stream.read s.pc = none ∧ t.phase = .pOk ∧ t.result = some .ok) ∨
     (∃ k n, 1 ≤ n ∧ n ≤ 5 ∧ s.Raises t k n))

/-- Once a pass is over and no start is asked for, nothing changes any more (60_exceptions.md section 4,
41_decode_pass.md section 1; that such a step answers the same state is the model's choice of log entry 8). -/
def Obligations.EndedPassStaysAsItIs : Prop :=
  ∀ s : State, s.phase = .pOk ∨ s.phase = .pErr ∨ s.phase = .pIdle → s.request = none → step s = .next s

/-- The start of a pass, from idle or from the end of an earlier one: the stream from its first byte, an empty log,
the policies given, the header line before any read (70_reset_and_hazards.md section 1; the spec's own choice D7,
D8, D23; the request is the model's own input, log entry 2; that the list of presented records is emptied is log
entry 7, that no result is held is log entry 13). -/
def Obligations.StartOfAPassWritesTheHeader : Prop :=
  ∀ (s : State) (r : PassRequest), s.phase = .pIdle ∨ s.phase = .pOk ∨ s.phase = .pErr → s.request = some r →
    ∃ t u, step s = .next t ∧ t.phase = .pHdr ∧ t.sink = some r.sink ∧ step t = .next u ∧ u.phase = .pB0 ∧
      u.pc = 0 ∧ u.stream = Memory.ofBytes r.stream ∧ u.len = r.stream.length ∧ u.stream.wf = true ∧
      u.text = r.sink ++ "bits 16".toList ++ [newline] ∧ u.diag = [] ∧ u.records = [] ∧ u.status = .run ∧
      u.result = none ∧ u.request = none ∧ u.unrecPolicy = r.policies.unrec ∧ u.modPolicy = r.policies.modes ∧
      u.directPolicy = r.policies.direct

/-- A start asked for while a pass is running is not taken, neither by the caller's transaction nor by a step
(70_reset_and_hazards.md section 1, 93_implementation_defined.md U13; the form of the request is log entry 2). -/
def Obligations.NoStartWhileAPassIsRunning : Prop :=
  (∀ (s : State) (r : PassRequest), s.status = .run → s.submit r = s) ∧
  (∀ s t : State, s.agrees → s.status = .run → step s = .next t →
    t.request = s.request ∧ t.src = s.src ∧ s.pc ≤ t.pc)

/-- The state after reset: no stream, no sink, nothing written, the default policies (70_reset_and_hazards.md
section 1, the spec's own choice D7). The latches and `insn_start` are not mentioned: the spec leaves them open. -/
def Obligations.ResetLeavesTheBlockIdle : Prop :=
  State.reset.phase = .pIdle ∧ State.reset.status = .idle ∧ State.reset.result = none ∧ State.reset.pc = 0 ∧
  State.reset.src = none ∧ State.reset.sink = none ∧ State.reset.diag = [] ∧
  State.reset.unrecPolicy = .lenient ∧ State.reset.modPolicy = .full ∧ State.reset.directPolicy = .fail

/-! ### Whole passes -/

/-- Termination (R157): an iteration that does not end the pass consumes 1 to 6 bytes; a pass is over after at most as
many iterations as bytes are left and one more; it issues at most as many `Next()` as bytes are left and one more,
each of which consumes a byte or ends the pass. From the start of a pass `LEN` bytes are left. -/
def Obligations.PassTerminates : Prop :=
  (∀ s t : State, s.phase = .pB0 → step s = .next t → t.phase ≠ .pOk → t.phase ≠ .pErr →
    s.pc + 1 ≤ t.pc ∧ t.pc ≤ s.pc + 6) ∧
  (∀ s : State, s.phase = .pB0 → s.stream.wf = true → s.pc ≤ s.len →
    ∃ n t, n ≤ s.len - s.pc + 1 ∧ Host.Core.run Sys2Proof.core n s = .next t ∧
      (t.phase = .pOk ∨ t.phase = .pErr)) ∧
  (∀ s t : State, s.reads = true → tick s = .next t →
    t.pc = s.pc + 1 ∨ (t.pc = s.pc ∧ (t.phase = .pOk ∨ t.phase = .pErr))) ∧
  (∀ (s : State) (n : Nat), s.stream.wf = true → s.pc ≤ s.len → s.request = none →
    readsIn n s ≤ s.len - s.pc + 1)

/-- The successful end (R158): a pass returns `Ok` exactly when an iteration finds the cursor at the end of the
stream; a pass over a stream of instructions and skipped bytes does so, with the header and one line for each
instruction in stream order; and every pass that returns `Ok` was over such a stream. -/
def Obligations.SuccessfulPassWritesOneLinePerInstruction : Prop :=
  (∀ s t : State, s.Inv → s.status = .run → step s = .next t →
    (t.status = .doneOk ↔ s.phase = .pB0 ∧ s.pc = s.len)) ∧
  (∀ (items : List Item) (s : State),
    s.phase = .pHdr → s.pc = 0 → (∀ x ∈ items, x.ok s) → s.src = some (Memory.ofBytes (items.flatMap Item.bytes)) →
    ∃ t, Host.Core.run Sys2Proof.core (items.length + 2) s = .next t ∧ t.status = .doneOk ∧ t.result = some .ok ∧
      t.pc = s.len ∧ t.text = s.text ++ "bits 16".toList ++ [newline] ++ items.flatMap Item.text) ∧
  (∀ (bytes : List Byte) (s t : State) (n : Nat),
    s.phase = .pHdr → s.pc = 0 → s.status = .run → s.request = none → s.src = some (Memory.ofBytes bytes) →
    Host.Core.run Sys2Proof.core n s = .next t → t.status = .doneOk →
    t.pc = s.len ∧ ∃ items : List Item, (∀ x ∈ items, x.ok s) ∧ items.flatMap Item.bytes = bytes ∧
      t.text = s.text ++ "bits 16".toList ++ [newline] ++ items.flatMap Item.text)

/-- The records presented and the diagnostic log of such a pass: one record for each instruction, one log entry for
each skipped byte, with its position (10_state.md sections 2 and 3; the log is the spec's own choice D6, the record
D28 in the form of log entry 7). -/
def Obligations.SuccessfulPassPresentsAndLogs : Prop :=
  ∀ (items : List Item) (pre : List Byte) (s : State),
    s.phase = .pB0 → (∀ x ∈ items, x.ok s) → s.pc = pre.length →
    s.src = some (Memory.ofBytes (pre ++ items.flatMap Item.bytes)) →
    ∃ t, Host.Core.run Sys2Proof.core (items.length + 1) s = .next t ∧ t.status = .doneOk ∧
      t.records = s.records ++ items.flatMap Item.presented ∧ t.diag = s.diag ++ loggedFrom s.pc items

/-- The per-byte state machine and the engine's loop are the same block (41_decode_pass.md section 3; the phases are
the spec's own choice D5): from an instruction boundary, one to seven transactions lead through reading phases to
the very state one step gives. -/
def Obligations.StateMachineRefinesTheLoop : Prop :=
  ∀ s : State, s.phase = .pB0 → ∃ n, 1 ≤ n ∧ n ≤ 7 ∧ ticks n s = step s ∧
    ∀ m, 1 ≤ m → m < n → ∃ u, ticks m s = .next u ∧ u.phase ∈ [Phase.pB1, .pDlo, .pDhi, .pIlo, .pIhi, .pEmit]

/-! ### Invariants and what cannot flow -/

/-- The invariant holds after reset. -/
def Obligations.InvariantHoldsAtReset : Prop := State.reset.Inv

/-- Every step keeps the invariant: the stream's canonical form, the cursor inside the stream, `status`, `result`
and `phase` in agreement, and the latches fitting the phase. -/
def Obligations.StepKeepsTheInvariant : Prop := ∀ s t : State, s.Inv → step s = .next t → t.Inv

/-- Every transaction of the per-byte state machine keeps the invariant. -/
def Obligations.TransactionKeepsTheInvariant : Prop := ∀ s t : State, s.Inv → tick s = .next t → t.Inv

/-- In every state that meets the invariant a step and a transaction answer a next state: the block never gets
stuck (41_decode_pass.md section 3). -/
def Obligations.ConsistentStateNeverStops : Prop :=
  ∀ s : State, s.Inv → (∃ t, step s = .next t) ∧ (∃ t, tick s = .next t)

/-- Nothing passes from one instruction to the next through the latches of R37: two states that differ only in them
have outcomes that differ only in them (10_state.md sections 3 and 6). -/
def Obligations.LatchesCarryNothingToTheNextInstruction : Prop :=
  ∀ s u : State, s.phase = .pB0 → s.SameButLatches u →
    ∃ t v, step s = .next t ∧ step u = .next v ∧ t.SameButLatches v

/-- No lookahead (20_memory.md section 1): unless the stream was found exhausted, the outcome of an iteration depends
on the bytes it consumed and on no other. -/
def Obligations.IterationDependsOnItsOwnBytesOnly : Prop :=
  ∀ (s t : State) (m : Memory), s.phase = .pB0 → step s = .next t →
    (t.phase = .pB0 ∨ (t.phase = .pErr ∧ t.result ≠ some (.err .endOfInputMidInstruction s.pc))) →
    (∀ a, s.pc ≤ a → a < t.pc → m.read a = s.stream.read a) →
    step { s with src := some m } = .next { t with src := some m }

/-- `Next()` and `Need()` (R11) on the stream a byte source supplies. -/
def Obligations.NextReadsTheStreamInOrder : Prop :=
  ∀ (bytes : List Byte) (s : State) (follow : Byte → State → State),
    s.src = some (Memory.ofBytes bytes) →
    (∀ h : s.pc < bytes.length, s.next = (some bytes[s.pc], { s with pc := s.pc + 1 }) ∧
      s.need follow = follow bytes[s.pc] { s with pc := s.pc + 1 }) ∧
    (bytes.length ≤ s.pc → s.next = (none, s) ∧ s.need follow = s.raise .endOfInputMidInstruction)

/-- While a pass runs, a step never moves the cursor back, never changes the stream or the policies, and only ever
appends to the sink, the log and the records (10_state.md section 2; 20_memory.md section 5). -/
def Obligations.OutputIsAppendOnlyAndTheCursorMovesForward : Prop :=
  ∀ s t : State, s.agrees → s.status = .run → step s = .next t →
    s.pc ≤ t.pc ∧ t.pc ≤ s.pc + 6 ∧ t.src = s.src ∧ s.text <+: t.text ∧ s.diag <+: t.diag ∧
    s.records <+: t.records ∧ t.unrecPolicy = s.unrecPolicy ∧ t.modPolicy = s.modPolicy ∧
    t.directPolicy = s.directPolicy

/-- What an iteration adds to the sink is nothing or one line of the grammar (30_encoding.md section 7; the form of a
direct address is the spec's own choice D4, the missing size keyword D15). -/
def Obligations.LinesFollowTheGrammar : Prop :=
  ∀ s t : State, s.phase = .pB0 → step s = .next t →
    t.text = s.text ∨ ∃ line, isLine s.directPolicy line ∧ t.text = s.text ++ line ++ [newline]

/-- Every character any step adds to the sink while a pass runs is a lower-case letter, a digit, space, comma, plus,
a square bracket or newline (00_scope.md section 4). -/
def Obligations.OutputAlphabet : Prop :=
  ∀ s t : State, s.agrees → s.status = .run → step s = .next t →
    ∃ added, t.text = s.text ++ added ∧ added.all outputChar = true

/-- A diagnostic record is made only for an unrecognised byte under `LENIENT`, with its position and value
(10_state.md section 2, the spec's own choice D6). -/
def Obligations.DiagnosticsRecordSkippedBytesOnly : Prop :=
  ∀ s t : State, s.agrees → s.status = .run → step s = .next t → t.diag ≠ s.diag →
    s.phase = .pB0 ∧ s.unrecPolicy = .lenient ∧
    ∃ b, s.stream.read s.pc = some b ∧ classOf b = .unrec ∧
      t.diag = s.diag ++ [⟨.unrecognizedOpcode, s.pc, b⟩]

/-- A property the text must not be assumed to have: that a line determines the instruction and its operands
(93_implementation_defined.md U12). Expected to fail. -/
def Obligations.LineDeterminesTheInstruction : Prop :=
  ∀ (i j : Instr) (o p : Operands), i.wellFormed = true → j.wellFormed = true → o.fit i = true → p.fit j = true →
    wholeLine i o = wholeLine j p → i = j ∧ o = p

/-- The structured record does determine the row, all its fields and its operands, but for the middle field of class
`IMM_RM`: two instructions with one record differ at most in it (93_implementation_defined.md U12; the record is the
spec's own choice D28 in the form of log entry 7). -/
def Obligations.RecordDeterminesTheInstruction : Prop :=
  ∀ (i j : Instr) (o p : Operands), i.wellFormed = true → j.wellFormed = true → o.fit i = true → p.fit j = true →
    wholeRecord i o = wholeRecord j p →
    i.cls = j.cls ∧ i.tableIndex = j.tableIndex ∧ o = p ∧ i.clearMiddle = j.clearMiddle ∧ (i.cls ≠ .immRm → i = j)
end

