-- ==== Sys2Proof/Laws/Encode.lean ====
section
/-! SUPPORT. The fields of an encoded byte are the fields it was made of, and a byte is made of its fields
(spec/30_encoding.md R91 to R97). -/

namespace Sys2Proof

@[simp] theorem classOf_rmRegLead : ∀ d w : Bit, classOf (rmRegLead d w) = .rmReg := by decide
@[simp] theorem directionBit_rmRegLead : ∀ d w : Bit, directionBit (rmRegLead d w) = d := by decide
@[simp] theorem sizeBit_rmRegLead : ∀ d w : Bit, sizeBit (rmRegLead d w) = w := by decide
@[simp] theorem classOf_immRmLead : ∀ w : Bit, classOf (immRmLead w) = .immRm := by decide
@[simp] theorem sizeBit_immRmLead : ∀ w : Bit, sizeBit (immRmLead w) = w := by decide
@[simp] theorem classOf_immRegLead : ∀ (w : Bit) (reg : Sel3), classOf (immRegLead w reg) = .immReg := by decide
@[simp] theorem immSizeBit_immRegLead : ∀ (w : Bit) (reg : Sel3), immSizeBit (immRegLead w reg) = w := by decide
@[simp] theorem lowField_immRegLead : ∀ (w : Bit) (reg : Sel3), lowField (immRegLead w reg) = reg := by decide

@[simp] theorem modField_secondByte :
    ∀ (mod : Mode2) (mid low : Sel3), modField (secondByte mod mid low) = mod := by decide
@[simp] theorem midField_secondByte :
    ∀ (mod : Mode2) (mid low : Sel3), midField (secondByte mod mid low) = mid := by decide
@[simp] theorem lowField_secondByte :
    ∀ (mod : Mode2) (mid low : Sel3), lowField (secondByte mod mid low) = low := by decide

theorem rmRegLead_of_class : ∀ b : Byte, classOf b = .rmReg → rmRegLead (directionBit b) (sizeBit b) = b := by decide
theorem immRmLead_of_class : ∀ b : Byte, classOf b = .immRm → immRmLead (sizeBit b) = b := by decide
theorem immRegLead_of_class : ∀ b : Byte, classOf b = .immReg → immRegLead (immSizeBit b) (lowField b) = b := by
  decide
theorem secondByte_of_fields : ∀ b : Byte, secondByte (modField b) (midField b) (lowField b) = b := by decide

/-- The four modes (R95). -/
theorem Mode2.cases : ∀ mod : Mode2, mod = 0#2 ∨ mod = 1#2 ∨ mod = 2#2 ∨ mod = 3#2 := by decide

theorem Instr.dispBytes_le (i : Instr) : i.dispBytes ≤ 2 := by
  cases i <;> simp [Instr.dispBytes]
theorem Instr.immBytes_le (i : Instr) : i.immBytes ≤ 2 := by
  cases i <;> simp [Instr.immBytes]

/-- Outside class `IMM_RM` there is no ignored field. -/
theorem Instr.clearMiddle_of_cls {i : Instr} (h : i.cls ≠ .immRm) : i.clearMiddle = i := by
  cases i <;> first | rfl | exact absurd rfl h

end Sys2Proof
end

