-- ==== Sys2Proof/Laws/Memory.lean ====
section
/-! SUPPORT. The byte stream: every operation keeps the canonical form, a stream reads as the bytes it was made of,
and `Next` answers `End` exactly at its end (spec/20_memory.md R67). -/

namespace Sys2Proof.Machine

theorem Memory.wfFrom_ofBytesFrom (k : Nat) (bs : List Byte) :
    Memory.wfFrom k (Memory.ofBytesFrom k bs) = true := by
  induction bs generalizing k with
  | nil => rfl
  | cons b bs ih => simp [Memory.ofBytesFrom, Memory.wfFrom, ih]

/-- What a byte source supplies is in canonical form. -/
theorem Memory.wf_ofBytes (bs : List Byte) : (Memory.ofBytes bs).wf = true := Memory.wfFrom_ofBytesFrom 0 bs

@[simp] theorem Memory.length_ofBytesFrom (k : Nat) (bs : List Byte) :
    (Memory.ofBytesFrom k bs).length = bs.length := by
  induction bs generalizing k with
  | nil => rfl
  | cons b bs ih => simp [Memory.ofBytesFrom, ih]

@[simp] theorem Memory.len_ofBytes (bs : List Byte) : (Memory.ofBytes bs).len = bs.length :=
  Memory.length_ofBytesFrom 0 bs

theorem Memory.read_ofBytesFrom (k a : Nat) (bs : List Byte) :
    (Memory.ofBytesFrom k bs).read (k + a) = bs[a]? := by
  induction bs generalizing k a with
  | nil => simp [Memory.ofBytesFrom, Memory.read]
  | cons b bs ih =>
    cases a with
    | zero => simp [Memory.ofBytesFrom, Memory.read]
    | succ a =>
      have := ih (k + 1) a
      rw [show k + 1 + a = k + (a + 1) by omega] at this
      simp [Memory.ofBytesFrom, Memory.read, this]

/-- The stream a byte source supplies reads as its bytes, by position. -/
theorem Memory.read_ofBytes (bs : List Byte) (a : Nat) : (Memory.ofBytes bs).read a = bs[a]? := by
  have := Memory.read_ofBytesFrom 0 a bs
  rwa [Nat.zero_add] at this

theorem Memory.read_wfFrom {k a : Nat} {m : Memory} (h : Memory.wfFrom k m = true) (hk : k ≤ a) :
    (m.read a).isSome = true ↔ a < k + m.length := by
  induction m generalizing k with
  | nil => simp [Memory.read]; omega
  | cons c m ih =>
    obtain ⟨i, b⟩ := c
    simp only [Memory.wfFrom, Bool.and_eq_true, beq_iff_eq] at h
    obtain ⟨rfl, hm⟩ := h
    by_cases e : i = a
    · subst e; simp [Memory.read]
    · rw [Memory.read, if_neg e, ih hm (by omega), List.length_cons]; omega

/-- On a stream in canonical form a position holds a byte exactly when it is below `LEN` (R31, R67). -/
theorem Memory.read_isSome {m : Memory} (h : m.wf = true) (a : Nat) : (m.read a).isSome = true ↔ a < m.len := by
  have := Memory.read_wfFrom h (Nat.zero_le a)
  rwa [Nat.zero_add] at this

/-- On a stream in canonical form `End` is answered exactly from `LEN` on (R67). -/
theorem Memory.read_eq_none {m : Memory} (h : m.wf = true) (a : Nat) : m.read a = none ↔ m.len ≤ a := by
  have := Memory.read_isSome h a
  cases e : m.read a <;> simp [e] at this ⊢ <;> omega

theorem Memory.wfFrom_store {k a : Nat} {b : Byte} {m : Memory} (h : Memory.wfFrom k m = true)
    (hk : k ≤ a) (ha : a ≤ k + m.length) : Memory.wfFrom k (Memory.store a b m) = true := by
  induction m generalizing k with
  | nil =>
    have : a = k := by simp at ha; omega
    simp [Memory.store, Memory.wfFrom, this]
  | cons c m ih =>
    obtain ⟨i, x⟩ := c
    simp only [Memory.wfFrom, Bool.and_eq_true, beq_iff_eq] at h
    obtain ⟨rfl, hm⟩ := h
    simp only [Memory.store]
    split
    · omega
    · split
      · rename_i e; simp [Memory.wfFrom, e, hm]
      · simp only [Memory.wfFrom, beq_self_eq_true, Bool.true_and]
        exact ih hm (by omega) (by simp only [List.length_cons] at ha; omega)

/-- Putting a byte at a position of the stream or just behind it keeps the canonical form. -/
theorem Memory.wf_store {a : Nat} {b : Byte} {m : Memory} (h : m.wf = true) (ha : a ≤ m.len) :
    (Memory.store a b m).wf = true :=
  Memory.wfFrom_store h (Nat.zero_le a) (by rw [Nat.zero_add]; exact ha)

theorem Memory.length_store_le (a : Nat) (b : Byte) (m : Memory) :
    m.length ≤ (Memory.store a b m).length := by
  induction m with
  | nil => simp [Memory.store]
  | cons c m ih =>
    obtain ⟨i, x⟩ := c
    simp only [Memory.store]
    split
    · simp
    · split <;> simp [ih]

/-- What was put at a position is read there. -/
theorem Memory.read_store_self (a : Nat) (b : Byte) (m : Memory) : (Memory.store a b m).read a = some b := by
  induction m with
  | nil => simp [Memory.store, Memory.read]
  | cons c m ih =>
    obtain ⟨i, x⟩ := c
    simp only [Memory.store]
    split
    · simp [Memory.read]
    · split
      · simp [Memory.read]
      · rename_i h1 h2
        rw [Memory.read, if_neg (fun e => h2 e.symm), ih]

/-- Every other position is left alone. -/
theorem Memory.read_store_other {a a' : Nat} (h : a' ≠ a) (b : Byte) (m : Memory) :
    (Memory.store a b m).read a' = m.read a' := by
  induction m with
  | nil => simp [Memory.store, Memory.read, Ne.symm h]
  | cons c m ih =>
    obtain ⟨i, x⟩ := c
    simp only [Memory.store]
    split
    · simp [Memory.read, Ne.symm h]
    · split
      · rename_i e; subst e; simp [Memory.read, Ne.symm h]
      · simp [Memory.read, ih]

/-- Putting a run of bytes from a position of the stream on keeps the canonical form. -/
theorem Memory.wf_storeBytes {a : Nat} {bs : List Byte} {m : Memory} (h : m.wf = true) (ha : a ≤ m.len) :
    (Memory.storeBytes a bs m).wf = true := by
  induction bs generalizing a m with
  | nil => exact h
  | cons b bs ih =>
    refine ih (Memory.wf_store h ha) ?_
    by_cases e : a < m.len
    · exact Nat.le_trans e (Memory.length_store_le a b m)
    · have : a + 1 - 1 < (Memory.store a b m).len :=
        (Memory.read_isSome (Memory.wf_store h ha) a).1 (by simp [Memory.read_store_self])
      omega

/-- A window is what the stream holds from the position on, up to its length. -/
theorem Memory.window_ofBytes (bs : List Byte) (a n : Nat) :
    (Memory.ofBytes bs).window a n = (bs.drop a).take n := by
  induction n generalizing a with
  | zero => simp [Memory.window]
  | succ n ih =>
    rw [Memory.window, Memory.read_ofBytes]
    by_cases h : a < bs.length
    · rw [List.getElem?_eq_getElem h, List.drop_eq_getElem_cons h, List.take_succ_cons]
      simp only [ih]
    · rw [List.getElem?_eq_none (by omega), List.drop_eq_nil_of_le (by omega)]; rfl

/-- `lo + (hi << 8)` is the two bytes side by side: it cannot overflow (R115). -/
theorem assemble_eq_append (lo hi : Byte) : assemble lo hi = hi ++ lo := by
  apply BitVec.eq_of_toNat_eq
  have h1 := lo.isLt
  have h2 := hi.isLt
  simp only [assemble, BitVec.toNat_add, BitVec.toNat_setWidth, BitVec.toNat_shiftLeft, BitVec.toNat_append,
    Nat.shiftLeft_eq]
  rw [Nat.mul_comm hi.toNat, ← Nat.two_pow_add_eq_or_of_lt h1]
  omega

/-- `lo + (hi << 8)` as a number (R62). -/
theorem assemble_toNat (lo hi : Byte) : (assemble lo hi).toNat = lo.toNat + 256 * hi.toNat := by
  have h1 := lo.isLt
  have h2 := hi.isLt
  simp only [assemble, BitVec.toNat_add, BitVec.toNat_setWidth, BitVec.toNat_shiftLeft, Nat.shiftLeft_eq]
  omega

end Sys2Proof.Machine
end

