-- ==== Sys2Proof/Laws/State.lean ====
section
/-! SUPPORT. What each named update of the state leaves in each field: one lemma per field per update, so that no
proof unfolds a record update. The fields `w`, `d` and `reg` after a leading byte depend on its class and have
lemmas of their own. -/

namespace Sys2Proof.Machine

variable (s : State)

@[simp] theorem State.advance_src (n : Nat) : (s.advance n).src = s.src := rfl
@[simp] theorem State.advance_pc (n : Nat) : (s.advance n).pc = s.pc + n := rfl
@[simp] theorem State.advance_sink (n : Nat) : (s.advance n).sink = s.sink := rfl
@[simp] theorem State.advance_diag (n : Nat) : (s.advance n).diag = s.diag := rfl
@[simp] theorem State.advance_status (n : Nat) : (s.advance n).status = s.status := rfl
@[simp] theorem State.advance_result (n : Nat) : (s.advance n).result = s.result := rfl
@[simp] theorem State.advance_insnStart (n : Nat) : (s.advance n).insnStart = s.insnStart := rfl
@[simp] theorem State.advance_b0 (n : Nat) : (s.advance n).b0 = s.b0 := rfl
@[simp] theorem State.advance_cls (n : Nat) : (s.advance n).cls = s.cls := rfl
@[simp] theorem State.advance_w (n : Nat) : (s.advance n).w = s.w := rfl
@[simp] theorem State.advance_d (n : Nat) : (s.advance n).d = s.d := rfl
@[simp] theorem State.advance_b1 (n : Nat) : (s.advance n).b1 = s.b1 := rfl
@[simp] theorem State.advance_mod (n : Nat) : (s.advance n).mod = s.mod := rfl
@[simp] theorem State.advance_reg (n : Nat) : (s.advance n).reg = s.reg := rfl
@[simp] theorem State.advance_rm (n : Nat) : (s.advance n).rm = s.rm := rfl
@[simp] theorem State.advance_disp (n : Nat) : (s.advance n).disp = s.disp := rfl
@[simp] theorem State.advance_imm (n : Nat) : (s.advance n).imm = s.imm := rfl
@[simp] theorem State.advance_phase (n : Nat) : (s.advance n).phase = s.phase := rfl
@[simp] theorem State.advance_unrecPolicy (n : Nat) : (s.advance n).unrecPolicy = s.unrecPolicy := rfl
@[simp] theorem State.advance_modPolicy (n : Nat) : (s.advance n).modPolicy = s.modPolicy := rfl
@[simp] theorem State.advance_directPolicy (n : Nat) : (s.advance n).directPolicy = s.directPolicy := rfl
@[simp] theorem State.advance_records (n : Nat) : (s.advance n).records = s.records := rfl
@[simp] theorem State.advance_request (n : Nat) : (s.advance n).request = s.request := rfl
@[simp] theorem State.advance_stream (n : Nat) : (s.advance n).stream = s.stream := rfl
@[simp] theorem State.advance_text (n : Nat) : (s.advance n).text = s.text := rfl
@[simp] theorem State.advance_len (n : Nat) : (s.advance n).len = s.len := rfl

@[simp] theorem State.setDisp_src (v : Word) : (s.setDisp v).src = s.src := rfl
@[simp] theorem State.setDisp_pc (v : Word) : (s.setDisp v).pc = s.pc := rfl
@[simp] theorem State.setDisp_sink (v : Word) : (s.setDisp v).sink = s.sink := rfl
@[simp] theorem State.setDisp_diag (v : Word) : (s.setDisp v).diag = s.diag := rfl
@[simp] theorem State.setDisp_status (v : Word) : (s.setDisp v).status = s.status := rfl
@[simp] theorem State.setDisp_result (v : Word) : (s.setDisp v).result = s.result := rfl
@[simp] theorem State.setDisp_insnStart (v : Word) : (s.setDisp v).insnStart = s.insnStart := rfl
@[simp] theorem State.setDisp_b0 (v : Word) : (s.setDisp v).b0 = s.b0 := rfl
@[simp] theorem State.setDisp_cls (v : Word) : (s.setDisp v).cls = s.cls := rfl
@[simp] theorem State.setDisp_w (v : Word) : (s.setDisp v).w = s.w := rfl
@[simp] theorem State.setDisp_d (v : Word) : (s.setDisp v).d = s.d := rfl
@[simp] theorem State.setDisp_b1 (v : Word) : (s.setDisp v).b1 = s.b1 := rfl
@[simp] theorem State.setDisp_mod (v : Word) : (s.setDisp v).mod = s.mod := rfl
@[simp] theorem State.setDisp_reg (v : Word) : (s.setDisp v).reg = s.reg := rfl
@[simp] theorem State.setDisp_rm (v : Word) : (s.setDisp v).rm = s.rm := rfl
@[simp] theorem State.setDisp_disp (v : Word) : (s.setDisp v).disp = v := rfl
@[simp] theorem State.setDisp_imm (v : Word) : (s.setDisp v).imm = s.imm := rfl
@[simp] theorem State.setDisp_phase (v : Word) : (s.setDisp v).phase = s.phase := rfl
@[simp] theorem State.setDisp_unrecPolicy (v : Word) : (s.setDisp v).unrecPolicy = s.unrecPolicy := rfl
@[simp] theorem State.setDisp_modPolicy (v : Word) : (s.setDisp v).modPolicy = s.modPolicy := rfl
@[simp] theorem State.setDisp_directPolicy (v : Word) : (s.setDisp v).directPolicy = s.directPolicy := rfl
@[simp] theorem State.setDisp_records (v : Word) : (s.setDisp v).records = s.records := rfl
@[simp] theorem State.setDisp_request (v : Word) : (s.setDisp v).request = s.request := rfl
@[simp] theorem State.setDisp_stream (v : Word) : (s.setDisp v).stream = s.stream := rfl
@[simp] theorem State.setDisp_text (v : Word) : (s.setDisp v).text = s.text := rfl
@[simp] theorem State.setDisp_len (v : Word) : (s.setDisp v).len = s.len := rfl

@[simp] theorem State.setImm_src (v : Word) : (s.setImm v).src = s.src := rfl
@[simp] theorem State.setImm_pc (v : Word) : (s.setImm v).pc = s.pc := rfl
@[simp] theorem State.setImm_sink (v : Word) : (s.setImm v).sink = s.sink := rfl
@[simp] theorem State.setImm_diag (v : Word) : (s.setImm v).diag = s.diag := rfl
@[simp] theorem State.setImm_status (v : Word) : (s.setImm v).status = s.status := rfl
@[simp] theorem State.setImm_result (v : Word) : (s.setImm v).result = s.result := rfl
@[simp] theorem State.setImm_insnStart (v : Word) : (s.setImm v).insnStart = s.insnStart := rfl
@[simp] theorem State.setImm_b0 (v : Word) : (s.setImm v).b0 = s.b0 := rfl
@[simp] theorem State.setImm_cls (v : Word) : (s.setImm v).cls = s.cls := rfl
@[simp] theorem State.setImm_w (v : Word) : (s.setImm v).w = s.w := rfl
@[simp] theorem State.setImm_d (v : Word) : (s.setImm v).d = s.d := rfl
@[simp] theorem State.setImm_b1 (v : Word) : (s.setImm v).b1 = s.b1 := rfl
@[simp] theorem State.setImm_mod (v : Word) : (s.setImm v).mod = s.mod := rfl
@[simp] theorem State.setImm_reg (v : Word) : (s.setImm v).reg = s.reg := rfl
@[simp] theorem State.setImm_rm (v : Word) : (s.setImm v).rm = s.rm := rfl
@[simp] theorem State.setImm_disp (v : Word) : (s.setImm v).disp = s.disp := rfl
@[simp] theorem State.setImm_imm (v : Word) : (s.setImm v).imm = v := rfl
@[simp] theorem State.setImm_phase (v : Word) : (s.setImm v).phase = s.phase := rfl
@[simp] theorem State.setImm_unrecPolicy (v : Word) : (s.setImm v).unrecPolicy = s.unrecPolicy := rfl
@[simp] theorem State.setImm_modPolicy (v : Word) : (s.setImm v).modPolicy = s.modPolicy := rfl
@[simp] theorem State.setImm_directPolicy (v : Word) : (s.setImm v).directPolicy = s.directPolicy := rfl
@[simp] theorem State.setImm_records (v : Word) : (s.setImm v).records = s.records := rfl
@[simp] theorem State.setImm_request (v : Word) : (s.setImm v).request = s.request := rfl
@[simp] theorem State.setImm_stream (v : Word) : (s.setImm v).stream = s.stream := rfl
@[simp] theorem State.setImm_text (v : Word) : (s.setImm v).text = s.text := rfl
@[simp] theorem State.setImm_len (v : Word) : (s.setImm v).len = s.len := rfl

@[simp] theorem State.goto_src (p : Phase) : (s.goto p).src = s.src := rfl
@[simp] theorem State.goto_pc (p : Phase) : (s.goto p).pc = s.pc := rfl
@[simp] theorem State.goto_sink (p : Phase) : (s.goto p).sink = s.sink := rfl
@[simp] theorem State.goto_diag (p : Phase) : (s.goto p).diag = s.diag := rfl
@[simp] theorem State.goto_status (p : Phase) : (s.goto p).status = s.status := rfl
@[simp] theorem State.goto_result (p : Phase) : (s.goto p).result = s.result := rfl
@[simp] theorem State.goto_insnStart (p : Phase) : (s.goto p).insnStart = s.insnStart := rfl
@[simp] theorem State.goto_b0 (p : Phase) : (s.goto p).b0 = s.b0 := rfl
@[simp] theorem State.goto_cls (p : Phase) : (s.goto p).cls = s.cls := rfl
@[simp] theorem State.goto_w (p : Phase) : (s.goto p).w = s.w := rfl
@[simp] theorem State.goto_d (p : Phase) : (s.goto p).d = s.d := rfl
@[simp] theorem State.goto_b1 (p : Phase) : (s.goto p).b1 = s.b1 := rfl
@[simp] theorem State.goto_mod (p : Phase) : (s.goto p).mod = s.mod := rfl
@[simp] theorem State.goto_reg (p : Phase) : (s.goto p).reg = s.reg := rfl
@[simp] theorem State.goto_rm (p : Phase) : (s.goto p).rm = s.rm := rfl
@[simp] theorem State.goto_disp (p : Phase) : (s.goto p).disp = s.disp := rfl
@[simp] theorem State.goto_imm (p : Phase) : (s.goto p).imm = s.imm := rfl
@[simp] theorem State.goto_phase (p : Phase) : (s.goto p).phase = p := rfl
@[simp] theorem State.goto_unrecPolicy (p : Phase) : (s.goto p).unrecPolicy = s.unrecPolicy := rfl
@[simp] theorem State.goto_modPolicy (p : Phase) : (s.goto p).modPolicy = s.modPolicy := rfl
@[simp] theorem State.goto_directPolicy (p : Phase) : (s.goto p).directPolicy = s.directPolicy := rfl
@[simp] theorem State.goto_records (p : Phase) : (s.goto p).records = s.records := rfl
@[simp] theorem State.goto_request (p : Phase) : (s.goto p).request = s.request := rfl
@[simp] theorem State.goto_stream (p : Phase) : (s.goto p).stream = s.stream := rfl
@[simp] theorem State.goto_text (p : Phase) : (s.goto p).text = s.text := rfl
@[simp] theorem State.goto_len (p : Phase) : (s.goto p).len = s.len := rfl

@[simp] theorem State.sinkLine_src (l : Text) : (s.sinkLine l).src = s.src := rfl
@[simp] theorem State.sinkLine_pc (l : Text) : (s.sinkLine l).pc = s.pc := rfl
@[simp] theorem State.sinkLine_sink (l : Text) : (s.sinkLine l).sink = some (s.text ++ l ++ [newline]) := rfl
@[simp] theorem State.sinkLine_diag (l : Text) : (s.sinkLine l).diag = s.diag := rfl
@[simp] theorem State.sinkLine_status (l : Text) : (s.sinkLine l).status = s.status := rfl
@[simp] theorem State.sinkLine_result (l : Text) : (s.sinkLine l).result = s.result := rfl
@[simp] theorem State.sinkLine_insnStart (l : Text) : (s.sinkLine l).insnStart = s.insnStart := rfl
@[simp] theorem State.sinkLine_b0 (l : Text) : (s.sinkLine l).b0 = s.b0 := rfl
@[simp] theorem State.sinkLine_cls (l : Text) : (s.sinkLine l).cls = s.cls := rfl
@[simp] theorem State.sinkLine_w (l : Text) : (s.sinkLine l).w = s.w := rfl
@[simp] theorem State.sinkLine_d (l : Text) : (s.sinkLine l).d = s.d := rfl
@[simp] theorem State.sinkLine_b1 (l : Text) : (s.sinkLine l).b1 = s.b1 := rfl
@[simp] theorem State.sinkLine_mod (l : Text) : (s.sinkLine l).mod = s.mod := rfl
@[simp] theorem State.sinkLine_reg (l : Text) : (s.sinkLine l).reg = s.reg := rfl
@[simp] theorem State.sinkLine_rm (l : Text) : (s.sinkLine l).rm = s.rm := rfl
@[simp] theorem State.sinkLine_disp (l : Text) : (s.sinkLine l).disp = s.disp := rfl
@[simp] theorem State.sinkLine_imm (l : Text) : (s.sinkLine l).imm = s.imm := rfl
@[simp] theorem State.sinkLine_phase (l : Text) : (s.sinkLine l).phase = s.phase := rfl
@[simp] theorem State.sinkLine_unrecPolicy (l : Text) : (s.sinkLine l).unrecPolicy = s.unrecPolicy := rfl
@[simp] theorem State.sinkLine_modPolicy (l : Text) : (s.sinkLine l).modPolicy = s.modPolicy := rfl
@[simp] theorem State.sinkLine_directPolicy (l : Text) : (s.sinkLine l).directPolicy = s.directPolicy := rfl
@[simp] theorem State.sinkLine_records (l : Text) : (s.sinkLine l).records = s.records := rfl
@[simp] theorem State.sinkLine_request (l : Text) : (s.sinkLine l).request = s.request := rfl

@[simp] theorem State.addDiag_src (k : ErrorKind) (o : Nat) (b : Byte) : (s.addDiag k o b).src = s.src := rfl
@[simp] theorem State.addDiag_pc (k : ErrorKind) (o : Nat) (b : Byte) : (s.addDiag k o b).pc = s.pc := rfl
@[simp] theorem State.addDiag_sink (k : ErrorKind) (o : Nat) (b : Byte) : (s.addDiag k o b).sink = s.sink := rfl
@[simp] theorem State.addDiag_diag (k : ErrorKind) (o : Nat) (b : Byte) : (s.addDiag k o b).diag = s.diag ++ [⟨k, o, b⟩] := rfl
@[simp] theorem State.addDiag_status (k : ErrorKind) (o : Nat) (b : Byte) : (s.addDiag k o b).status = s.status := rfl
@[simp] theorem State.addDiag_result (k : ErrorKind) (o : Nat) (b : Byte) : (s.addDiag k o b).result = s.result := rfl
@[simp] theorem State.addDiag_insnStart (k : ErrorKind) (o : Nat) (b : Byte) : (s.addDiag k o b).insnStart = s.insnStart := rfl
@[simp] theorem State.addDiag_b0 (k : ErrorKind) (o : Nat) (b : Byte) : (s.addDiag k o b).b0 = s.b0 := rfl
@[simp] theorem State.addDiag_cls (k : ErrorKind) (o : Nat) (b : Byte) : (s.addDiag k o b).cls = s.cls := rfl
@[simp] theorem State.addDiag_w (k : ErrorKind) (o : Nat) (b : Byte) : (s.addDiag k o b).w = s.w := rfl
@[simp] theorem State.addDiag_d (k : ErrorKind) (o : Nat) (b : Byte) : (s.addDiag k o b).d = s.d := rfl
@[simp] theorem State.addDiag_b1 (k : ErrorKind) (o : Nat) (b : Byte) : (s.addDiag k o b).b1 = s.b1 := rfl
@[simp] theorem State.addDiag_mod (k : ErrorKind) (o : Nat) (b : Byte) : (s.addDiag k o b).mod = s.mod := rfl
@[simp] theorem State.addDiag_reg (k : ErrorKind) (o : Nat) (b : Byte) : (s.addDiag k o b).reg = s.reg := rfl
@[simp] theorem State.addDiag_rm (k : ErrorKind) (o : Nat) (b : Byte) : (s.addDiag k o b).rm = s.rm := rfl
@[simp] theorem State.addDiag_disp (k : ErrorKind) (o : Nat) (b : Byte) : (s.addDiag k o b).disp = s.disp := rfl
@[simp] theorem State.addDiag_imm (k : ErrorKind) (o : Nat) (b : Byte) : (s.addDiag k o b).imm = s.imm := rfl
@[simp] theorem State.addDiag_phase (k : ErrorKind) (o : Nat) (b : Byte) : (s.addDiag k o b).phase = s.phase := rfl
@[simp] theorem State.addDiag_unrecPolicy (k : ErrorKind) (o : Nat) (b : Byte) : (s.addDiag k o b).unrecPolicy = s.unrecPolicy := rfl
@[simp] theorem State.addDiag_modPolicy (k : ErrorKind) (o : Nat) (b : Byte) : (s.addDiag k o b).modPolicy = s.modPolicy := rfl
@[simp] theorem State.addDiag_directPolicy (k : ErrorKind) (o : Nat) (b : Byte) : (s.addDiag k o b).directPolicy = s.directPolicy := rfl
@[simp] theorem State.addDiag_records (k : ErrorKind) (o : Nat) (b : Byte) : (s.addDiag k o b).records = s.records := rfl
@[simp] theorem State.addDiag_request (k : ErrorKind) (o : Nat) (b : Byte) : (s.addDiag k o b).request = s.request := rfl

@[simp] theorem State.raise_src (k : ErrorKind) : (s.raise k).src = s.src := rfl
@[simp] theorem State.raise_pc (k : ErrorKind) : (s.raise k).pc = s.pc := rfl
@[simp] theorem State.raise_sink (k : ErrorKind) : (s.raise k).sink = s.sink := rfl
@[simp] theorem State.raise_diag (k : ErrorKind) : (s.raise k).diag = s.diag := rfl
@[simp] theorem State.raise_status (k : ErrorKind) : (s.raise k).status = .doneErr := rfl
@[simp] theorem State.raise_result (k : ErrorKind) : (s.raise k).result = some (.err k s.insnStart) := rfl
@[simp] theorem State.raise_insnStart (k : ErrorKind) : (s.raise k).insnStart = s.insnStart := rfl
@[simp] theorem State.raise_b0 (k : ErrorKind) : (s.raise k).b0 = s.b0 := rfl
@[simp] theorem State.raise_cls (k : ErrorKind) : (s.raise k).cls = s.cls := rfl
@[simp] theorem State.raise_w (k : ErrorKind) : (s.raise k).w = s.w := rfl
@[simp] theorem State.raise_d (k : ErrorKind) : (s.raise k).d = s.d := rfl
@[simp] theorem State.raise_b1 (k : ErrorKind) : (s.raise k).b1 = s.b1 := rfl
@[simp] theorem State.raise_mod (k : ErrorKind) : (s.raise k).mod = s.mod := rfl
@[simp] theorem State.raise_reg (k : ErrorKind) : (s.raise k).reg = s.reg := rfl
@[simp] theorem State.raise_rm (k : ErrorKind) : (s.raise k).rm = s.rm := rfl
@[simp] theorem State.raise_disp (k : ErrorKind) : (s.raise k).disp = s.disp := rfl
@[simp] theorem State.raise_imm (k : ErrorKind) : (s.raise k).imm = s.imm := rfl
@[simp] theorem State.raise_phase (k : ErrorKind) : (s.raise k).phase = .pErr := rfl
@[simp] theorem State.raise_unrecPolicy (k : ErrorKind) : (s.raise k).unrecPolicy = s.unrecPolicy := rfl
@[simp] theorem State.raise_modPolicy (k : ErrorKind) : (s.raise k).modPolicy = s.modPolicy := rfl
@[simp] theorem State.raise_directPolicy (k : ErrorKind) : (s.raise k).directPolicy = s.directPolicy := rfl
@[simp] theorem State.raise_records (k : ErrorKind) : (s.raise k).records = s.records := rfl
@[simp] theorem State.raise_request (k : ErrorKind) : (s.raise k).request = s.request := rfl

@[simp] theorem State.finish_src : (s.finish).src = s.src := rfl
@[simp] theorem State.finish_pc : (s.finish).pc = s.pc := rfl
@[simp] theorem State.finish_sink : (s.finish).sink = s.sink := rfl
@[simp] theorem State.finish_diag : (s.finish).diag = s.diag := rfl
@[simp] theorem State.finish_status : (s.finish).status = .doneOk := rfl
@[simp] theorem State.finish_result : (s.finish).result = some .ok := rfl
@[simp] theorem State.finish_insnStart : (s.finish).insnStart = s.insnStart := rfl
@[simp] theorem State.finish_b0 : (s.finish).b0 = s.b0 := rfl
@[simp] theorem State.finish_cls : (s.finish).cls = s.cls := rfl
@[simp] theorem State.finish_w : (s.finish).w = s.w := rfl
@[simp] theorem State.finish_d : (s.finish).d = s.d := rfl
@[simp] theorem State.finish_b1 : (s.finish).b1 = s.b1 := rfl
@[simp] theorem State.finish_mod : (s.finish).mod = s.mod := rfl
@[simp] theorem State.finish_reg : (s.finish).reg = s.reg := rfl
@[simp] theorem State.finish_rm : (s.finish).rm = s.rm := rfl
@[simp] theorem State.finish_disp : (s.finish).disp = s.disp := rfl
@[simp] theorem State.finish_imm : (s.finish).imm = s.imm := rfl
@[simp] theorem State.finish_phase : (s.finish).phase = .pOk := rfl
@[simp] theorem State.finish_unrecPolicy : (s.finish).unrecPolicy = s.unrecPolicy := rfl
@[simp] theorem State.finish_modPolicy : (s.finish).modPolicy = s.modPolicy := rfl
@[simp] theorem State.finish_directPolicy : (s.finish).directPolicy = s.directPolicy := rfl
@[simp] theorem State.finish_records : (s.finish).records = s.records := rfl
@[simp] theorem State.finish_request : (s.finish).request = s.request := rfl

@[simp] theorem State.startPass_src (r : PassRequest) : (s.startPass r).src = some (Memory.ofBytes r.stream) := rfl
@[simp] theorem State.startPass_pc (r : PassRequest) : (s.startPass r).pc = 0 := rfl
@[simp] theorem State.startPass_sink (r : PassRequest) : (s.startPass r).sink = some r.sink := rfl
@[simp] theorem State.startPass_diag (r : PassRequest) : (s.startPass r).diag = [] := rfl
@[simp] theorem State.startPass_status (r : PassRequest) : (s.startPass r).status = .run := rfl
@[simp] theorem State.startPass_result (r : PassRequest) : (s.startPass r).result = none := rfl
@[simp] theorem State.startPass_insnStart (r : PassRequest) : (s.startPass r).insnStart = s.insnStart := rfl
@[simp] theorem State.startPass_b0 (r : PassRequest) : (s.startPass r).b0 = s.b0 := rfl
@[simp] theorem State.startPass_cls (r : PassRequest) : (s.startPass r).cls = s.cls := rfl
@[simp] theorem State.startPass_w (r : PassRequest) : (s.startPass r).w = s.w := rfl
@[simp] theorem State.startPass_d (r : PassRequest) : (s.startPass r).d = s.d := rfl
@[simp] theorem State.startPass_b1 (r : PassRequest) : (s.startPass r).b1 = s.b1 := rfl
@[simp] theorem State.startPass_mod (r : PassRequest) : (s.startPass r).mod = s.mod := rfl
@[simp] theorem State.startPass_reg (r : PassRequest) : (s.startPass r).reg = s.reg := rfl
@[simp] theorem State.startPass_rm (r : PassRequest) : (s.startPass r).rm = s.rm := rfl
@[simp] theorem State.startPass_disp (r : PassRequest) : (s.startPass r).disp = s.disp := rfl
@[simp] theorem State.startPass_imm (r : PassRequest) : (s.startPass r).imm = s.imm := rfl
@[simp] theorem State.startPass_phase (r : PassRequest) : (s.startPass r).phase = .pHdr := rfl
@[simp] theorem State.startPass_unrecPolicy (r : PassRequest) : (s.startPass r).unrecPolicy = r.policies.unrec := rfl
@[simp] theorem State.startPass_modPolicy (r : PassRequest) : (s.startPass r).modPolicy = r.policies.modes := rfl
@[simp] theorem State.startPass_directPolicy (r : PassRequest) : (s.startPass r).directPolicy = r.policies.direct := rfl
@[simp] theorem State.startPass_records (r : PassRequest) : (s.startPass r).records = [] := rfl
@[simp] theorem State.startPass_request (r : PassRequest) : (s.startPass r).request = none := rfl

@[simp] theorem State.begin_src : (s.begin).src = s.src := rfl
@[simp] theorem State.begin_pc : (s.begin).pc = s.pc := rfl
@[simp] theorem State.begin_sink : (s.begin).sink = s.sink := rfl
@[simp] theorem State.begin_diag : (s.begin).diag = s.diag := rfl
@[simp] theorem State.begin_status : (s.begin).status = s.status := rfl
@[simp] theorem State.begin_result : (s.begin).result = s.result := rfl
@[simp] theorem State.begin_insnStart : (s.begin).insnStart = s.pc := rfl
@[simp] theorem State.begin_b0 : (s.begin).b0 = s.b0 := rfl
@[simp] theorem State.begin_cls : (s.begin).cls = s.cls := rfl
@[simp] theorem State.begin_w : (s.begin).w = s.w := rfl
@[simp] theorem State.begin_d : (s.begin).d = s.d := rfl
@[simp] theorem State.begin_b1 : (s.begin).b1 = s.b1 := rfl
@[simp] theorem State.begin_mod : (s.begin).mod = s.mod := rfl
@[simp] theorem State.begin_reg : (s.begin).reg = s.reg := rfl
@[simp] theorem State.begin_rm : (s.begin).rm = s.rm := rfl
@[simp] theorem State.begin_disp : (s.begin).disp = s.disp := rfl
@[simp] theorem State.begin_imm : (s.begin).imm = s.imm := rfl
@[simp] theorem State.begin_phase : (s.begin).phase = s.phase := rfl
@[simp] theorem State.begin_unrecPolicy : (s.begin).unrecPolicy = s.unrecPolicy := rfl
@[simp] theorem State.begin_modPolicy : (s.begin).modPolicy = s.modPolicy := rfl
@[simp] theorem State.begin_directPolicy : (s.begin).directPolicy = s.directPolicy := rfl
@[simp] theorem State.begin_records : (s.begin).records = s.records := rfl
@[simp] theorem State.begin_request : (s.begin).request = s.request := rfl

@[simp] theorem State.emit_src (l : Text) (r : InsnRecord) : (s.emit l r).src = s.src := rfl
@[simp] theorem State.emit_pc (l : Text) (r : InsnRecord) : (s.emit l r).pc = s.pc := rfl
@[simp] theorem State.emit_sink (l : Text) (r : InsnRecord) : (s.emit l r).sink = some (s.text ++ l ++ [newline]) := rfl
@[simp] theorem State.emit_diag (l : Text) (r : InsnRecord) : (s.emit l r).diag = s.diag := rfl
@[simp] theorem State.emit_status (l : Text) (r : InsnRecord) : (s.emit l r).status = s.status := rfl
@[simp] theorem State.emit_result (l : Text) (r : InsnRecord) : (s.emit l r).result = s.result := rfl
@[simp] theorem State.emit_insnStart (l : Text) (r : InsnRecord) : (s.emit l r).insnStart = s.insnStart := rfl
@[simp] theorem State.emit_b0 (l : Text) (r : InsnRecord) : (s.emit l r).b0 = s.b0 := rfl
@[simp] theorem State.emit_cls (l : Text) (r : InsnRecord) : (s.emit l r).cls = s.cls := rfl
@[simp] theorem State.emit_w (l : Text) (r : InsnRecord) : (s.emit l r).w = s.w := rfl
@[simp] theorem State.emit_d (l : Text) (r : InsnRecord) : (s.emit l r).d = s.d := rfl
@[simp] theorem State.emit_b1 (l : Text) (r : InsnRecord) : (s.emit l r).b1 = s.b1 := rfl
@[simp] theorem State.emit_mod (l : Text) (r : InsnRecord) : (s.emit l r).mod = s.mod := rfl
@[simp] theorem State.emit_reg (l : Text) (r : InsnRecord) : (s.emit l r).reg = s.reg := rfl
@[simp] theorem State.emit_rm (l : Text) (r : InsnRecord) : (s.emit l r).rm = s.rm := rfl
@[simp] theorem State.emit_disp (l : Text) (r : InsnRecord) : (s.emit l r).disp = s.disp := rfl
@[simp] theorem State.emit_imm (l : Text) (r : InsnRecord) : (s.emit l r).imm = s.imm := rfl
@[simp] theorem State.emit_phase (l : Text) (r : InsnRecord) : (s.emit l r).phase = .pB0 := rfl
@[simp] theorem State.emit_unrecPolicy (l : Text) (r : InsnRecord) : (s.emit l r).unrecPolicy = s.unrecPolicy := rfl
@[simp] theorem State.emit_modPolicy (l : Text) (r : InsnRecord) : (s.emit l r).modPolicy = s.modPolicy := rfl
@[simp] theorem State.emit_directPolicy (l : Text) (r : InsnRecord) : (s.emit l r).directPolicy = s.directPolicy := rfl
@[simp] theorem State.emit_records (l : Text) (r : InsnRecord) : (s.emit l r).records = s.records ++ [r] := rfl
@[simp] theorem State.emit_request (l : Text) (r : InsnRecord) : (s.emit l r).request = s.request := rfl

@[simp] theorem State.latchB0_src (b : Byte) : (s.latchB0 b).src = s.src := by
  unfold State.latchB0; cases h : classOf b <;> rfl
@[simp] theorem State.latchB0_pc (b : Byte) : (s.latchB0 b).pc = s.pc := by
  unfold State.latchB0; cases h : classOf b <;> rfl
@[simp] theorem State.latchB0_sink (b : Byte) : (s.latchB0 b).sink = s.sink := by
  unfold State.latchB0; cases h : classOf b <;> rfl
@[simp] theorem State.latchB0_diag (b : Byte) : (s.latchB0 b).diag = s.diag := by
  unfold State.latchB0; cases h : classOf b <;> rfl
@[simp] theorem State.latchB0_status (b : Byte) : (s.latchB0 b).status = s.status := by
  unfold State.latchB0; cases h : classOf b <;> rfl
@[simp] theorem State.latchB0_result (b : Byte) : (s.latchB0 b).result = s.result := by
  unfold State.latchB0; cases h : classOf b <;> rfl
@[simp] theorem State.latchB0_insnStart (b : Byte) : (s.latchB0 b).insnStart = s.insnStart := by
  unfold State.latchB0; cases h : classOf b <;> rfl
@[simp] theorem State.latchB0_b0 (b : Byte) : (s.latchB0 b).b0 = b := by
  unfold State.latchB0; cases h : classOf b <;> rfl
@[simp] theorem State.latchB0_cls (b : Byte) : (s.latchB0 b).cls = classOf b := by
  unfold State.latchB0; cases h : classOf b <;> rfl
@[simp] theorem State.latchB0_b1 (b : Byte) : (s.latchB0 b).b1 = s.b1 := by
  unfold State.latchB0; cases h : classOf b <;> rfl
@[simp] theorem State.latchB0_mod (b : Byte) : (s.latchB0 b).mod = s.mod := by
  unfold State.latchB0; cases h : classOf b <;> rfl
@[simp] theorem State.latchB0_rm (b : Byte) : (s.latchB0 b).rm = s.rm := by
  unfold State.latchB0; cases h : classOf b <;> rfl
@[simp] theorem State.latchB0_disp (b : Byte) : (s.latchB0 b).disp = s.disp := by
  unfold State.latchB0; cases h : classOf b <;> rfl
@[simp] theorem State.latchB0_imm (b : Byte) : (s.latchB0 b).imm = s.imm := by
  unfold State.latchB0; cases h : classOf b <;> rfl
@[simp] theorem State.latchB0_phase (b : Byte) : (s.latchB0 b).phase = s.phase := by
  unfold State.latchB0; cases h : classOf b <;> rfl
@[simp] theorem State.latchB0_unrecPolicy (b : Byte) : (s.latchB0 b).unrecPolicy = s.unrecPolicy := by
  unfold State.latchB0; cases h : classOf b <;> rfl
@[simp] theorem State.latchB0_modPolicy (b : Byte) : (s.latchB0 b).modPolicy = s.modPolicy := by
  unfold State.latchB0; cases h : classOf b <;> rfl
@[simp] theorem State.latchB0_directPolicy (b : Byte) : (s.latchB0 b).directPolicy = s.directPolicy := by
  unfold State.latchB0; cases h : classOf b <;> rfl
@[simp] theorem State.latchB0_records (b : Byte) : (s.latchB0 b).records = s.records := by
  unfold State.latchB0; cases h : classOf b <;> rfl
@[simp] theorem State.latchB0_request (b : Byte) : (s.latchB0 b).request = s.request := by
  unfold State.latchB0; cases h : classOf b <;> rfl

@[simp] theorem State.takeB0_src (b : Byte) : (s.takeB0 b).src = s.src := State.latchB0_src s b
@[simp] theorem State.takeB0_pc (b : Byte) : (s.takeB0 b).pc = s.pc + 1 := by
  simp [State.takeB0]
@[simp] theorem State.takeB0_sink (b : Byte) : (s.takeB0 b).sink = s.sink := State.latchB0_sink s b
@[simp] theorem State.takeB0_diag (b : Byte) : (s.takeB0 b).diag = s.diag := State.latchB0_diag s b
@[simp] theorem State.takeB0_status (b : Byte) : (s.takeB0 b).status = s.status := State.latchB0_status s b
@[simp] theorem State.takeB0_result (b : Byte) : (s.takeB0 b).result = s.result := State.latchB0_result s b
@[simp] theorem State.takeB0_insnStart (b : Byte) : (s.takeB0 b).insnStart = s.insnStart := State.latchB0_insnStart s b
@[simp] theorem State.takeB0_b0 (b : Byte) : (s.takeB0 b).b0 = b := State.latchB0_b0 s b
@[simp] theorem State.takeB0_cls (b : Byte) : (s.takeB0 b).cls = classOf b := State.latchB0_cls s b
@[simp] theorem State.takeB0_b1 (b : Byte) : (s.takeB0 b).b1 = s.b1 := State.latchB0_b1 s b
@[simp] theorem State.takeB0_mod (b : Byte) : (s.takeB0 b).mod = s.mod := State.latchB0_mod s b
@[simp] theorem State.takeB0_rm (b : Byte) : (s.takeB0 b).rm = s.rm := State.latchB0_rm s b
@[simp] theorem State.takeB0_disp (b : Byte) : (s.takeB0 b).disp = s.disp := State.latchB0_disp s b
@[simp] theorem State.takeB0_imm (b : Byte) : (s.takeB0 b).imm = s.imm := State.latchB0_imm s b
@[simp] theorem State.takeB0_phase (b : Byte) : (s.takeB0 b).phase = s.phase := State.latchB0_phase s b
@[simp] theorem State.takeB0_unrecPolicy (b : Byte) : (s.takeB0 b).unrecPolicy = s.unrecPolicy := State.latchB0_unrecPolicy s b
@[simp] theorem State.takeB0_modPolicy (b : Byte) : (s.takeB0 b).modPolicy = s.modPolicy := State.latchB0_modPolicy s b
@[simp] theorem State.takeB0_directPolicy (b : Byte) : (s.takeB0 b).directPolicy = s.directPolicy := State.latchB0_directPolicy s b
@[simp] theorem State.takeB0_records (b : Byte) : (s.takeB0 b).records = s.records := State.latchB0_records s b
@[simp] theorem State.takeB0_request (b : Byte) : (s.takeB0 b).request = s.request := State.latchB0_request s b

@[simp] theorem State.latchB1_src (b : Byte) : (s.latchB1 b).src = s.src := rfl
@[simp] theorem State.latchB1_pc (b : Byte) : (s.latchB1 b).pc = s.pc := rfl
@[simp] theorem State.latchB1_sink (b : Byte) : (s.latchB1 b).sink = s.sink := rfl
@[simp] theorem State.latchB1_diag (b : Byte) : (s.latchB1 b).diag = s.diag := rfl
@[simp] theorem State.latchB1_status (b : Byte) : (s.latchB1 b).status = s.status := rfl
@[simp] theorem State.latchB1_result (b : Byte) : (s.latchB1 b).result = s.result := rfl
@[simp] theorem State.latchB1_insnStart (b : Byte) : (s.latchB1 b).insnStart = s.insnStart := rfl
@[simp] theorem State.latchB1_b0 (b : Byte) : (s.latchB1 b).b0 = s.b0 := rfl
@[simp] theorem State.latchB1_cls (b : Byte) : (s.latchB1 b).cls = s.cls := rfl
@[simp] theorem State.latchB1_w (b : Byte) : (s.latchB1 b).w = s.w := rfl
@[simp] theorem State.latchB1_d (b : Byte) : (s.latchB1 b).d = s.d := rfl
@[simp] theorem State.latchB1_b1 (b : Byte) : (s.latchB1 b).b1 = b := rfl
@[simp] theorem State.latchB1_mod (b : Byte) : (s.latchB1 b).mod = modField b := rfl
@[simp] theorem State.latchB1_reg (b : Byte) : (s.latchB1 b).reg = midField b := rfl
@[simp] theorem State.latchB1_rm (b : Byte) : (s.latchB1 b).rm = lowField b := rfl
@[simp] theorem State.latchB1_disp (b : Byte) : (s.latchB1 b).disp = s.disp := rfl
@[simp] theorem State.latchB1_imm (b : Byte) : (s.latchB1 b).imm = s.imm := rfl
@[simp] theorem State.latchB1_phase (b : Byte) : (s.latchB1 b).phase = s.phase := rfl
@[simp] theorem State.latchB1_unrecPolicy (b : Byte) : (s.latchB1 b).unrecPolicy = s.unrecPolicy := rfl
@[simp] theorem State.latchB1_modPolicy (b : Byte) : (s.latchB1 b).modPolicy = s.modPolicy := rfl
@[simp] theorem State.latchB1_directPolicy (b : Byte) : (s.latchB1 b).directPolicy = s.directPolicy := rfl
@[simp] theorem State.latchB1_records (b : Byte) : (s.latchB1 b).records = s.records := rfl
@[simp] theorem State.latchB1_request (b : Byte) : (s.latchB1 b).request = s.request := rfl

@[simp] theorem State.takeB1_src (b : Byte) : (s.takeB1 b).src = s.src := rfl
@[simp] theorem State.takeB1_pc (b : Byte) : (s.takeB1 b).pc = s.pc + 1 := rfl
@[simp] theorem State.takeB1_sink (b : Byte) : (s.takeB1 b).sink = s.sink := rfl
@[simp] theorem State.takeB1_diag (b : Byte) : (s.takeB1 b).diag = s.diag := rfl
@[simp] theorem State.takeB1_status (b : Byte) : (s.takeB1 b).status = s.status := rfl
@[simp] theorem State.takeB1_result (b : Byte) : (s.takeB1 b).result = s.result := rfl
@[simp] theorem State.takeB1_insnStart (b : Byte) : (s.takeB1 b).insnStart = s.insnStart := rfl
@[simp] theorem State.takeB1_b0 (b : Byte) : (s.takeB1 b).b0 = s.b0 := rfl
@[simp] theorem State.takeB1_cls (b : Byte) : (s.takeB1 b).cls = s.cls := rfl
@[simp] theorem State.takeB1_w (b : Byte) : (s.takeB1 b).w = s.w := rfl
@[simp] theorem State.takeB1_d (b : Byte) : (s.takeB1 b).d = s.d := rfl
@[simp] theorem State.takeB1_b1 (b : Byte) : (s.takeB1 b).b1 = b := rfl
@[simp] theorem State.takeB1_mod (b : Byte) : (s.takeB1 b).mod = modField b := rfl
@[simp] theorem State.takeB1_reg (b : Byte) : (s.takeB1 b).reg = midField b := rfl
@[simp] theorem State.takeB1_rm (b : Byte) : (s.takeB1 b).rm = lowField b := rfl
@[simp] theorem State.takeB1_disp (b : Byte) : (s.takeB1 b).disp = s.disp := rfl
@[simp] theorem State.takeB1_imm (b : Byte) : (s.takeB1 b).imm = s.imm := rfl
@[simp] theorem State.takeB1_phase (b : Byte) : (s.takeB1 b).phase = s.phase := rfl
@[simp] theorem State.takeB1_unrecPolicy (b : Byte) : (s.takeB1 b).unrecPolicy = s.unrecPolicy := rfl
@[simp] theorem State.takeB1_modPolicy (b : Byte) : (s.takeB1 b).modPolicy = s.modPolicy := rfl
@[simp] theorem State.takeB1_directPolicy (b : Byte) : (s.takeB1 b).directPolicy = s.directPolicy := rfl
@[simp] theorem State.takeB1_records (b : Byte) : (s.takeB1 b).records = s.records := rfl
@[simp] theorem State.takeB1_request (b : Byte) : (s.takeB1 b).request = s.request := rfl

/-! ### The attached stream and sink under the updates -/

@[simp] theorem State.sinkLine_stream (l : Text) : (s.sinkLine l).stream = s.stream := by simp [State.stream]
@[simp] theorem State.addDiag_stream (k : ErrorKind) (o : Nat) (b : Byte) : (s.addDiag k o b).stream = s.stream := by simp [State.stream]
@[simp] theorem State.addDiag_text (k : ErrorKind) (o : Nat) (b : Byte) : (s.addDiag k o b).text = s.text := by simp [State.text]
@[simp] theorem State.raise_stream (k : ErrorKind) : (s.raise k).stream = s.stream := by simp [State.stream]
@[simp] theorem State.raise_text (k : ErrorKind) : (s.raise k).text = s.text := by simp [State.text]
@[simp] theorem State.finish_stream : (s.finish).stream = s.stream := by simp [State.stream]
@[simp] theorem State.finish_text : (s.finish).text = s.text := by simp [State.text]
@[simp] theorem State.begin_stream : (s.begin).stream = s.stream := by simp [State.stream]
@[simp] theorem State.begin_text : (s.begin).text = s.text := by simp [State.text]
@[simp] theorem State.emit_stream (l : Text) (r : InsnRecord) : (s.emit l r).stream = s.stream := by simp [State.stream]
@[simp] theorem State.latchB0_stream (b : Byte) : (s.latchB0 b).stream = s.stream := by simp [State.stream]
@[simp] theorem State.latchB0_text (b : Byte) : (s.latchB0 b).text = s.text := by simp [State.text]
@[simp] theorem State.takeB0_stream (b : Byte) : (s.takeB0 b).stream = s.stream := by simp [State.stream]
@[simp] theorem State.takeB0_text (b : Byte) : (s.takeB0 b).text = s.text := by simp [State.text]
@[simp] theorem State.latchB1_stream (b : Byte) : (s.latchB1 b).stream = s.stream := by simp [State.stream]
@[simp] theorem State.latchB1_text (b : Byte) : (s.latchB1 b).text = s.text := by simp [State.text]
@[simp] theorem State.takeB1_stream (b : Byte) : (s.takeB1 b).stream = s.stream := by simp [State.stream]
@[simp] theorem State.takeB1_text (b : Byte) : (s.takeB1 b).text = s.text := by simp [State.text]
@[simp] theorem State.sinkLine_text (l : Text) : (s.sinkLine l).text = s.text ++ l ++ [newline] := rfl
@[simp] theorem State.emit_text (l : Text) (r : InsnRecord) : (s.emit l r).text = s.text ++ l ++ [newline] := rfl
@[simp] theorem State.startPass_text (r : PassRequest) : (s.startPass r).text = r.sink := rfl
@[simp] theorem State.startPass_stream (r : PassRequest) : (s.startPass r).stream = Memory.ofBytes r.stream := rfl

/-! ### The fields of a leading byte, by its class (R37) -/

theorem State.takeB0_rmReg {b : Byte} (h : classOf b = .rmReg) :
    s.takeB0 b = { s with b0 := b, cls := .rmReg, w := sizeBit b, d := directionBit b, pc := s.pc + 1 } := by
  unfold State.takeB0 State.latchB0 State.advance; rw [h]

theorem State.takeB0_immRm {b : Byte} (h : classOf b = .immRm) :
    s.takeB0 b = { s with b0 := b, cls := .immRm, w := sizeBit b, pc := s.pc + 1 } := by
  unfold State.takeB0 State.latchB0 State.advance; rw [h]

theorem State.takeB0_immReg {b : Byte} (h : classOf b = .immReg) :
    s.takeB0 b = { s with b0 := b, cls := .immReg, w := immSizeBit b, reg := lowField b, pc := s.pc + 1 } := by
  unfold State.takeB0 State.latchB0 State.advance; rw [h]

theorem State.takeB0_unrec {b : Byte} (h : classOf b = .unrec) :
    s.takeB0 b = { s with b0 := b, cls := .unrec, pc := s.pc + 1 } := by
  unfold State.takeB0 State.latchB0 State.advance; rw [h]

end Sys2Proof.Machine
end

