-- ==== Sys2Proof/Laws/Ops.lean ====
section
/-! SUPPORT. Once for each shared operation that reads the stream: everything it can do. -/

namespace Sys2Proof.Machine

variable {s : State}

theorem State.next_some {b : Byte} (h : s.stream.read s.pc = some b) :
    s.next = (some b, s.advance 1) := by unfold State.next; rw [h]

theorem State.next_none (h : s.stream.read s.pc = none) : s.next = (none, s) := by unfold State.next; rw [h]

theorem State.need_some {f : Byte → State → State} {b : Byte} (h : s.stream.read s.pc = some b) :
    s.need f = f b (s.advance 1) := by unfold State.need; rw [State.next_some h]

theorem State.need_none {f : Byte → State → State} (h : s.stream.read s.pc = none) :
    s.need f = s.raise .endOfInputMidInstruction := by unfold State.need; rw [State.next_none h]

/-- The bytes of a value assembled from a window are that window (R62). -/
theorem littleEndian_one (b : Byte) : littleEndian 1 (b.setWidth 16) = [b] := by
  simp only [littleEndian, List.cons.injEq, and_true]
  apply BitVec.eq_of_toNat_eq
  have := b.isLt
  simp only [BitVec.toNat_setWidth]; omega

theorem littleEndian_two (lo hi : Byte) : littleEndian 2 (assemble lo hi) = [lo, hi] := by
  have h1 := lo.isLt
  have h2 := hi.isLt
  have h := assemble_toNat lo hi
  simp only [littleEndian, List.cons.injEq, and_true]
  constructor <;> apply BitVec.eq_of_toNat_eq
  · simp only [BitVec.toNat_setWidth, h]; omega
  · simp only [BitVec.extractLsb'_toNat, h, Nat.shiftRight_eq_div_pow]; omega

/-- A value of an `n`-byte field of the stream at `a`: it fits the field and its bytes are those there. -/
def Memory.Holds (m : Memory) (a n : Nat) (v : Word) : Prop :=
  fitsBytes n v = true ∧ m.window a n = littleEndian n v

theorem Memory.holds_zero (m : Memory) (a : Nat) : m.Holds a 0 0#16 := ⟨by decide, rfl⟩

theorem Memory.holds_one {m : Memory} {a : Nat} {b : Byte} (h : m.read a = some b) :
    m.Holds a 1 (b.setWidth 16) := by
  refine ⟨?_, ?_⟩
  · have := b.isLt
    simp only [fitsBytes, BitVec.toNat_setWidth, decide_eq_true_eq]; omega
  · rw [littleEndian_one]; simp [Memory.window, h]

theorem Memory.holds_two {m : Memory} {a : Nat} {lo hi : Byte} (h : m.read a = some lo)
    (h' : m.read (a + 1) = some hi) : m.Holds a 2 (assemble lo hi) := by
  refine ⟨?_, ?_⟩
  · have := (assemble lo hi).isLt
    simp only [fitsBytes, decide_eq_true_eq]; omega
  · rw [littleEndian_two]; simp [Memory.window, h, h']

/-- The stream has bytes from `a` up to `a + k` and none at `a + k`. -/
def Memory.EndsAfter (m : Memory) (a k : Nat) : Prop :=
  (∀ j, j < k → (m.read (a + j)).isSome = true) ∧ m.read (a + k) = none

/-- Reading a displacement of `n` bytes either has it all and goes on, or finds the stream exhausted after fewer. -/
theorem State.readDisp_cases {n : Nat} (hn : n ≤ 2) (f : State → State) (s : State) :
    (∃ v, s.stream.Holds s.pc n v ∧ s.readDisp n f = f ((s.advance n).setDisp v)) ∨
    (∃ k v, k < n ∧ s.stream.EndsAfter s.pc k ∧
      s.readDisp n f = State.raise .endOfInputMidInstruction ((s.advance k).setDisp v)) := by
  match n, hn with
  | 0, _ => exact .inl ⟨0#16, Memory.holds_zero _ _, rfl⟩
  | 1, _ =>
    unfold State.readDisp
    cases h : s.stream.read s.pc with
    | none => exact .inr ⟨0, s.disp, by omega, ⟨fun j hj => by omega, h⟩, State.need_none h⟩
    | some b => exact .inl ⟨b.setWidth 16, Memory.holds_one h, State.need_some h⟩
  | 2, _ =>
    show (∃ v, _ ∧ s.need _ = _) ∨ (∃ k v, _ ∧ _ ∧ s.need _ = _)
    cases h : s.stream.read s.pc with
    | none => exact .inr ⟨0, s.disp, by omega, ⟨fun j hj => by omega, h⟩, State.need_none h⟩
    | some lo =>
      rw [State.need_some h]
      cases h' : s.stream.read (s.pc + 1) with
      | none =>
        refine .inr ⟨1, lo.setWidth 16, by omega, ⟨fun j hj => ?_, h'⟩, State.need_none h'⟩
        rw [show j = 0 by omega, Nat.add_zero, h]; rfl
      | some hi => exact .inl ⟨assemble lo hi, Memory.holds_two h h', State.need_some h'⟩

/-- Reading the immediate, likewise. -/
theorem State.readImm_cases (w : Bit) (f : State → State) (s : State) :
    (∃ v, s.stream.Holds s.pc (immLen w) v ∧ s.readImm w f = f ((s.advance (immLen w)).setImm v)) ∨
    (∃ k v, k < immLen w ∧ s.stream.EndsAfter s.pc k ∧
      s.readImm w f = State.raise .endOfInputMidInstruction ((s.advance k).setImm v)) := by
  cases w with
  | false =>
    simp only [State.readImm, immLen, Bool.false_eq_true, if_false]
    cases h : s.stream.read s.pc with
    | none => exact .inr ⟨0, s.imm, by omega, ⟨fun j hj => by omega, h⟩, State.need_none h⟩
    | some b => exact .inl ⟨b.setWidth 16, Memory.holds_one h, State.need_some h⟩
  | true =>
    simp only [State.readImm, immLen, if_true]
    cases h : s.stream.read s.pc with
    | none => exact .inr ⟨0, s.imm, by omega, ⟨fun j hj => by omega, h⟩, State.need_none h⟩
    | some lo =>
      rw [State.need_some h]
      cases h' : s.stream.read (s.pc + 1) with
      | none =>
        refine .inr ⟨1, lo.setWidth 16, by omega, ⟨fun j hj => ?_, h'⟩, State.need_none h'⟩
        rw [show j = 0 by omega, Nat.add_zero, h]; rfl
      | some hi => exact .inl ⟨assemble lo hi, Memory.holds_two h h', State.need_some h'⟩

theorem dispLen_le (mod : Mode2) (rm : Sel3) : dispLen mod rm ≤ 2 := by
  unfold dispLen; repeat' split
  all_goals omega

/-- Resolving the `rm` operand: the special case under `FAIL`, or the displacement is read. -/
theorem State.resolveRm_cases (mod : Mode2) (rm : Sel3) (f : State → State) (s : State) :
    (directFails s.directPolicy mod rm = true ∧ s.resolveRm mod rm f = s.raise .directAddressUnimplemented) ∨
    (directFails s.directPolicy mod rm = false ∧ s.resolveRm mod rm f = s.readDisp (dispLen mod rm) f) := by
  unfold State.resolveRm
  cases h : directFails s.directPolicy mod rm
  · exact .inr ⟨rfl, rfl⟩
  · exact .inl ⟨rfl, rfl⟩

end Sys2Proof.Machine
end

