-- ==== Sys2Proof/Laws/Exec.lean ====
section
/-! SUPPORT. Everything an encoding row can do, once: the opcode bytes are consumed and latched, and then the row's
handler fails at the second byte, or finds the stream exhausted, or decodes the instruction. -/

namespace Sys2Proof.Machine

/-! ### Windows -/

theorem Memory.window_append {m : Memory} {a p : Nat} (q : Nat) (h : (m.window a p).length = p) :
    m.window a (p + q) = m.window a p ++ m.window (a + p) q := by
  induction p generalizing a with
  | zero => simp [Memory.window]
  | succ p ih =>
    rw [show p + 1 + q = (p + q) + 1 by omega]
    simp only [Memory.window] at h ⊢
    cases e : m.read a with
    | none => simp [e] at h
    | some b =>
      simp only [e, List.length_cons, Nat.add_right_cancel_iff] at h
      simp only [ih h, List.cons_append]
      rw [show a + 1 + p = a + (p + 1) by omega]

theorem littleEndian_length {n : Nat} (hn : n ≤ 2) (v : Word) : (littleEndian n v).length = n := by
  match n, hn with
  | 0, _ => rfl
  | 1, _ => rfl
  | 2, _ => rfl

/-- A displacement field followed by an immediate field. -/
theorem Memory.holds_append {m : Memory} {a p q : Nat} {v v' : Word} (hp : p ≤ 2) (h : m.Holds a p v)
    (h' : m.Holds (a + p) q v') : m.window a (p + q) = littleEndian p v ++ littleEndian q v' := by
  rw [Memory.window_append q (by rw [h.2, littleEndian_length hp]), h.2, h'.2]

theorem Memory.endsAfter_append {m : Memory} {a p k : Nat} {v : Word} (hp : p ≤ 2) (h : m.Holds a p v)
    (h' : m.EndsAfter (a + p) k) : m.EndsAfter a (p + k) := by
  refine ⟨fun j hj => ?_, by rw [← Nat.add_assoc]; exact h'.2⟩
  by_cases e : j < p
  · have hw := h.2
    match p, hp with
    | 1, _ =>
      obtain rfl : j = 0 := by omega
      cases r : m.read a with
      | none => simp [Memory.window, r, littleEndian] at hw
      | some b => simp
    | 2, _ =>
      cases r : m.read a
      · simp [Memory.window, r, littleEndian] at hw
      · cases r' : m.read (a + 1)
        · simp [Memory.window, r, r', littleEndian] at hw
        · obtain rfl | rfl : j = 0 ∨ j = 1 := by omega
          · simp [r]
          · simp [r']
  · have := h'.1 (j - p) (by omega)
    rwa [show a + p + (j - p) = a + j by omega] at this

/-! ### Opening an instruction -/

section Opened
variable (i : Instr) (s : State)

@[simp] theorem State.openInsn_src : (s.openInsn i).src = s.src := by unfold State.openInsn; split <;> simp
@[simp] theorem State.openInsn_sink : (s.openInsn i).sink = s.sink := by unfold State.openInsn; split <;> simp
@[simp] theorem State.openInsn_diag : (s.openInsn i).diag = s.diag := by unfold State.openInsn; split <;> simp
@[simp] theorem State.openInsn_status : (s.openInsn i).status = s.status := by unfold State.openInsn; split <;> simp
@[simp] theorem State.openInsn_result : (s.openInsn i).result = s.result := by unfold State.openInsn; split <;> simp
@[simp] theorem State.openInsn_disp : (s.openInsn i).disp = s.disp := by unfold State.openInsn; split <;> simp
@[simp] theorem State.openInsn_imm : (s.openInsn i).imm = s.imm := by unfold State.openInsn; split <;> simp
@[simp] theorem State.openInsn_phase : (s.openInsn i).phase = s.phase := by unfold State.openInsn; split <;> simp
@[simp] theorem State.openInsn_unrecPolicy : (s.openInsn i).unrecPolicy = s.unrecPolicy := by
  unfold State.openInsn; split <;> simp
@[simp] theorem State.openInsn_modPolicy : (s.openInsn i).modPolicy = s.modPolicy := by
  unfold State.openInsn; split <;> simp
@[simp] theorem State.openInsn_directPolicy : (s.openInsn i).directPolicy = s.directPolicy := by
  unfold State.openInsn; split <;> simp
@[simp] theorem State.openInsn_records : (s.openInsn i).records = s.records := by
  unfold State.openInsn; split <;> simp
@[simp] theorem State.openInsn_request : (s.openInsn i).request = s.request := by
  unfold State.openInsn; split <;> simp
@[simp] theorem State.openInsn_insnStart : (s.openInsn i).insnStart = s.pc := by
  unfold State.openInsn; split <;> simp
@[simp] theorem State.openInsn_stream : (s.openInsn i).stream = s.stream := by simp [State.stream]
@[simp] theorem State.openInsn_text : (s.openInsn i).text = s.text := by simp [State.text]

@[simp] theorem State.openInsn_pc : (s.openInsn i).pc = s.pc + (encode i).length := by
  cases i <;> simp [State.openInsn, encode]

@[simp] theorem State.openInsn_cls : (s.openInsn i).cls = i.cls := by
  cases i <;> simp [State.openInsn, encode, Instr.cls]

end Opened

/-! ### The handlers -/

/-- Everything `H_RM_REG` can do once `b1` is read (R180, R189). -/
theorem handleRmReg_cases (d w : Bit) (mod : Mode2) (reg rm : Sel3) (u : State) :
    (modeRejected u.modPolicy mod = true ∧ handleRmReg d w mod reg rm u = u.raise .malformedSecondByte) ∨
    (modeRejected u.modPolicy mod = false ∧ directFails u.directPolicy mod rm = true ∧
      handleRmReg d w mod reg rm u = u.raise .directAddressUnimplemented) ∨
    (modeRejected u.modPolicy mod = false ∧ directFails u.directPolicy mod rm = false ∧
      ∃ k v, k < dispLen mod rm ∧ u.stream.EndsAfter u.pc k ∧
        handleRmReg d w mod reg rm u = ((u.advance k).setDisp v).raise .endOfInputMidInstruction) ∨
    (modeRejected u.modPolicy mod = false ∧ directFails u.directPolicy mod rm = false ∧
      ∃ v, u.stream.Holds u.pc (dispLen mod rm) v ∧
        handleRmReg d w mod reg rm u = ((u.advance (dispLen mod rm)).setDisp v).emit (rmRegLine d w mod reg rm v)
          (rmRegRecord d w mod reg rm v (u.pc + dispLen mod rm - u.insnStart))) := by
  unfold handleRmReg
  cases hm : modeRejected u.modPolicy mod
  · right
    rw [if_neg Bool.false_ne_true]
    rcases State.resolveRm_cases mod rm
      (fun s => s.emit (rmRegLine d w mod reg rm s.disp) (rmRegRecord d w mod reg rm s.disp (s.pc - s.insnStart))) u
      with ⟨hd, h⟩ | ⟨hd, h⟩
    · exact .inl ⟨rfl, hd, h⟩
    · right
      rcases State.readDisp_cases (dispLen_le mod rm)
        (fun s => s.emit (rmRegLine d w mod reg rm s.disp) (rmRegRecord d w mod reg rm s.disp (s.pc - s.insnStart))) u
        with ⟨v, hv, e⟩ | ⟨k, v, hk, he, e⟩
      · exact .inr ⟨rfl, hd, v, hv, by rw [h, e]; rfl⟩
      · exact .inl ⟨rfl, hd, k, v, hk, he, by rw [h, e]⟩
  · exact .inl ⟨rfl, if_pos rfl⟩

/-- Everything `H_IMM_REG` can do once `b0` is read (R200). -/
theorem handleImmReg_cases (w : Bit) (reg : Sel3) (u : State) :
    (∃ k v, k < immLen w ∧ u.stream.EndsAfter u.pc k ∧
      handleImmReg w reg u = ((u.advance k).setImm v).raise .endOfInputMidInstruction) ∨
    (∃ v, u.stream.Holds u.pc (immLen w) v ∧
      handleImmReg w reg u = ((u.advance (immLen w)).setImm v).emit (immRegLine w reg v)
        (immRegRecord w reg v (u.pc + immLen w - u.insnStart))) := by
  unfold handleImmReg
  rcases State.readImm_cases w
    (fun s => s.emit (immRegLine w reg s.imm) (immRegRecord w reg s.imm (s.pc - s.insnStart))) u
    with ⟨v, hv, e⟩ | ⟨k, v, hk, he, e⟩
  · exact .inr ⟨v, hv, by rw [e]; rfl⟩
  · exact .inl ⟨k, v, hk, he, e⟩

/-- Everything `H_IMM_RM` can do once `b1` is read (R210). -/
theorem handleImmRm_cases (w : Bit) (mod : Mode2) (rm : Sel3) (u : State) :
    (directFails u.directPolicy mod rm = true ∧
      handleImmRm w mod rm u = u.raise .directAddressUnimplemented) ∨
    (directFails u.directPolicy mod rm = false ∧
      ((∃ k v, k < dispLen mod rm ∧ u.stream.EndsAfter u.pc k ∧
          handleImmRm w mod rm u = ((u.advance k).setDisp v).raise .endOfInputMidInstruction) ∨
       (∃ v, u.stream.Holds u.pc (dispLen mod rm) v ∧
        ((∃ k v', k < immLen w ∧ u.stream.EndsAfter (u.pc + dispLen mod rm) k ∧
            handleImmRm w mod rm u =
              ((((u.advance (dispLen mod rm)).setDisp v).advance k).setImm v').raise .endOfInputMidInstruction) ∨
         (∃ v', u.stream.Holds (u.pc + dispLen mod rm) (immLen w) v' ∧
            handleImmRm w mod rm u =
              ((((u.advance (dispLen mod rm)).setDisp v).advance (immLen w)).setImm v').emit
                (immRmLine w mod rm v v')
                (immRmRecord w mod rm v v' (u.pc + dispLen mod rm + immLen w - u.insnStart))))))) := by
  unfold handleImmRm
  generalize hf : (fun s : State => s.readImm w fun s => s.emit (immRmLine w mod rm s.disp s.imm)
    (immRmRecord w mod rm s.disp s.imm (s.pc - s.insnStart))) = f
  rcases State.resolveRm_cases mod rm f u with ⟨hd, h⟩ | ⟨hd, h⟩
  · exact .inl ⟨hd, h⟩
  · refine .inr ⟨hd, ?_⟩
    rcases State.readDisp_cases (dispLen_le mod rm) f u with ⟨v, hv, e⟩ | ⟨k, v, hk, he, e⟩
    · refine .inr ⟨v, hv, ?_⟩
      have hfv : f ((u.advance (dispLen mod rm)).setDisp v) = _ := congrFun hf.symm _
      rcases State.readImm_cases w (fun s => s.emit (immRmLine w mod rm s.disp s.imm)
        (immRmRecord w mod rm s.disp s.imm (s.pc - s.insnStart))) ((u.advance (dispLen mod rm)).setDisp v)
        with ⟨v', hv', e'⟩ | ⟨k, v', hk, he, e'⟩
      · exact .inr ⟨v', hv', by rw [h, e, hfv]; exact e'⟩
      · exact .inl ⟨k, v', hk, he, by rw [h, e, hfv]; exact e'⟩
    · exact .inl ⟨k, v, hk, he, by rw [h, e]⟩

/-! ### The rows -/

/-- Does the row's class read a displacement latch. -/
def latchesDisp (i : Instr) : Bool := hasSecondByte i.cls

/-- Everything a row can do: `MalformedSecondByte`, `DirectAddressUnimplemented`, the stream exhausted after `k` of the
trailing bytes, or the instruction decoded with operands `o` that are the stream's bytes. -/
inductive RowOutcome (i : Instr) (s t : State) : Prop where
  | malformed (hm : i.isRmRegMemory = true) (hp : s.modPolicy = .regOnly)
      (ht : t = (s.openInsn i).raise .malformedSecondByte)
  | direct (hm : i.isRmRegMemory = true → s.modPolicy = .full) (hd : i.isDirect = true) (hp : s.directPolicy = .fail)
      (ht : t = (s.openInsn i).raise .directAddressUnimplemented)
  | exhausted (ha : s.accepts i) (k : Nat) (v v' : Word) (hk : k < i.dispBytes + i.immBytes)
      (he : s.stream.EndsAfter (s.pc + (encode i).length) k)
      (hv : latchesDisp i = false → v = s.disp) (hv' : i.immBytes = 0 → v' = s.imm)
      (ht : t = ((((s.openInsn i).advance k).setDisp v).setImm v').raise .endOfInputMidInstruction)
  | decoded (ha : s.accepts i) (o : Operands) (ho : o.fit i = true)
      (hw : s.stream.window (s.pc + (encode i).length) (i.dispBytes + i.immBytes) =
        littleEndian i.dispBytes o.disp ++ littleEndian i.immBytes o.imm)
      (ht : t = ((((s.openInsn i).advance (i.dispBytes + i.immBytes)).setDisp
        (if latchesDisp i then o.disp else s.disp)).setImm (if i.immBytes = 0 then s.imm else o.imm)).emit
          (wholeLine i o) (wholeRecord i o))

theorem State.advance_advance (s : State) (a b : Nat) : (s.advance a).advance b = s.advance (a + b) := by
  simp [State.advance, Nat.add_assoc]
theorem State.setDisp_advance (s : State) (v : Word) (n : Nat) : (s.setDisp v).advance n = (s.advance n).setDisp v := rfl
theorem State.setDisp_self (s : State) : s.setDisp s.disp = s := rfl
theorem State.setImm_self (s : State) : s.setImm s.imm = s := rfl
theorem State.advance_zero (s : State) : s.advance 0 = s := rfl

theorem Memory.holds_absent {m : Memory} {a : Nat} {v : Word} (h : m.Holds a 0 v) : v = 0#16 := by
  apply BitVec.eq_of_toNat_eq
  have := h.1
  simp only [fitsBytes, decide_eq_true_eq] at this
  simp only [BitVec.toNat_ofNat]; omega

/-- A row of class `RM_REG`: its outcome follows from the handler's. -/
theorem RowOutcome.of_rmReg {i : Instr} {d w : Bit} {mod : Mode2} {reg rm : Sel3} {s : State}
    (hmem : i.isRmRegMemory = (mod != 3#2)) (hdir : i.isDirect = (operandKind mod rm == .direct))
    (hdisp : i.dispBytes = dispLen mod rm) (himm : i.immBytes = 0) (hlen : (encode i).length = 2)
    (hcls : i.cls = .rmReg)
    (hline : ∀ o, wholeLine i o = rmRegLine d w mod reg rm o.disp)
    (hrec : ∀ o, wholeRecord i o = rmRegRecord d w mod reg rm o.disp (2 + dispLen mod rm)) :
    RowOutcome i s (handleRmReg d w mod reg rm (s.openInsn i)) := by
  have hacc : modeRejected (s.openInsn i).modPolicy mod = false → directFails (s.openInsn i).directPolicy mod rm = false →
      s.accepts i := by
    intro h1 h2
    simp only [State.openInsn_modPolicy, State.openInsn_directPolicy, modeRejected, directFails] at h1 h2
    constructor
    · intro h; rw [hmem] at h; cases e : s.modPolicy <;> simp_all
    · intro h; rw [hdir] at h; cases e : s.directPolicy <;> simp_all
  rcases handleRmReg_cases d w mod reg rm (s.openInsn i) with ⟨h1, e⟩ | ⟨h1, h2, e⟩ | ⟨h1, h2, k, v, hk, he, e⟩ |
    ⟨h1, h2, v, hv, e⟩
  · simp only [State.openInsn_modPolicy, modeRejected, Bool.and_eq_true, beq_iff_eq] at h1
    exact .malformed (by rw [hmem]; exact h1.2) h1.1 e
  · simp only [State.openInsn_directPolicy, directFails, Bool.and_eq_true, beq_iff_eq] at h2
    refine .direct ?_ (by rw [hdir]; simp [h2.2]) h2.1 e
    intro h; rw [hmem] at h
    simp only [State.openInsn_modPolicy, modeRejected] at h1
    cases e : s.modPolicy <;> simp_all
  · refine .exhausted (hacc h1 h2) k v s.imm (by omega) (by simpa [hlen] using he) ?_ (fun _ => rfl) ?_
    · intro h; simp [latchesDisp, hcls, hasSecondByte] at h
    · rw [e, ← State.openInsn_imm i s]; rfl
  · have hz : (⟨v, 0#16⟩ : Operands).fit i = true := by
      simp only [Operands.fit, hdisp, himm, Bool.and_eq_true]; exact ⟨hv.1, by decide⟩
    refine .decoded (hacc h1 h2) ⟨v, 0#16⟩ hz ?_ ?_
    · simpa [hdisp, himm, hlen, littleEndian] using hv.2
    · rw [e, hline, hrec, hdisp, himm, if_pos rfl, if_pos (by simp [latchesDisp, hcls, hasSecondByte])]
      simp only [State.openInsn_pc, State.openInsn_insnStart, hlen]
      rw [show s.pc + 2 + dispLen mod rm - s.pc = 2 + dispLen mod rm by omega, ← State.openInsn_imm i s]
      rfl

/-- A row of class `IMM_REG`. -/
theorem RowOutcome.of_immReg {i : Instr} {w : Bit} {reg : Sel3} {s : State}
    (hmem : i.isRmRegMemory = false) (hdir : i.isDirect = false) (hdisp : i.dispBytes = 0)
    (himm : i.immBytes = immLen w) (hlen : (encode i).length = 1) (hcls : i.cls = .immReg)
    (hline : ∀ o, wholeLine i o = immRegLine w reg o.imm)
    (hrec : ∀ o, wholeRecord i o = immRegRecord w reg o.imm (1 + immLen w)) :
    RowOutcome i s (handleImmReg w reg (s.openInsn i)) := by
  have hacc : s.accepts i := ⟨by simp [hmem], by simp [hdir]⟩
  have hpos : immLen w ≠ 0 := by cases w <;> decide
  have hno : latchesDisp i = false := by simp [latchesDisp, hcls, hasSecondByte]
  rcases handleImmReg_cases w reg (s.openInsn i) with ⟨k, v, hk, he, e⟩ | ⟨v, hv, e⟩
  · refine .exhausted hacc k s.disp v (by omega) (by simpa [hlen] using he) (fun _ => rfl) (by omega) ?_
    rw [e]; congr 2
    rw [← State.openInsn_disp i s]; rfl
  · refine .decoded hacc ⟨0#16, v⟩ ?_ ?_ ?_
    · simp only [Operands.fit, hdisp, himm, Bool.and_eq_true]; exact ⟨by decide, hv.1⟩
    · simpa [hdisp, himm, hlen, littleEndian] using hv.2
    · rw [e, hline, hrec, hdisp, himm, if_neg hpos, hno, if_neg Bool.false_ne_true, Nat.zero_add]
      simp only [State.openInsn_pc, State.openInsn_insnStart, hlen]
      rw [show s.pc + 1 + immLen w - s.pc = 1 + immLen w by omega]
      congr 2
      rw [← State.openInsn_disp i s]; rfl

/-- A row of class `IMM_RM`. -/
theorem RowOutcome.of_immRm {i : Instr} {w : Bit} {mod : Mode2} {rm : Sel3} {s : State}
    (hmem : i.isRmRegMemory = false) (hdir : i.isDirect = (operandKind mod rm == .direct))
    (hdisp : i.dispBytes = dispLen mod rm) (himm : i.immBytes = immLen w) (hlen : (encode i).length = 2)
    (hcls : i.cls = .immRm)
    (hline : ∀ o, wholeLine i o = immRmLine w mod rm o.disp o.imm)
    (hrec : ∀ o, wholeRecord i o = immRmRecord w mod rm o.disp o.imm (2 + dispLen mod rm + immLen w)) :
    RowOutcome i s (handleImmRm w mod rm (s.openInsn i)) := by
  have hpos : immLen w ≠ 0 := by cases w <;> decide
  have hyes : latchesDisp i = true := by simp [latchesDisp, hcls, hasSecondByte]
  have hacc : directFails (s.openInsn i).directPolicy mod rm = false → s.accepts i := by
    intro h2
    simp only [State.openInsn_directPolicy, directFails] at h2
    refine ⟨by simp [hmem], ?_⟩
    intro h; rw [hdir] at h; cases e : s.directPolicy <;> simp_all
  rcases handleImmRm_cases w mod rm (s.openInsn i) with ⟨h2, e⟩ | ⟨h2, ⟨k, v, hk, he, e⟩ | ⟨v, hv,
    ⟨k, v', hk, he, e⟩ | ⟨v', hv', e⟩⟩⟩
  · simp only [State.openInsn_directPolicy, directFails, Bool.and_eq_true, beq_iff_eq] at h2
    exact .direct (by simp [hmem]) (by rw [hdir]; simp [h2.2]) h2.1 e
  · refine .exhausted (hacc h2) k v s.imm (by omega) (by simpa [hlen] using he) (by simp [hyes]) (fun _ => rfl) ?_
    rw [e, ← State.openInsn_imm i s]; rfl
  · refine .exhausted (hacc h2) (dispLen mod rm + k) v v' (by omega) ?_ (by simp [hyes]) (by omega) ?_
    · have := Memory.endsAfter_append (dispLen_le mod rm) hv he
      simpa [hlen] using this
    · rw [e, State.setDisp_advance, State.advance_advance]
  · refine .decoded (hacc h2) ⟨v, v'⟩ ?_ ?_ ?_
    · simp only [Operands.fit, hdisp, himm, Bool.and_eq_true]; exact ⟨hv.1, hv'.1⟩
    · have := Memory.holds_append (dispLen_le mod rm) hv hv'
      simpa [hdisp, himm, hlen] using this
    · rw [e, hline, hrec, hdisp, himm, if_neg hpos, hyes, if_pos rfl, State.setDisp_advance, State.advance_advance]
      simp only [State.openInsn_pc, State.openInsn_insnStart, hlen]
      rw [show s.pc + 2 + dispLen mod rm + immLen w - s.pc = 2 + dispLen mod rm + immLen w by omega]

/-- Executing a well-formed row answers a next state, which is one of its outcomes. -/
theorem exec_outcome {i : Instr} (hi : i.wellFormed = true) (s : State) : ∃ t, exec i s = .next t ∧ RowOutcome i s t := by
  cases i with
  | movRmRegRr d w reg rm => exact ⟨_, rfl, .of_rmReg rfl rfl rfl rfl rfl rfl (fun _ => rfl) (fun _ => rfl)⟩
  | movRmRegDirect d w reg => exact ⟨_, rfl, .of_rmReg rfl rfl rfl rfl rfl rfl (fun _ => rfl) (fun _ => rfl)⟩
  | movRmRegM0 d w reg rm =>
    have h : rm ≠ Sel3.direct := by simpa [Instr.wellFormed] using hi
    have hl : dispLen 0#2 rm = 0 := by simp [dispLen, h]
    refine ⟨_, rfl, .of_rmReg rfl ?_ ?_ rfl rfl rfl (fun _ => rfl) (fun _ => ?_)⟩
    · simp [Instr.isDirect, operandKind, h]
    · rw [hl]; rfl
    · rw [hl]; rfl
  | movRmRegM8 d w reg rm => exact ⟨_, rfl, .of_rmReg rfl rfl rfl rfl rfl rfl (fun _ => rfl) (fun _ => rfl)⟩
  | movRmRegM16 d w reg rm => exact ⟨_, rfl, .of_rmReg rfl rfl rfl rfl rfl rfl (fun _ => rfl) (fun _ => rfl)⟩
  | movRegImmB reg => exact ⟨_, rfl, .of_immReg rfl rfl rfl rfl rfl rfl (fun _ => rfl) (fun _ => rfl)⟩
  | movRegImmW reg => exact ⟨_, rfl, .of_immReg rfl rfl rfl rfl rfl rfl (fun _ => rfl) (fun _ => rfl)⟩
  | movRmImmRrB x rm => exact ⟨_, rfl, .of_immRm rfl rfl rfl rfl rfl rfl (fun _ => rfl) (fun _ => rfl)⟩
  | movRmImmRrW x rm => exact ⟨_, rfl, .of_immRm rfl rfl rfl rfl rfl rfl (fun _ => rfl) (fun _ => rfl)⟩
  | movRmImmDirectB x => exact ⟨_, rfl, .of_immRm rfl rfl rfl rfl rfl rfl (fun _ => rfl) (fun _ => rfl)⟩
  | movRmImmDirectW x => exact ⟨_, rfl, .of_immRm rfl rfl rfl rfl rfl rfl (fun _ => rfl) (fun _ => rfl)⟩
  | movRmImmM0B x rm =>
    have h : rm ≠ Sel3.direct := by simpa [Instr.wellFormed] using hi
    have hl : dispLen 0#2 rm = 0 := by simp [dispLen, h]
    refine ⟨_, rfl, .of_immRm rfl ?_ ?_ rfl rfl rfl (fun _ => rfl) (fun _ => ?_)⟩
    · simp [Instr.isDirect, operandKind, h]
    · rw [hl]; rfl
    · rw [hl]; rfl
  | movRmImmM0W x rm =>
    have h : rm ≠ Sel3.direct := by simpa [Instr.wellFormed] using hi
    have hl : dispLen 0#2 rm = 0 := by simp [dispLen, h]
    refine ⟨_, rfl, .of_immRm rfl ?_ ?_ rfl rfl rfl (fun _ => rfl) (fun _ => ?_)⟩
    · simp [Instr.isDirect, operandKind, h]
    · rw [hl]; rfl
    · rw [hl]; rfl
  | movRmImmM8B x rm => exact ⟨_, rfl, .of_immRm rfl rfl rfl rfl rfl rfl (fun _ => rfl) (fun _ => rfl)⟩
  | movRmImmM8W x rm => exact ⟨_, rfl, .of_immRm rfl rfl rfl rfl rfl rfl (fun _ => rfl) (fun _ => rfl)⟩
  | movRmImmM16B x rm => exact ⟨_, rfl, .of_immRm rfl rfl rfl rfl rfl rfl (fun _ => rfl) (fun _ => rfl)⟩
  | movRmImmM16W x rm => exact ⟨_, rfl, .of_immRm rfl rfl rfl rfl rfl rfl (fun _ => rfl) (fun _ => rfl)⟩

end Sys2Proof.Machine
end

