-- ==== Sys2Proof/Laws/PerInstr.lean ====
section
/-! SUPPORT. A statement about every instruction as syntax: its opcode bytes are one or two by its class, the first
of them is classified as its class, and with its trailing bytes it is 2 to 6 bytes long
(spec/30_encoding.md R90, R97, R101). -/

namespace Sys2Proof.Laws.OpcodeShape

/-- The shape of a row's opcode bytes and its length. -/
def Statement (i : Instr) : Prop :=
  (encode i).length = (match i.cls with | .immReg => 1 | .rmReg | .immRm | .unrec => 2) ∧
  (encode i).head?.map classOf = some i.cls ∧ i.cls ≠ .unrec ∧ 2 ≤ i.length ∧ i.length ≤ 6

theorem movRmRegRr (d w : Bit) (reg rm : Sel3) : Statement (.movRmRegRr d w reg rm) := by
  simp [Statement, encode, Instr.cls, Instr.length, Instr.dispBytes, Instr.immBytes]

theorem movRmRegDirect (d w : Bit) (reg : Sel3) : Statement (.movRmRegDirect d w reg) := by
  simp [Statement, encode, Instr.cls, Instr.length, Instr.dispBytes, Instr.immBytes]

theorem movRmRegM0 (d w : Bit) (reg rm : Sel3) : Statement (.movRmRegM0 d w reg rm) := by
  simp [Statement, encode, Instr.cls, Instr.length, Instr.dispBytes, Instr.immBytes]

theorem movRmRegM8 (d w : Bit) (reg rm : Sel3) : Statement (.movRmRegM8 d w reg rm) := by
  simp [Statement, encode, Instr.cls, Instr.length, Instr.dispBytes, Instr.immBytes]

theorem movRmRegM16 (d w : Bit) (reg rm : Sel3) : Statement (.movRmRegM16 d w reg rm) := by
  simp [Statement, encode, Instr.cls, Instr.length, Instr.dispBytes, Instr.immBytes]

theorem movRegImmB (reg : Sel3) : Statement (.movRegImmB reg) := by
  simp [Statement, encode, Instr.cls, Instr.length, Instr.dispBytes, Instr.immBytes]

theorem movRegImmW (reg : Sel3) : Statement (.movRegImmW reg) := by
  simp [Statement, encode, Instr.cls, Instr.length, Instr.dispBytes, Instr.immBytes]

theorem movRmImmRrB (x rm : Sel3) : Statement (.movRmImmRrB x rm) := by
  simp [Statement, encode, Instr.cls, Instr.length, Instr.dispBytes, Instr.immBytes]

theorem movRmImmRrW (x rm : Sel3) : Statement (.movRmImmRrW x rm) := by
  simp [Statement, encode, Instr.cls, Instr.length, Instr.dispBytes, Instr.immBytes]

theorem movRmImmDirectB (x : Sel3) : Statement (.movRmImmDirectB x) := by
  simp [Statement, encode, Instr.cls, Instr.length, Instr.dispBytes, Instr.immBytes]

theorem movRmImmDirectW (x : Sel3) : Statement (.movRmImmDirectW x) := by
  simp [Statement, encode, Instr.cls, Instr.length, Instr.dispBytes, Instr.immBytes]

theorem movRmImmM0B (x rm : Sel3) : Statement (.movRmImmM0B x rm) := by
  simp [Statement, encode, Instr.cls, Instr.length, Instr.dispBytes, Instr.immBytes]

theorem movRmImmM0W (x rm : Sel3) : Statement (.movRmImmM0W x rm) := by
  simp [Statement, encode, Instr.cls, Instr.length, Instr.dispBytes, Instr.immBytes]

theorem movRmImmM8B (x rm : Sel3) : Statement (.movRmImmM8B x rm) := by
  simp [Statement, encode, Instr.cls, Instr.length, Instr.dispBytes, Instr.immBytes]

theorem movRmImmM8W (x rm : Sel3) : Statement (.movRmImmM8W x rm) := by
  simp [Statement, encode, Instr.cls, Instr.length, Instr.dispBytes, Instr.immBytes]

theorem movRmImmM16B (x rm : Sel3) : Statement (.movRmImmM16B x rm) := by
  simp [Statement, encode, Instr.cls, Instr.length, Instr.dispBytes, Instr.immBytes]

theorem movRmImmM16W (x rm : Sel3) : Statement (.movRmImmM16W x rm) := by
  simp [Statement, encode, Instr.cls, Instr.length, Instr.dispBytes, Instr.immBytes]

end Sys2Proof.Laws.OpcodeShape
end

