-- ==== Sys2Proof/Laws/Step.lean ====
section
/-! SUPPORT. Everything one step can do at an instruction boundary, and what it does elsewhere. -/

namespace Sys2Proof.Machine

/-! ### The rows the decoder builds -/

theorem encode_rmRegRow (d w : Bit) (mod : Mode2) (reg rm : Sel3) :
    encode (rmRegRow d w mod reg rm) = [rmRegLead d w, secondByte mod reg rm] := by
  unfold rmRegRow
  rcases Mode2.cases mod with rfl | rfl | rfl | rfl
  · simp only [show (0#2 : Mode2) ≠ 3#2 by decide, show (0#2 : Mode2) ≠ 2#2 by decide,
      show (0#2 : Mode2) ≠ 1#2 by decide, if_false]
    split
    · rename_i h; subst h; rfl
    · rfl
  all_goals rfl

theorem encode_immRmRow (w : Bit) (mod : Mode2) (x rm : Sel3) :
    encode (immRmRow w mod x rm) = [immRmLead w, secondByte mod x rm] := by
  unfold immRmRow
  rcases Mode2.cases mod with rfl | rfl | rfl | rfl
  · simp only [show (0#2 : Mode2) ≠ 3#2 by decide, show (0#2 : Mode2) ≠ 2#2 by decide,
      show (0#2 : Mode2) ≠ 1#2 by decide, if_false]
    split
    · rename_i h; subst h; cases w <;> rfl
    · cases w <;> rfl
  all_goals cases w <;> rfl

theorem encode_immRegRow (w : Bit) (reg : Sel3) : encode (immRegRow w reg) = [immRegLead w reg] := by
  cases w <;> rfl

theorem wellFormed_rmRegRow (d w : Bit) (mod : Mode2) (reg rm : Sel3) :
    (rmRegRow d w mod reg rm).wellFormed = true := by
  unfold rmRegRow; repeat' split
  all_goals simp_all [Instr.wellFormed]

theorem wellFormed_immRmRow (w : Bit) (mod : Mode2) (x rm : Sel3) : (immRmRow w mod x rm).wellFormed = true := by
  unfold immRmRow; repeat' split
  all_goals simp_all [Instr.wellFormed]

theorem wellFormed_immRegRow (w : Bit) (reg : Sel3) : (immRegRow w reg).wellFormed = true := by
  cases w <;> rfl

/-! ### One step -/

variable {s : State}

theorem Memory.window_two_none {m : Memory} {a : Nat} (h : m.read a = none) : m.window a 2 = [] := by
  simp [Memory.window, h]
theorem Memory.window_two_one {m : Memory} {a : Nat} {b : Byte} (h : m.read a = some b) (h' : m.read (a + 1) = none) :
    m.window a 2 = [b] := by simp [Memory.window, h, h']
theorem Memory.window_two {m : Memory} {a : Nat} {b c : Byte} (h : m.read a = some b) (h' : m.read (a + 1) = some c) :
    m.window a 2 = [b, c] := by simp [Memory.window, h, h']

theorem step_insn {i : Instr} {rest : List Byte} (hp : s.phase = .pB0)
    (h : decode (s.stream.window s.pc 2) = .insn i rest) : step s = exec i s := by
  unfold step; rw [hp]; simp only [h]

theorem step_exhausted (hp : s.phase = .pB0) (h : s.stream.read s.pc = none) :
    step s = .next s.begin.finish := by
  unfold step; rw [hp]; simp only [Memory.window_two_none h, decode]

theorem step_unrecognised {b : Byte} (hp : s.phase = .pB0) (h : s.stream.read s.pc = some b)
    (hb : classOf b = .unrec) : step s = .next ((s.begin.takeB0 b).unrecognised b) := by
  unfold step; rw [hp]
  have : decode (s.stream.window s.pc 2) = .reject (.unrecognised b) := by
    simp [Memory.window, h, decode, hb]
  simp only [this]

theorem step_truncated {b : Byte} (hp : s.phase = .pB0) (h : s.stream.read s.pc = some b)
    (hb : hasSecondByte (classOf b) = true) (h' : s.stream.read (s.pc + 1) = none) :
    step s = .next ((s.begin.takeB0 b).raise .endOfInputMidInstruction) := by
  unfold step; rw [hp]
  have : decode (s.stream.window s.pc 2) = .reject (.truncated b) := by
    rw [Memory.window_two_one h h']
    cases c : classOf b <;> simp [hasSecondByte, c] at hb <;> simp [decode, c]
  simp only [this]

/-- Outside an instruction boundary a step is one transaction of the state machine. -/
theorem step_eq_tick (hp : s.phase ≠ .pB0) : step s = tick s := by
  unfold step; cases h : s.phase <;> simp_all

/-- Everything a step can do at an instruction boundary: the stream is exhausted, the leading byte is not recognised,
the second opcode byte is missing, or a well-formed row is executed whose opcode bytes stand at the cursor. -/
theorem step_cases (hp : s.phase = .pB0) :
    (s.stream.read s.pc = none ∧ step s = .next s.begin.finish) ∨
    (∃ b, s.stream.read s.pc = some b ∧ classOf b = .unrec ∧
      step s = .next ((s.begin.takeB0 b).unrecognised b)) ∨
    (∃ b, s.stream.read s.pc = some b ∧ hasSecondByte (classOf b) = true ∧ s.stream.read (s.pc + 1) = none ∧
      step s = .next ((s.begin.takeB0 b).raise .endOfInputMidInstruction)) ∨
    (∃ i, i.wellFormed = true ∧ s.stream.window s.pc (encode i).length = encode i ∧ step s = exec i s) := by
  cases h : s.stream.read s.pc with
  | none => exact .inl ⟨rfl, step_exhausted hp h⟩
  | some b =>
    right
    cases hc : classOf b with
    | unrec => exact .inl ⟨b, rfl, hc, step_unrecognised hp h hc⟩
    | immReg =>
      refine .inr (.inr ⟨immRegRow (immSizeBit b) (lowField b), wellFormed_immRegRow _ _, ?_, ?_⟩)
      · rw [encode_immRegRow, immRegLead_of_class b hc]; simp [Memory.window, h]
      · refine step_insn hp (rest := (s.stream.window (s.pc + 1) 1)) ?_
        simp [Memory.window, h, decode, hc]
    | rmReg =>
      cases h' : s.stream.read (s.pc + 1) with
      | none => exact .inr (.inl ⟨b, rfl, by simp [hc, hasSecondByte], rfl, step_truncated hp h (by simp [hc, hasSecondByte]) h'⟩)
      | some c =>
        refine .inr (.inr ⟨rmRegRow (directionBit b) (sizeBit b) (modField c) (midField c) (lowField c),
          wellFormed_rmRegRow _ _ _ _ _, ?_, ?_⟩)
        · rw [encode_rmRegRow, rmRegLead_of_class b hc, secondByte_of_fields]; exact Memory.window_two h h'
        · exact step_insn hp (rest := []) (by rw [Memory.window_two h h']; simp [decode, hc])
    | immRm =>
      cases h' : s.stream.read (s.pc + 1) with
      | none => exact .inr (.inl ⟨b, rfl, by simp [hc, hasSecondByte], rfl, step_truncated hp h (by simp [hc, hasSecondByte]) h'⟩)
      | some c =>
        refine .inr (.inr ⟨immRmRow (sizeBit b) (modField c) (midField c) (lowField c),
          wellFormed_immRmRow _ _ _ _, ?_, ?_⟩)
        · rw [encode_immRmRow, immRmLead_of_class b hc, secondByte_of_fields]; exact Memory.window_two h h'
        · exact step_insn hp (rest := []) (by rw [Memory.window_two h h']; simp [decode, hc])

end Sys2Proof.Machine
end

