-- ==== Sys2Proof/Laws/Rows.lean ====
section
/-! SUPPORT. What a row does where its trailing bytes are all there, and where the stream ends inside them; and the
text of operands by the row's mode (spec/42_mov_regmem_reg.md R187). -/

namespace Sys2Proof.Machine

/-! ### Windows -/

theorem Memory.window_cons {m : Memory} {a n : Nat} {b : Byte} {l : List Byte} :
    m.window a (n + 1) = b :: l ↔ m.read a = some b ∧ m.window (a + 1) n = l := by
  simp only [Memory.window]; cases m.read a <;> simp

theorem Memory.window_eq_nil {m : Memory} {a n : Nat} : m.window a (n + 1) = [] ↔ m.read a = none := by
  simp only [Memory.window]; cases m.read a <;> simp

/-- Where the stream ends after `k` bytes, a longer window has just those. -/
theorem Memory.EndsAfter.length_window {m : Memory} {a n k : Nat} (h : m.EndsAfter a k) (hk : k < n) :
    (m.window a n).length = k := by
  induction k generalizing a n with
  | zero =>
    obtain ⟨n, rfl⟩ : ∃ q, n = q + 1 := ⟨n - 1, by omega⟩
    have e : m.read a = none := h.2
    rw [Memory.window_eq_nil.2 e]; rfl
  | succ k ih =>
    obtain ⟨n, rfl⟩ : ∃ q, n = q + 1 := ⟨n - 1, by omega⟩
    obtain ⟨b, hb⟩ := Option.isSome_iff_exists.1 (h.1 0 (by omega))
    rw [Nat.add_zero] at hb
    have ht : m.EndsAfter (a + 1) k := by
      refine ⟨fun j hj => ?_, ?_⟩
      · have := h.1 (j + 1) (by omega); rwa [show a + (j + 1) = a + 1 + j by omega] at this
      · have := h.2; rwa [show a + (k + 1) = a + 1 + k by omega] at this
    simp only [Memory.window, hb, List.length_cons, ih ht (show k < n by omega)]

/-- Values that fit a field are told apart by its bytes. -/
theorem littleEndian_injective {n : Nat} (hn : n ≤ 2) {v w : Word} (hv : fitsBytes n v = true)
    (hw : fitsBytes n w = true) (h : littleEndian n v = littleEndian n w) : v = w := by
  simp only [fitsBytes, decide_eq_true_eq] at hv hw
  apply BitVec.eq_of_toNat_eq
  match n, hn with
  | 0, _ => omega
  | 1, _ =>
    simp only [littleEndian, List.cons.injEq, and_true] at h
    have := congrArg BitVec.toNat h
    simp only [BitVec.toNat_setWidth] at this; omega
  | 2, _ =>
    simp only [littleEndian, List.cons.injEq, and_true] at h
    have h1 := congrArg BitVec.toNat h.1
    have h2 := congrArg BitVec.toNat h.2
    simp only [BitVec.toNat_setWidth, BitVec.extractLsb'_toNat, Nat.shiftRight_eq_div_pow] at h1 h2
    omega

theorem fitsBytes_two (v : Word) : fitsBytes 2 v = true := by
  have := v.isLt; simp only [fitsBytes, decide_eq_true_eq]; omega
theorem fitsBytes_one (b : Byte) : fitsBytes 1 (b.setWidth 16) = true := by
  have := b.isLt; simp only [fitsBytes, BitVec.toNat_setWidth, decide_eq_true_eq]; omega
theorem Byte.toNat_word (b : Byte) : (b.setWidth 16 : Word).toNat = b.toNat := by
  have := b.isLt; simp only [BitVec.toNat_setWidth]; omega
theorem toNat_append (lo hi : Byte) : (hi ++ lo : Word).toNat = lo.toNat + 256 * hi.toNat := by
  rw [← assemble_eq_append, assemble_toNat]

/-! ### What a row does -/

variable {s : State} {i : Instr}

/-- The policies admit the row and its trailing bytes are those of the operands `o`: it is decoded. -/
theorem exec_decodes {o : Operands} (hi : i.wellFormed = true) (ha : s.accepts i) (hf : o.fit i = true)
    (hw : s.stream.window (s.pc + (encode i).length) (i.dispBytes + i.immBytes) =
      littleEndian i.dispBytes o.disp ++ littleEndian i.immBytes o.imm) :
    ∃ t, exec i s = .next t ∧ s.Decodes t i.length (wholeLine i o) ∧ s.Presents t (wholeRecord i o) := by
  obtain ⟨t, e, ho⟩ := exec_outcome hi s
  refine ⟨t, e, ?_⟩
  have hl1 := littleEndian_length i.dispBytes_le o.disp
  have hl2 := littleEndian_length i.immBytes_le o.imm
  cases ho with
  | malformed hm hp ht => have := ha.1 hm; rw [hp] at this; cases this
  | direct hm hd hp ht => have := ha.2 hd; rw [hp] at this; cases this
  | exhausted _ k v v' hk he =>
    have := he.length_window hk
    rw [hw, List.length_append, hl1, hl2] at this; omega
  | decoded _ o' ho' hw' ht =>
    rw [hw] at hw'
    have h := List.append_inj hw' (by rw [hl1, littleEndian_length i.dispBytes_le])
    simp only [Operands.fit, Bool.and_eq_true] at hf ho'
    have h1 := littleEndian_injective i.dispBytes_le hf.1 ho'.1 h.1
    have h2 := littleEndian_injective i.immBytes_le hf.2 ho'.2 h.2
    have : o' = o := by cases o; cases o'; simp_all
    subst this ht
    simp [State.Decodes, State.Presents, Instr.length, Nat.add_assoc]

/-- The policies admit the row and the stream ends after `n` of its trailing bytes: the pass aborts. -/
theorem exec_truncated {n : Nat} (hi : i.wellFormed = true) (ha : s.accepts i)
    (hw : (s.stream.window (s.pc + (encode i).length) (i.dispBytes + i.immBytes)).length = n)
    (hn : n < i.dispBytes + i.immBytes) :
    ∃ t, exec i s = .next t ∧ s.Raises t .endOfInputMidInstruction ((encode i).length + n) := by
  obtain ⟨t, e, ho⟩ := exec_outcome hi s
  refine ⟨t, e, ?_⟩
  cases ho with
  | malformed hm hp ht => have := ha.1 hm; rw [hp] at this; cases this
  | direct hm hd hp ht => have := ha.2 hd; rw [hp] at this; cases this
  | exhausted _ k v v' hk he _ _ ht =>
    have := he.length_window hk
    have : k = n := by omega
    subst this ht
    simp [State.Raises, Nat.add_assoc]
  | decoded _ o' ho' hw' ht =>
    rw [hw', List.length_append, littleEndian_length i.dispBytes_le, littleEndian_length i.immBytes_le] at hw
    omega

/-! ### Text -/

/-- A memory operand with a displacement field. -/
theorem rmText_displacement (w : Bit) {mod : Mode2} (rm : Sel3) (v : Word) (h : mod = 1#2 ∨ mod = 2#2) :
    rmText w mod rm v = memoryText (fragment rm) v.toNat := by
  have hk : operandKind mod rm = .memory := by rcases h with rfl | rfl <;> simp [operandKind]
  unfold rmText memoryText; rw [hk]
  have h0 : mod ≠ 0#2 := by rcases h with rfl | rfl <;> decide
  have hv : v = 0#16 ↔ v.toNat = 0 := ⟨by rintro rfl; rfl, fun h => BitVec.eq_of_toNat_eq (by simpa using h)⟩
  by_cases e : v.toNat = 0
  · simp [hv.2 e]
  · simp [e, h0, hv]

/-- A memory operand with none. -/
theorem rmText_m0 (w : Bit) {rm : Sel3} (v : Word) (h : rm ≠ Sel3.direct) :
    rmText w 0#2 rm v = memoryText (fragment rm) 0 := by
  have hk : operandKind 0#2 rm = .memory := by simp [operandKind, h]
  unfold rmText memoryText; rw [hk]; simp

theorem rmText_direct (w : Bit) (v : Word) : rmText w 0#2 Sel3.direct v = directText v.toNat := rfl

theorem rmText_register (w : Bit) (rm : Sel3) (v : Word) : rmText w 3#2 rm v = regName w rm := rfl

theorem movLine_ordered (d : Bit) (r m : Text) : movLine (ordered d r m).1 (ordered d r m).2 = moveText d r m := by
  cases d <;> rfl

end Sys2Proof.Machine
end

