-- ==== Sys2Proof/Tests/Slice0.lean ====
section
/-! SUPPORT. Tests of one step or one word, with expected results written out from the encodings and the vectors of
spec/95_test_vectors.md, and for every statement with hypotheses a state and operands that meet them. -/

namespace Sys2Proof.Tests

open Sys2Proof Sys2Proof.Machine

/-! ### Small states and what is looked at -/

/-- The policies under which every row decodes. -/
def allRows : Policies := ⟨.lenient, .full, .direct16⟩

/-- `REG_ONLY`, the other policies at their defaults. -/
def regOnly : Policies := ⟨.lenient, .regOnly, .fail⟩

/-- `STRICT`, the other policies at their defaults. -/
def strict : Policies := ⟨.strict, .full, .fail⟩

/-- A pass at an instruction boundary at the first byte of a stream, with an empty sink. -/
def machine (bytes : List Byte) (p : Policies) : State :=
  { State.reset with
    src := some (Memory.ofBytes bytes), sink := some [], status := .run, phase := .pB0, unrecPolicy := p.unrec,
    modPolicy := p.modes, directPolicy := p.direct }

/-- The sink's text, the cursor, the phase and the result after a step. -/
def seen : Host.Outcome State Fault Refusal → Option (Text × Nat × Phase × Option PassResult)
  | .next t => some (t.text, t.pc, t.phase, t.result)
  | .fault _ => none
  | .refused _ => none

/-- What one step from the start of a stream shows. -/
def shown (bytes : List Byte) (p : Policies) : Option (Text × Nat × Phase × Option PassResult) :=
  seen (step (machine bytes p))

/-- A line was written and the pass goes on with the cursor at `pc`. -/
def line (text : String) (pc : Nat) : Option (Text × Nat × Phase × Option PassResult) :=
  some (text.toList ++ [newline], pc, .pB0, none)

/-- The pass ended in an error at position 0 with the cursor at `pc`. -/
def error (k : ErrorKind) (pc : Nat) : Option (Text × Nat × Phase × Option PassResult) :=
  some ([], pc, .pErr, some (.err k 0))

/-! ### WellFormed refuses (R104) -/

theorem test_wellFormed_refuses_rmReg_m0 : (Instr.movRmRegM0 true true 0 6).wellFormed = false := by decide
theorem test_wellFormed_refuses_immRm_m0_b : (Instr.movRmImmM0B 0 6).wellFormed = false := by decide
theorem test_wellFormed_refuses_immRm_m0_w : (Instr.movRmImmM0W 0 6).wellFormed = false := by decide
theorem test_wellFormed_accepts : (Instr.movRmRegM0 true true 0 5).wellFormed = true := by decide

/-! ### Every constructor from a word written out from its encoding -/

theorem test_decode_rmReg_rr :
    decode [0b10001001#8, 0b11011001#8] = .insn (.movRmRegRr false true 3 1) [] := by decide
theorem test_decode_rmReg_direct :
    decode [0b10001011#8, 0b00101110#8] = .insn (.movRmRegDirect true true 5) [] := by decide
theorem test_decode_rmReg_m0 :
    decode [0b10001000#8, 0b00001010#8] = .insn (.movRmRegM0 false false 1 2) [] := by decide
theorem test_decode_rmReg_m8 :
    decode [0b10001010#8, 0b01100000#8] = .insn (.movRmRegM8 true false 4 0) [] := by decide
theorem test_decode_rmReg_m16 :
    decode [0b10001001#8, 0b10010100#8] = .insn (.movRmRegM16 false true 2 4) [] := by decide
theorem test_decode_immReg_b : decode [0b10110001#8] = .insn (.movRegImmB 1) [] := by decide
theorem test_decode_immReg_w : decode [0b10111110#8] = .insn (.movRegImmW 6) [] := by decide
theorem test_decode_immRm_rr_b : decode [0b11000110#8, 0b11111001#8] = .insn (.movRmImmRrB 7 1) [] := by decide
theorem test_decode_immRm_rr_w : decode [0b11000111#8, 0b11000011#8] = .insn (.movRmImmRrW 0 3) [] := by decide
theorem test_decode_immRm_direct_b : decode [0b11000110#8, 0b00111110#8] = .insn (.movRmImmDirectB 7) [] := by decide
theorem test_decode_immRm_direct_w : decode [0b11000111#8, 0b00000110#8] = .insn (.movRmImmDirectW 0) [] := by decide
theorem test_decode_immRm_m0_b : decode [0b11000110#8, 0b00000011#8] = .insn (.movRmImmM0B 0 3) [] := by decide
theorem test_decode_immRm_m0_w : decode [0b11000111#8, 0b00010100#8] = .insn (.movRmImmM0W 2 4) [] := by decide
theorem test_decode_immRm_m8_b : decode [0b11000110#8, 0b01000110#8] = .insn (.movRmImmM8B 0 6) [] := by decide
theorem test_decode_immRm_m8_w : decode [0b11000111#8, 0b01000000#8] = .insn (.movRmImmM8W 0 0) [] := by decide
theorem test_decode_immRm_m16_b : decode [0b11000110#8, 0b10000101#8] = .insn (.movRmImmM16B 0 5) [] := by decide
theorem test_decode_immRm_m16_w : decode [0b11000111#8, 0b10101111#8] = .insn (.movRmImmM16W 5 7) [] := by decide

/-- The neighbours of the recognised ranges are refused (95_test_vectors.md section 2.8). -/
theorem test_decode_refuses_the_neighbours :
    [0x87#8, 0x8c#8, 0xaf#8, 0xc0#8, 0xc5#8, 0xc8#8].map (fun b => decode [b, 0xc0#8]) =
      [0x87#8, 0x8c#8, 0xaf#8, 0xc0#8, 0xc5#8, 0xc8#8].map (fun b => .reject (.unrecognised b)) := by decide

theorem test_decode_refuses_a_missing_second_byte : decode [0x8b#8] = .reject (.truncated 0x8b#8) := by decide

/-! ### The host's probe words -/

theorem test_table_word_of_two_bytes : decodeTableWord 16 0x89d9 = some (.movRmRegRr false true 3 1) := by decide
theorem test_table_word_of_one_byte : decodeTableWord 8 0xb1 = some (.movRegImmB 1) := by decide
theorem test_table_word_refused : decodeTableWord 16 0x8cd9 = none := by decide

/-- The word runs as the first instruction after reset, its operand bytes zero. -/
theorem test_fetch_word_runs :
    seen (step (State.reset.withFetchWord 16 0xc785)) = line "mov [di], 0" 6 := by decide

/-! ### One step of every row (95_test_vectors.md section 2) -/

theorem test_step_rmReg_rr : shown [0x89, 0xd9] Config.defaults = line "mov cx, bx" 2 := by decide
theorem test_step_rmReg_rr_direction : shown [0x8a, 0xd9] Config.defaults = line "mov bl, cl" 2 := by decide
theorem test_step_rmReg_direct : shown [0x88, 0x0e, 0x0d, 0x0d] allRows = line "mov [3341], cl" 4 := by decide
theorem test_step_rmReg_direct_fails :
    shown [0x8b, 0x06, 0x34, 0x12] Config.defaults = error .directAddressUnimplemented 2 := by decide
theorem test_step_rmReg_m0 : shown [0x8b, 0x1b] Config.defaults = line "mov bx, [bp + di]" 2 := by decide
theorem test_step_rmReg_m0_rejected : shown [0x8b, 0x07] regOnly = error .malformedSecondByte 2 := by decide
theorem test_step_rmReg_m8_unsigned :
    shown [0x8b, 0x56, 0xff] Config.defaults = line "mov dx, [bp + 255]" 3 := by decide
theorem test_step_rmReg_m8_zero : shown [0x8b, 0x56, 0x00] Config.defaults = line "mov dx, [bp]" 3 := by decide
theorem test_step_rmReg_m16 :
    shown [0x89, 0x94, 0x2c, 0x01] Config.defaults = line "mov [si + 300], dx" 4 := by decide
theorem test_step_rmReg_m16_cut : shown [0x8b, 0x86, 0x87] Config.defaults = error .endOfInputMidInstruction 3 := by
  decide
theorem test_step_immReg_b : shown [0xb7, 0xff] Config.defaults = line "mov bh, 255" 2 := by decide
theorem test_step_immReg_b_cut : shown [0xb1] Config.defaults = error .endOfInputMidInstruction 1 := by decide
theorem test_step_immReg_w : shown [0xb8, 0x01, 0x02] Config.defaults = line "mov ax, 513" 3 := by decide
theorem test_step_immReg_w_unsigned : shown [0xb9, 0xf4, 0xff] Config.defaults = line "mov cx, 65524" 3 := by decide
theorem test_step_immRm_rr_b : shown [0xc6, 0xf9, 0x07] regOnly = line "mov cl, 7" 3 := by decide
theorem test_step_immRm_rr_w : shown [0xc7, 0xc3, 0x39, 0x30] Config.defaults = line "mov bx, 12345" 4 := by decide
theorem test_step_immRm_direct_b : shown [0xc6, 0x06, 0xe8, 0x03, 0x07] allRows = line "mov [1000], 7" 5 := by decide
theorem test_step_immRm_direct_b_fails :
    shown [0xc6, 0x3e, 0xe8, 0x03, 0x07] Config.defaults = error .directAddressUnimplemented 2 := by decide
theorem test_step_immRm_direct_w :
    shown [0xc7, 0x06, 0xe8, 0x03, 0x5b, 0x01] allRows = line "mov [1000], 347" 6 := by decide
theorem test_step_immRm_direct_w_zero : shown [0xc7, 0x06, 0, 0, 0, 0] allRows = line "mov [0], 0" 6 := by decide
theorem test_step_immRm_m0_b : shown [0xc6, 0x03, 0x07] regOnly = line "mov [bp + di], 7" 3 := by decide
theorem test_step_immRm_m0_w : shown [0xc7, 0x04, 0x5b, 0x01] Config.defaults = line "mov [si], 347" 4 := by decide
theorem test_step_immRm_m8_b : shown [0xc6, 0x47, 0x02, 0x09] Config.defaults = line "mov [bx + 2], 9" 4 := by decide
theorem test_step_immRm_m8_b_zero : shown [0xc6, 0x46, 0x00, 0x09] Config.defaults = line "mov [bp], 9" 4 := by decide
theorem test_step_immRm_m8_w :
    shown [0xc7, 0x40, 0x04, 0x5b, 0x01] Config.defaults = line "mov [bx + si + 4], 347" 5 := by decide
theorem test_step_immRm_m16_b :
    shown [0xc6, 0x85, 0x85, 0x03, 0x07] Config.defaults = line "mov [di + 901], 7" 5 := by decide
theorem test_step_immRm_m16_w :
    shown [0xc7, 0x85, 0x85, 0x03, 0x5b, 0x01] Config.defaults = line "mov [di + 901], 347" 6 := by decide
theorem test_step_immRm_m16_w_cut :
    shown [0xc7, 0x85, 0x85, 0x03, 0x5b] Config.defaults = error .endOfInputMidInstruction 5 := by decide

/-! ### One step of the loop around the rows -/

theorem test_step_end : shown [] Config.defaults = some ([], 0, .pOk, some .ok) := by decide
theorem test_step_skips : shown [0x90] Config.defaults = some ([], 1, .pB0, none) := by decide
theorem test_step_strict : shown [0x90] strict = error .unrecognizedOpcode 1 := by decide
theorem test_step_header :
    seen (step { machine [] Config.defaults with phase := .pHdr }) = line "bits 16" 0 := by decide

/-- `P_ILO` takes the low byte and goes to `P_IHI` (95_test_vectors.md section 2.11). -/
theorem test_tick_ilo :
    seen (tick { machine [0xc7, 0x40, 0x04, 0x5b, 0x01] Config.defaults with
      phase := .pIlo, pc := 3, cls := .immRm, w := true, mod := 1 }) = some ([], 4, .pIhi, none) := by decide

theorem test_dec : [0, 9, 10, 65535].map dec = ["0", "9", "10", "65535"].map String.toList := by decide

/-! ### Witnesses: for each statement with hypotheses, states and operands that meet them, one for each clause -/

/-- The outcome is a next state in this phase. -/
def endsIn (p : Phase) : Host.Outcome State Fault Refusal → Bool
  | .next t => t.phase == p
  | .fault _ => false
  | .refused _ => false

theorem next_of_endsIn {p : Phase} {o : Host.Outcome State Fault Refusal} (h : endsIn p o = true) :
    ∃ t, o = .next t ∧ t.phase = p := by
  cases o with
  | next t => exact ⟨t, rfl, by simpa [endsIn] using h⟩
  | fault f => cases h
  | refused r => cases h

/-- `mov [bx + di + 65535], 65535`, the longest row at the top of its operands. -/
def longOne : Instr := .movRmImmM16W 7 1
def topOperands : Operands := ⟨0xffff#16, 0xffff#16⟩

theorem witness_DecodeOfEncodeIsTheInstruction :
    (Instr.movRmRegM0 true true 7 7).wellFormed = true ∧ longOne.wellFormed = true := by decide

theorem witness_EncodeOfDecodeIsTheBytes :
    decode [0x8b#8, 0xff#8, 0xff#8] = .insn (.movRmRegRr true true 7 7) [0xff#8] := by decide

theorem witness_WholeInstructionIsDecodedByOneStep :
    longOne.wellFormed = true ∧ topOperands.fit longOne = true ∧
      (machine [] allRows).accepts longOne ∧ (machine [] allRows).accepts (.movRmRegDirect true true 0) :=
  ⟨by decide, by decide, ⟨by decide, by decide⟩, ⟨by decide, by decide⟩⟩

/-- The stream of that statement: a byte before the instruction and one behind it. -/
theorem witness_WholeInstructionIsDecodedByOneStep_stream :
    let s := { machine ([0x90#8] ++ encodeWhole longOne topOperands ++ [0x90#8]) allRows with pc := 1 }
    s.phase = .pB0 ∧ s.src = some (Memory.ofBytes ([0x90#8] ++ encodeWhole longOne topOperands ++ [0x90#8])) ∧
      s.pc = [0x90#8].length := ⟨rfl, rfl, rfl⟩

theorem witness_DecimalTextIsCanonical : (0 : Nat) = 0 ∧ (10 : Nat) ≠ 0 := by decide

theorem witness_RegisterTablesObeyTheirLaws : regName true 7 = regName true 7 ∧ 'a' ∈ regName false 0 := by decide

theorem witness_OperandTableEntries : fragment 6 = fragment 6 ∧ fragment 6 = "bp".toList := by decide

theorem witness_RmTextRendersTheOperand :
    (0#2 : Mode2) = 0#2 ∧ (6#3 : Sel3) = 6#3 ∧ (5#3 : Sel3) ≠ 6#3 ∧ (7#3 : Sel3) ≠ 6#3 ∧ (3#2 : Mode2) = 3#2 ∧
      ((1#2 : Mode2) = 1#2 ∨ (1#2 : Mode2) = 2#2) ∧ (0#16 : Word) = 0#16 ∧ (1#16 : Word) ≠ 0#16 := by decide

/-- A stream cut after a leading byte of class `RM_REG`. -/
theorem witness_rmReg_cut_after_b0 :
    let s := machine [0x8b#8] Config.defaults
    s.phase = .pB0 ∧ s.stream.window s.pc 2 = [0b100010#6 ++ BitVec.ofBool true ++ BitVec.ofBool true] := by decide

theorem witness_RmRegRegisterDirect :
    let s := machine [0x88#8] Config.defaults
    s.phase = .pB0 ∧ s.stream.window s.pc 2 = [0b100010#6 ++ BitVec.ofBool false ++ BitVec.ofBool false] := by decide

theorem witness_RmRegMemoryNoDisplacement :
    (5#3 ≠ 6#3 ∧ 7#3 ≠ 6#3) ∧ (machine [] Config.defaults).modPolicy = .full ∧
      (machine [] regOnly).modPolicy = .regOnly ∧
      (machine [0x8b, 0x47, 0x00] Config.defaults).stream.memRead 2 1 = some 0#16 ∧
      (machine [0x8b, 0x87, 0x00, 0x00] Config.defaults).stream.memRead 2 2 = some 0#16 := by decide

theorem witness_RmRegDirectAddress :
    (machine [0x8b, 0x06, 0xff, 0xff] allRows).stream.memRead 2 2 = some 0xffff#16 ∧
      (machine [0x8b, 0x06, 0x00, 0x00] allRows).stream.memRead 2 2 = some 0x0000#16 ∧
      (machine [] allRows).modPolicy = .full ∧ (machine [] allRows).directPolicy = .direct16 ∧
      (machine [] Config.defaults).directPolicy = .fail ∧ (machine [] regOnly).modPolicy = .regOnly ∧
      ((machine [0x8b, 0x06] allRows).stream.window 2 2).length = 0 ∧
      ((machine [0x8b, 0x06, 0x01] allRows).stream.window 2 2).length = 1 := by decide

theorem witness_RmRegMemoryDisplacement8 :
    (machine [0x8b, 0x46, 0xff] Config.defaults).stream.read 2 = some 0xff#8 ∧
      (machine [0x8b, 0x46, 0x00] Config.defaults).stream.read 2 = some 0x00#8 ∧
      (machine [0x8b, 0x46] Config.defaults).stream.read 2 = none ∧
      (machine [] Config.defaults).modPolicy = .full ∧ (machine [] regOnly).modPolicy = .regOnly := by decide

theorem witness_RmRegMemoryDisplacement16 :
    (machine [0x8b, 0x86, 0xff, 0xff] Config.defaults).stream.window 2 2 = [0xff#8, 0xff#8] ∧
      (machine [0x8b, 0x86, 0x00, 0x00] Config.defaults).stream.window 2 2 = [0x00#8, 0x00#8] ∧
      ((machine [0x8b, 0x86] Config.defaults).stream.window 2 2).length = 0 ∧
      ((machine [0x8b, 0x86, 0x87] Config.defaults).stream.window 2 2).length = 1 ∧
      (machine [] Config.defaults).modPolicy = .full ∧ (machine [] regOnly).modPolicy = .regOnly := by decide

/-- Both ends of a row of that statement: decoded, and failed. -/
theorem witness_DirectionBitOrdersTheOperands :
    (∃ t, exec (.movRmRegM8 true true 7 7) (machine [0x8b, 0x7f, 0xff] Config.defaults) = .next t ∧ t.phase = .pB0) ∧
      (∃ t, exec (.movRmRegM8 true true 7 7) (machine [0x8b, 0x7f] Config.defaults) = .next t ∧ t.phase = .pErr) :=
  ⟨next_of_endsIn (by decide), next_of_endsIn (by decide)⟩

theorem witness_ImmediateToByteRegister :
    (machine [0xb7, 0xff] Config.defaults).stream.read 1 = some 0xff#8 ∧
      (machine [0xb7] Config.defaults).stream.read 1 = none := by decide

theorem witness_ImmediateToWordRegister :
    (machine [0xbf, 0xff, 0xff] Config.defaults).stream.window 1 2 = [0xff#8, 0xff#8] ∧
      ((machine [0xbf] Config.defaults).stream.window 1 2).length = 0 ∧
      ((machine [0xbf, 0xff] Config.defaults).stream.window 1 2).length = 1 := by decide

theorem witness_ImmediateThroughRmToRegister :
    (machine [0xc6, 0xc7, 0xff] Config.defaults).stream.read 2 = some 0xff#8 ∧
      (machine [0xc7, 0xc7, 0xff, 0xff] Config.defaults).stream.window 2 2 = [0xff#8, 0xff#8] := by decide

theorem witness_ImmediateToDirectAddress :
    (machine [0xc6, 0x06, 0xff, 0xff, 0x00] allRows).stream.window 2 3 = [0xff#8, 0xff#8, 0x00#8] ∧
      (machine [0xc7, 0x06, 0, 0, 0xff, 0xff] allRows).stream.window 2 4 = [0x00#8, 0x00#8, 0xff#8, 0xff#8] ∧
      (machine [] allRows).directPolicy = .direct16 ∧ (machine [] Config.defaults).directPolicy = .fail := by decide

theorem witness_ImmediateToMemoryNoDisplacement :
    (5#3 ≠ 6#3 ∧ 7#3 ≠ 6#3) ∧ (machine [0xc6, 0x07, 0xff] Config.defaults).stream.read 2 = some 0xff#8 ∧
      (machine [0xc7, 0x07, 0xff, 0xff] Config.defaults).stream.window 2 2 = [0xff#8, 0xff#8] := by decide

theorem witness_ImmediateToMemoryDisplacement8 :
    (machine [0xc6, 0x46, 0x00, 0xff] Config.defaults).stream.window 2 2 = [0x00#8, 0xff#8] ∧
      (machine [0xc7, 0x46, 0xff, 0x00, 0x01] Config.defaults).stream.window 2 3 = [0xff#8, 0x00#8, 0x01#8] := by decide

theorem witness_ImmediateToMemoryDisplacement16 :
    (machine [0xc6, 0x86, 0x00, 0x00, 0xff] Config.defaults).stream.window 2 3 = [0x00#8, 0x00#8, 0xff#8] ∧
      (machine [0xc7, 0x86, 0xff, 0xff, 0x00, 0x01] Config.defaults).stream.window 2 4 =
        [0xff#8, 0xff#8, 0x00#8, 0x01#8] := by decide

theorem witness_MiddleFieldOfImmRmIsIgnored :
    ∃ row : Sel3 → Instr, row = (Instr.movRmImmM8B · 7) ∧ row 0 ≠ row 7 := ⟨_, rfl, by decide⟩

/-- A decoded row in each of the four modes, and one with each operand size. -/
theorem witness_DisplacementIsUnsignedLittleEndian :
    (∃ t, exec (.movRmRegRr true true 0 7) (machine [0x8b, 0xc7] Config.defaults) = .next t ∧
        t.phase = .pB0 ∧ t.mod = 3#2) ∧
      (∃ t, exec (.movRmRegM0 true true 0 7) (machine [0x8b, 0x07] Config.defaults) = .next t ∧
        t.phase = .pB0 ∧ t.mod = 0#2 ∧ t.rm ≠ 6#3) ∧
      (∃ t, exec (.movRmRegM8 true true 0 7) (machine [0x8b, 0x47, 0xff] Config.defaults) = .next t ∧
        t.phase = .pB0 ∧ t.mod = 1#2) ∧
      (∃ t, exec longOne (machine [0xc7, 0xb9, 0xff, 0xff, 0xff, 0xff] Config.defaults) = .next t ∧
        t.phase = .pB0 ∧ t.mod = 2#2) ∧
      hasSecondByte longOne.cls = true ∧ longOne.wellFormed = true :=
  ⟨⟨_, rfl, by decide⟩, ⟨_, rfl, by decide⟩, ⟨_, rfl, by decide⟩, ⟨_, rfl, by decide⟩, by decide, by decide⟩

theorem witness_ImmediateIsUnsignedLittleEndian :
    (∃ t, exec (.movRegImmB 7) (machine [0xb7, 0xff] Config.defaults) = .next t ∧ t.phase = .pB0 ∧ t.w = false) ∧
      (∃ t, exec longOne (machine [0xc7, 0xb9, 0, 0, 0xff, 0xff] Config.defaults) = .next t ∧
        t.phase = .pB0 ∧ t.w = true) ∧
      (Instr.movRegImmB 7).cls ≠ .rmReg ∧ longOne.cls ≠ .rmReg :=
  ⟨⟨_, rfl, by decide⟩, ⟨_, rfl, by decide⟩, by decide, by decide⟩

theorem witness_CursorMovesByTheLengthOfTheInstruction :
    longOne.wellFormed = true ∧
      ∃ t, exec longOne (machine [0xc7, 0xb9, 0, 0, 0, 0] Config.defaults) = .next t ∧ t.phase = .pB0 :=
  ⟨by decide, next_of_endsIn (by decide)⟩

/-- A row of each class, decoded and failed: the hypotheses of `LatchesHoldTheOpcodeFields`,
`PresentedRecordHoldsTheLatches` and the frames. -/
theorem witness_RmRegFrame :
    (Instr.movRmRegM8 false true 0 7).cls = .rmReg ∧ hasSecondByte .rmReg = true ∧
      (∃ t, exec (.movRmRegM8 false true 0 7) (machine [0x89, 0x47, 0xff] Config.defaults) = .next t ∧ t.phase = .pB0) ∧
      (∃ t, exec (.movRmRegM8 false true 0 7) (machine [0x89, 0x47] Config.defaults) = .next t ∧ t.phase = .pErr) :=
  ⟨rfl, rfl, next_of_endsIn (by decide), next_of_endsIn (by decide)⟩

theorem witness_ImmRegFrame :
    (Instr.movRegImmW 7).cls = .immReg ∧
      (∃ t, exec (.movRegImmW 7) (machine [0xbf, 0xff, 0xff] Config.defaults) = .next t ∧ t.phase = .pB0) ∧
      (∃ t, exec (.movRegImmW 7) (machine [0xbf, 0xff] Config.defaults) = .next t ∧ t.phase = .pErr) :=
  ⟨rfl, next_of_endsIn (by decide), next_of_endsIn (by decide)⟩

theorem witness_ImmRmFrame :
    longOne.cls = .immRm ∧ hasSecondByte .immRm = true ∧
      (∃ t, exec longOne (machine [0xc7, 0xb9, 0, 0, 0, 0] Config.defaults) = .next t ∧ t.phase = .pB0) ∧
      (∃ t, exec longOne (machine [0xc7, 0xb9, 0, 0, 0] Config.defaults) = .next t ∧ t.phase = .pErr) :=
  ⟨rfl, rfl, next_of_endsIn (by decide), next_of_endsIn (by decide)⟩

theorem witness_StepRunsTheDecodedInstruction :
    let s := machine [0xb1, 0x0c] Config.defaults
    s.phase = .pB0 ∧ decode (s.stream.window s.pc 1) = .insn (.movRegImmB 1) [] ∧
      decode (s.stream.window s.pc 6) = .insn (.movRegImmB 1) [0x0c#8] := by decide

theorem witness_EndAtABoundaryIsNormalTermination :
    ((machine [] Config.defaults).phase = .pB0 ∧ (machine [] Config.defaults).stream.read 0 = none) ∧
      (∃ t, step (machine [0xb1] Config.defaults) = .next t ∧ t.phase = .pErr) ∧
      (∃ t, step { machine [0xb1] Config.defaults with phase := .pIlo, pc := 1 } = .next t ∧ t.phase = .pErr) :=
  ⟨by decide, next_of_endsIn (by decide), next_of_endsIn (by decide)⟩

theorem witness_UnrecognisedLeadingByte :
    (machine [0x90] Config.defaults).stream.read 0 = some 0x90#8 ∧ classOf 0x90#8 = .unrec ∧
      (machine [0x90] Config.defaults).unrecPolicy = .lenient ∧ (machine [0x90] strict).unrecPolicy = .strict := by decide

/-- Cuts after no byte, after one, and before the last byte of the longest row. -/
theorem witness_TruncatedInstructionAbortsThePass :
    longOne.wellFormed = true ∧ (machine [] Config.defaults).accepts longOne ∧
      (0 < longOne.length ∧ 1 < longOne.length ∧ 5 < longOne.length) ∧
      (machine ([] ++ (encodeWhole longOne topOperands).take 5) Config.defaults).src =
        some (Memory.ofBytes ([] ++ (encodeWhole longOne topOperands).take 5)) :=
  ⟨by decide, ⟨by decide, by decide⟩, by decide, rfl⟩

theorem witness_ChecksOfTheSecondByteComeInOrder :
    (classOf 0x8b#8 = .rmReg ∧ (machine [0x8b, 0x06] regOnly).modPolicy = .regOnly ∧ modField 0x06#8 ≠ 3#2) ∧
      (hasSecondByte (classOf 0xc6#8) = true ∧ classOf 0xc6#8 ≠ .rmReg ∧
        (machine [0xc6, 0x06] regOnly).directPolicy = .fail ∧ modField 0x06#8 = 0#2 ∧ lowField 0x06#8 = 6#3) ∧
      (machine [0x8b, 0x06] Config.defaults).modPolicy = .full ∧
      (machine [0x8b, 0x06] Config.defaults).stream.read 0 = some 0x8b#8 ∧
      (machine [0x8b, 0x06] Config.defaults).stream.read 1 = some 0x06#8 := by decide

/-- A step that fails, for each of the four kinds. -/
theorem witness_ErrorKindsBelongToTheirPolicies :
    shown [0x8b, 0x07] regOnly = error .malformedSecondByte 2 ∧
      shown [0x8b, 0x06] Config.defaults = error .directAddressUnimplemented 2 ∧
      shown [0x90] strict = error .unrecognizedOpcode 1 ∧
      shown [0x8b] Config.defaults = error .endOfInputMidInstruction 1 :=
  ⟨by decide, by decide, by decide, by decide⟩

theorem witness_IterationHasFourOutcomes : (machine [0x90] Config.defaults).phase = .pB0 := rfl

theorem witness_EndedPassStaysAsItIs :
    State.reset.phase = .pIdle ∧ State.reset.request = none ∧
      { machine [] Config.defaults with phase := .pOk }.request = none ∧
      { machine [] Config.defaults with phase := .pErr }.request = none := by decide

/-- A start asked for after reset, and from the end of an earlier pass. -/
def request : PassRequest := ⟨[0x89, 0xd9], "; ".toList, Config.defaults⟩

theorem witness_StartOfAPassWritesTheHeader :
    ((State.reset.submit request).phase = .pIdle ∧ (State.reset.submit request).request = some request) ∧
      { machine [] strict with phase := .pOk, request := some request }.request = some request ∧
      { machine [] strict with phase := .pErr, request := some request }.request = some request := by decide

theorem witness_NoStartWhileAPassIsRunning :
    (machine [0x90] Config.defaults).status = .run ∧ (machine [0x90] Config.defaults).agrees ∧
      ∃ t, step (machine [0x90] Config.defaults) = .next t ∧ t.phase = .pB0 :=
  ⟨rfl, ⟨rfl, rfl⟩, next_of_endsIn (by decide)⟩

theorem witness_PassTerminates :
    (∃ t, step (machine [0x90] Config.defaults) = .next t ∧ t.phase = .pB0) ∧
      (machine [0x90] Config.defaults).stream.wf = true ∧
      (machine [0x90] Config.defaults).pc ≤ (machine [0x90] Config.defaults).len ∧
      (machine [0x90] Config.defaults).request = none ∧ (machine [0xb1] Config.defaults).reads = true ∧
      (∃ t, tick (machine [0xb1] Config.defaults) = .next t ∧ t.phase = .pIlo) :=
  ⟨next_of_endsIn (by decide), by decide, by decide, by decide, by decide, next_of_endsIn (by decide)⟩

theorem inv_machine (bytes : List Byte) (p : Policies) : (machine bytes p).Inv :=
  ⟨by simpa [machine, State.stream] using Memory.wf_ofBytes bytes, Nat.zero_le _, .inr ⟨rfl, rfl⟩, ⟨rfl, rfl⟩, trivial⟩

/-- A stream of a skipped byte and two instructions. -/
def items : List Item := [.skip 0x90, .insn longOne topOperands, .insn (.movRegImmB 1) ⟨0, 12⟩]

theorem items_ok (bytes : List Byte) : ∀ x ∈ items, x.ok (machine bytes Config.defaults) := by
  intro x hx
  simp only [items, List.mem_cons, List.not_mem_nil, or_false] at hx
  rcases hx with rfl | rfl | rfl
  · exact ⟨by decide, rfl⟩
  · exact ⟨by decide, by decide, fun _ => rfl, fun h => nomatch h⟩
  · exact ⟨by decide, by decide, fun _ => rfl, fun h => nomatch h⟩

/-- The start of a pass over that stream, and of a pass over the empty one that is then run to its end. -/
theorem witness_SuccessfulPassWritesOneLinePerInstruction :
    ((machine [] Config.defaults).Inv ∧ (machine [] Config.defaults).status = .run ∧
        ∃ t, step (machine [] Config.defaults) = .next t ∧ t.phase = .pOk) ∧
      (let s := { machine (items.flatMap Item.bytes) Config.defaults with phase := .pHdr }
       s.phase = .pHdr ∧ s.pc = 0 ∧ (∀ x ∈ items, x.ok s) ∧ s.src = some (Memory.ofBytes (items.flatMap Item.bytes))) ∧
      (let s := { machine [] Config.defaults with phase := .pHdr }
       s.status = .run ∧ s.request = none ∧
         ∃ t, Host.Core.run Sys2Proof.core 2 s = .next t ∧ t.status = .doneOk) :=
  ⟨⟨inv_machine _ _, rfl, next_of_endsIn (by decide)⟩, ⟨rfl, rfl, items_ok (items.flatMap Item.bytes), rfl⟩, rfl,
    rfl, _, rfl, by decide⟩

theorem witness_SuccessfulPassPresentsAndLogs :
    let s := { machine ([0x90#8] ++ items.flatMap Item.bytes) Config.defaults with pc := 1 }
    s.phase = .pB0 ∧ (∀ x ∈ items, x.ok s) ∧ s.pc = [0x90#8].length ∧
      s.src = some (Memory.ofBytes ([0x90#8] ++ items.flatMap Item.bytes)) :=
  ⟨rfl, items_ok ([0x90#8] ++ items.flatMap Item.bytes), rfl, rfl⟩

theorem witness_StateMachineRefinesTheLoop : (machine [0x8b, 0x06] Config.defaults).phase = .pB0 := rfl

/-- A state between two reads that meets the invariant and has a next state. -/
theorem witness_StepKeepsTheInvariant :
    let s := { machine [0xc7, 0x40, 0x04] Config.defaults with phase := .pIlo, pc := 3, cls := .immRm, w := true, mod := 1 }
    s.Inv ∧ ∃ t, step s = .next t ∧ t.phase = .pErr :=
  ⟨⟨by decide, by decide, .inr ⟨rfl, rfl⟩, ⟨rfl, rfl⟩, .inr rfl, by decide⟩, next_of_endsIn (by decide)⟩

theorem witness_TransactionKeepsTheInvariant :
    (machine [0x89, 0xd9] Config.defaults).Inv ∧
      ∃ t, tick (machine [0x89, 0xd9] Config.defaults) = .next t ∧ t.phase = .pB1 :=
  ⟨inv_machine _ _, next_of_endsIn (by decide)⟩

theorem witness_ConsistentStateNeverStops : (machine [0x8b, 0x06] Config.defaults).Inv := inv_machine _ _

theorem witness_LatchesCarryNothingToTheNextInstruction :
    (machine [0xb1] Config.defaults).phase = .pB0 ∧
      (machine [0xb1] Config.defaults).SameButLatches
        { machine [0xb1] Config.defaults with b0 := 0xff, disp := 0xffff, imm := 1, w := true } := ⟨rfl, rfl⟩

/-- Three ways an iteration ends without having found the stream exhausted, on streams that differ behind it. -/
theorem witness_IterationDependsOnItsOwnBytesOnly :
    (∃ t, step (machine [0xb1, 0x0c] Config.defaults) = .next t ∧ t.phase = .pB0) ∧
      shown [0x8b, 0x06] Config.defaults = error .directAddressUnimplemented 2 ∧
      ((Memory.ofBytes [0xb1, 0x0c, 0xff]).read 0 = (machine [0xb1, 0x0c] Config.defaults).stream.read 0 ∧
        (Memory.ofBytes [0xb1, 0x0c, 0xff]).read 1 = (machine [0xb1, 0x0c] Config.defaults).stream.read 1) :=
  ⟨next_of_endsIn (by decide), by decide, by decide⟩

theorem witness_NextReadsTheStreamInOrder :
    (machine [0xb1] Config.defaults).src = some (Memory.ofBytes [0xb1]) ∧
      (machine [0xb1] Config.defaults).pc < [0xb1#8].length ∧
      [0xb1#8].length ≤ { machine [0xb1] Config.defaults with pc := 1 }.pc := by decide

theorem witness_OutputIsAppendOnlyAndTheCursorMovesForward :
    let s := { machine [] Config.defaults with phase := .pHdr }
    s.agrees ∧ s.status = .run ∧ ∃ t, step s = .next t ∧ t.phase = .pB0 :=
  ⟨⟨rfl, rfl⟩, rfl, next_of_endsIn (by decide)⟩

theorem witness_LinesFollowTheGrammar :
    ∃ t, step (machine [0x8b, 0x06, 0, 0] allRows) = .next t ∧ t.phase = .pB0 := next_of_endsIn (by decide)

theorem witness_OutputAlphabet :
    (machine [0x8b, 0x47, 0xff] Config.defaults).agrees ∧
      ∃ t, step (machine [0x8b, 0x47, 0xff] Config.defaults) = .next t ∧ t.phase = .pB0 :=
  ⟨⟨rfl, rfl⟩, next_of_endsIn (by decide)⟩

theorem witness_DiagnosticsRecordSkippedBytesOnly :
    (machine [0x90] Config.defaults).agrees ∧
      ∃ t, step (machine [0x90] Config.defaults) = .next t ∧ t.diag ≠ (machine [0x90] Config.defaults).diag :=
  ⟨⟨rfl, rfl⟩, _, rfl, by decide⟩

/-- Two different words with one text (95_test_vectors.md section 2.1): `89 d9` and `8b cb`. -/
theorem witness_LineDeterminesTheInstruction :
    let o : Operands := ⟨0, 0⟩
    o.fit (.movRmRegRr false true 3 1) = true ∧ o.fit (.movRmRegRr true true 1 3) = true ∧
      wholeLine (.movRmRegRr false true 3 1) o = wholeLine (.movRmRegRr true true 1 3) o := by decide

/-- Two words of class `IMM_RM` with one record, and one of another class with its own. -/
theorem witness_RecordDeterminesTheInstruction :
    topOperands.fit longOne = true ∧
      wholeRecord (.movRmImmM16W 7 1) topOperands = wholeRecord (.movRmImmM16W 0 1) topOperands ∧
      (Instr.movRmImmM16W 7 1).clearMiddle = (Instr.movRmImmM16W 0 1).clearMiddle ∧
      Operands.fit ⟨0, 255⟩ (.movRegImmB 7) = true ∧ (Instr.movRegImmB 7).cls ≠ .immRm := by decide

end Sys2Proof.Tests
end

section
/-! The decimal text of a number (spec/00_scope.md R15): `dec` by its last digit, and what follows by recursion on it. -/

namespace Sys2Proof.Machine

/-! ### One digit -/

theorem digit_toNat {k : Nat} (h : k < 10) : (digit k).toNat = 48 + k := by
  have hvalid : (48 + k).isValidChar := .inl (by omega)
  simp only [digit, Char.ofNat, dif_pos hvalid]
  rfl

theorem isDigit_digit {k : Nat} (h : k < 10) : isDigit (digit k) = true := by
  simp only [isDigit, digit_toNat h, Bool.and_eq_true, decide_eq_true_eq]; omega

theorem digit_ne_zero {k : Nat} (h : k < 10) (hk : k ≠ 0) : digit k ≠ '0' := by
  intro e
  have hval : 48 + k = 48 := by rw [← digit_toNat h, e]; rfl
  omega

/-! ### `dec` by its last digit -/

theorem decDigits_eq_append (fuel n : Nat) (tail : Text) :
    decDigits fuel n tail = decDigits fuel n [] ++ tail := by
  induction fuel generalizing n tail with
  | zero => rfl
  | succ fuel ih =>
    simp only [decDigits]
    split
    · rfl
    · rw [ih _ (_ :: tail), ih _ [_], List.append_assoc]; rfl

/-- Fuel above the number is enough: the digits do not depend on how much there is. -/
theorem decDigits_fuel_irrelevant {f g n : Nat} (hf : n < f) (hg : n < g) :
    decDigits f n [] = decDigits g n [] := by
  induction f generalizing g n with
  | zero => exact absurd hf (Nat.not_lt_zero n)
  | succ f ih =>
    cases g with
    | zero => exact absurd hg (Nat.not_lt_zero n)
    | succ g =>
      simp only [decDigits]
      split
      · rfl
      · rw [decDigits_eq_append f, decDigits_eq_append g, ih (g := g) (by omega) (by omega)]

theorem dec_of_lt_ten {n : Nat} (h : n < 10) : dec n = [digit n] := by
  simp only [dec, decDigits, if_pos h]

theorem dec_of_ten_le {n : Nat} (h : 10 ≤ n) : dec n = dec (n / 10) ++ [digit (n % 10)] := by
  rw [dec, decDigits, if_neg (by omega), decDigits_eq_append,
    decDigits_fuel_irrelevant (by omega) (Nat.lt_succ_self _), ← dec]

/-- Induction along the digits of `dec n`: a single digit, or one more digit behind a positive number's. -/
theorem decInduction {motive : Nat → Prop} (single : ∀ n, n < 10 → motive n)
    (more : ∀ n, 10 ≤ n → n / 10 ≠ 0 → motive (n / 10) → motive n) (n : Nat) : motive n := by
  induction n using Nat.strongRecOn with
  | ind n ih =>
    by_cases h : n < 10
    · exact single n h
    · exact more n (by omega) (by omega) (ih (n / 10) (by omega))

/-! ### What the text is -/

theorem decValue_append_digit (t : Text) {k : Nat} (h : k < 10) :
    decValue (t ++ [digit k]) = 10 * decValue t + k := by
  simp only [decValue, List.foldl_append, List.foldl_cons, List.foldl_nil, digit_toNat h]; omega

/-- The decimal text of `n` denotes `n`. -/
theorem decValue_dec (n : Nat) : decValue (dec n) = n := by
  induction n using decInduction with
  | single n h =>
    rw [dec_of_lt_ten h]
    exact (decValue_append_digit [] h).trans (Nat.zero_add n)
  | more n h _ ih =>
    rw [dec_of_ten_le h, decValue_append_digit _ (Nat.mod_lt n (by decide)), ih]
    exact Nat.div_add_mod n 10

theorem all_isDigit_dec (n : Nat) : (dec n).all isDigit = true := by
  induction n using decInduction with
  | single n h => simp [dec_of_lt_ten h, isDigit_digit h]
  | more n h _ ih => simp [dec_of_ten_le h, List.all_append, ih, isDigit_digit (Nat.mod_lt n (by decide))]

theorem dec_ne_nil (n : Nat) : dec n ≠ [] := by
  by_cases h : n < 10
  · simp [dec_of_lt_ten h]
  · simp [dec_of_ten_le (Nat.le_of_not_lt h)]

/-- A digit put behind a text does not change its first character, so the leading digit is that of a number below 10. -/
theorem head?_dec_ne_zero {n : Nat} (hn : n ≠ 0) : (dec n).head? ≠ some '0' := by
  induction n using decInduction with
  | single n h => simpa [dec_of_lt_ten h] using digit_ne_zero h hn
  | more n h hq ih =>
    rw [dec_of_ten_le h, List.head?_append_of_ne_nil _ (dec_ne_nil _)]
    exact ih hq

/-- Settles O7: every part by induction along the digits, from the equations of `dec` by its last digit. -/
theorem decimalTextIsCanonical : Obligations.DecimalTextIsCanonical := fun n =>
  ⟨decValue_dec n, all_isDigit_dec n, fun h => h ▸ rfl, head?_dec_ne_zero, dec_ne_nil n⟩

end Sys2Proof.Machine
end

section
/-! `Next` and `Need` on the stream a byte source supplies (spec/00_scope.md R11). -/

namespace Sys2Proof.Machine

theorem State.read_stream_of_src {s : State} {bytes : List Byte} (h : s.src = some (Memory.ofBytes bytes)) (a : Nat) :
    s.stream.read a = bytes[a]? := by
  rw [State.stream, h, Option.getD_some, Memory.read_ofBytes]

/-- Settles O54: the byte at the cursor is the list's entry there, which decides what `Next` and `Need` do. -/
theorem nextReadsTheStreamInOrder : Obligations.NextReadsTheStreamInOrder := by
  intro bytes s follow hsrc
  have hread := State.read_stream_of_src hsrc s.pc
  refine ⟨fun h => ?_, fun h => ?_⟩
  · have hbyte := hread.trans (List.getElem?_eq_getElem h)
    exact ⟨State.next_some hbyte, State.need_some hbyte⟩
  · have hend := hread.trans (List.getElem?_eq_none h)
    exact ⟨State.next_none hend, State.need_none hend⟩

end Sys2Proof.Machine
end

section
/-! The laws of the two register tables (spec/40_operand_tables.md R133). -/

namespace Sys2Proof.Machine

/-! ### No two entries are the same -/

theorem reg8_injective : Function.Injective reg8 := by
  unfold Function.Injective
  decide

theorem reg16_injective : Function.Injective reg16 := by
  unfold Function.Injective
  decide

theorem reg8_ne_reg16 : ∀ i j : Sel3, reg8 i ≠ reg16 j := by decide

/-- A name determines its table, as no name stands in both, and its selector within the table. -/
theorem regName_injective {w v : Bit} {i j : Sel3} (h : regName w i = regName v j) : w = v ∧ i = j := by
  cases w <;> cases v
  case false.false => exact ⟨rfl, reg8_injective h⟩
  case false.true => exact absurd h (reg8_ne_reg16 i j)
  case true.false => exact absurd h.symm (reg8_ne_reg16 j i)
  case true.true => exact ⟨rfl, reg16_injective h⟩

/-! ### What an entry is -/

theorem regName_length : ∀ (w : Bit) (i : Sel3), (regName w i).length = 2 := by decide

theorem toNat_of_isLower {c : Char} (h : c.isLower = true) : 97 ≤ c.toNat ∧ c.toNat ≤ 122 := by
  simpa [Char.isLower, UInt32.le_iff_toNat_le] using h

theorem all_isLower_regName : ∀ (w : Bit) (i : Sel3), (regName w i).all Char.isLower = true := by decide

theorem regName_lowercase {w : Bit} {i : Sel3} {c : Char} (hc : c ∈ regName w i) : 97 ≤ c.toNat ∧ c.toNat ≤ 122 :=
  toNat_of_isLower (List.all_eq_true.mp (all_isLower_regName w i) c hc)

/-- Settles O8: distinctness within each table and across the two, the form of the 16 names, and the five entries of the
source by evaluation. -/
theorem registerTablesObeyTheirLaws : Obligations.RegisterTablesObeyTheirLaws :=
  ⟨fun _ _ _ _ => regName_injective, fun w i => ⟨regName_length w i, fun _ => regName_lowercase⟩, rfl, rfl, rfl, rfl, rfl⟩

end Sys2Proof.Machine
end

section
/-! What one iteration of the engine's loop does with the item that stands at the cursor, and everything an iteration
can do (spec/41_decode_pass.md R152 to R156). -/

namespace Sys2Proof.Machine

variable {s t u : State}

/-! ### What a pass keeps fixed -/

/-- From `s` to `t` the stream, the policies and the caller's request are the same (R42, R73, R274). -/
structure State.SamePass (s t : State) : Prop where
  src : t.src = s.src
  unrecPolicy : t.unrecPolicy = s.unrecPolicy
  modPolicy : t.modPolicy = s.modPolicy
  directPolicy : t.directPolicy = s.directPolicy
  request : t.request = s.request

theorem State.SamePass.trans (h : s.SamePass u) (h' : u.SamePass t) : s.SamePass t where
  src := h'.src.trans h.src
  unrecPolicy := h'.unrecPolicy.trans h.unrecPolicy
  modPolicy := h'.modPolicy.trans h.modPolicy
  directPolicy := h'.directPolicy.trans h.directPolicy
  request := h'.request.trans h.request

theorem State.SamePass.stream (h : s.SamePass t) : t.stream = s.stream := congrArg (·.getD []) h.src

theorem State.SamePass.len (h : s.SamePass t) : t.len = s.len := congrArg Memory.len h.stream

theorem State.SamePass.item_ok (h : s.SamePass t) {x : Item} : x.ok t ↔ x.ok s := by
  cases x <;> simp only [Item.ok, State.accepts, h.unrecPolicy, h.modPolicy, h.directPolicy]

theorem State.advance_samePass (s : State) (n : Nat) : s.SamePass (s.advance n) := by constructor <;> rfl

theorem State.begin_finish_samePass (s : State) : s.SamePass s.begin.finish := by constructor <;> rfl

/-- Whatever comes of a row, the pass it belongs to is the same. -/
theorem exec_samePass {i : Instr} (hi : i.wellFormed = true) (h : exec i s = .next t) : s.SamePass t := by
  obtain ⟨t', e, ho⟩ := exec_outcome hi s
  obtain rfl : t' = t := Host.Outcome.next.inj (e.symm.trans h)
  cases ho with
  | malformed _ _ ht => subst ht; constructor <;> simp
  | direct _ _ _ ht => subst ht; constructor <;> simp
  | exhausted _ _ _ _ _ _ _ _ ht => subst ht; constructor <;> simp
  | decoded _ _ _ _ ht => subst ht; constructor <;> simp

/-! ### Items at the cursor -/

theorem encodeWhole_length (i : Instr) (o : Operands) : (encodeWhole i o).length = i.length := by
  simp [encodeWhole, Instr.length, littleEndian_length i.dispBytes_le, littleEndian_length i.immBytes_le,
    Nat.add_assoc]

/-- A row has one or two opcode bytes (R90). -/
theorem encode_length_bounds (i : Instr) : 1 ≤ (encode i).length ∧ (encode i).length ≤ 2 := by
  cases i <;> simp [encode]

/-- An item occupies 1 to 6 bytes (R90, R154). -/
theorem Item.bytes_length_bounds (x : Item) : 1 ≤ x.bytes.length ∧ x.bytes.length ≤ 6 := by
  cases x with
  | insn i o =>
    have hopcode := encode_length_bounds i
    have hdisp := i.dispBytes_le
    have himm := i.immBytes_le
    simp only [Item.bytes, encodeWhole_length, Instr.length]; omega
  | skip b => simp [Item.bytes]

/-- A run of bytes stands at `a` exactly when its first part does and the rest stands behind that. -/
theorem Memory.window_eq_append {m : Memory} {a : Nat} {l l' : List Byte} :
    m.window a (l ++ l').length = l ++ l' ↔
      m.window a l.length = l ∧ m.window (a + l.length) l'.length = l' := by
  induction l generalizing a with
  | nil => simp [Memory.window]
  | cons b l ih =>
    simp only [List.cons_append, List.length_cons, Memory.window_cons, ih, and_assoc,
      show a + 1 + l.length = a + (l.length + 1) by omega]

/-- A whole instruction stands at `a` exactly when its opcode bytes do, with its trailing bytes behind them. -/
theorem Memory.window_encodeWhole {m : Memory} {a : Nat} {i : Instr} {o : Operands} :
    m.window a (encodeWhole i o).length = encodeWhole i o ↔
      m.window a (encode i).length = encode i ∧
        m.window (a + (encode i).length) (i.dispBytes + i.immBytes) =
          littleEndian i.dispBytes o.disp ++ littleEndian i.immBytes o.imm := by
  rw [encodeWhole, List.append_assoc, Memory.window_eq_append, List.length_append,
    littleEndian_length i.dispBytes_le, littleEndian_length i.immBytes_le]

/-- The decoder reads back what the encoder wrote, whatever bytes follow; an `m0` row needs `rm ≠ 6` (R104). -/
theorem decode_encode_append {i : Instr} (hi : i.wellFormed = true) (rest : List Byte) :
    decode (encode i ++ rest) = .insn i rest := by
  cases i <;> simp_all [Instr.wellFormed, encode, decode, rmRegRow, immRmRow, immRegRow]

theorem step_eq_exec {i : Instr} (hi : i.wellFormed = true) (hp : s.phase = .pB0)
    (hw : s.stream.window s.pc (encode i).length = encode i) : step s = exec i s := by
  have hlen := encode_length_bounds i
  have hwin := Memory.window_append (m := s.stream) (2 - (encode i).length) (congrArg List.length hw)
  rw [Nat.add_sub_cancel' hlen.2, hw] at hwin
  exact step_insn hp (hwin ▸ decode_encode_append hi _)

/-! ### One iteration -/

/-- From `s` at an instruction boundary to `t` at another one, the pass has gone over `items` and nothing else. -/
structure State.Passes (s : State) (items : List Item) (t : State) : Prop where
  pass : s.SamePass t
  phase : t.phase = .pB0
  status : t.status = s.status
  pc : t.pc = s.pc + (items.flatMap Item.bytes).length
  text : t.text = s.text ++ items.flatMap Item.text
  records : t.records = s.records ++ items.flatMap Item.presented
  diag : t.diag = s.diag ++ loggedFrom s.pc items

theorem State.Passes.nil (hp : s.phase = .pB0) : s.Passes [] s := by
  refine ⟨?_, hp, rfl, ?_, ?_, ?_, ?_⟩
  · constructor <;> rfl
  all_goals simp [loggedFrom]

theorem State.Passes.cons {x : Item} {xs : List Item} (h : s.Passes [x] u) (h' : u.Passes xs t) :
    s.Passes (x :: xs) t where
  pass := h.pass.trans h'.pass
  phase := h'.phase
  status := h'.status.trans h.status
  pc := by rw [h'.pc, h.pc]; simp [Nat.add_assoc]
  text := by rw [h'.text, h.text]; simp
  records := by rw [h'.records, h.records]; simp
  diag := by rw [h'.diag, h.diag, h.pc]; simp [loggedFrom]

/-- The policies allow the item whose bytes stand at the cursor: the iteration passes over it. -/
theorem step_passes {x : Item} (hp : s.phase = .pB0) (hx : x.ok s)
    (hw : s.stream.window s.pc x.bytes.length = x.bytes) : ∃ t, step s = .next t ∧ s.Passes [x] t := by
  cases x with
  | insn i o =>
    obtain ⟨hi, hfit, hacc⟩ := hx
    obtain ⟨hop, htrail⟩ := Memory.window_encodeWhole.1 hw
    obtain ⟨t, e, ⟨hpc, _, htext, hphase, hstatus, _, hdiag⟩, hrec⟩ := exec_decodes hi hacc hfit htrail
    refine ⟨t, (step_eq_exec hi hp hop).trans e, exec_samePass hi e, hphase, hstatus, ?_, ?_, ?_, ?_⟩
    · simpa [Item.bytes, encodeWhole_length] using hpc
    · simpa [Item.text] using htext
    · simpa [Item.presented, State.Presents] using hrec
    · simpa [loggedFrom, Item.logged] using hdiag
  | skip b =>
    obtain ⟨hb, hlenient⟩ := hx
    have hread : s.stream.read s.pc = some b := (Memory.window_cons.1 hw).1
    refine ⟨_, step_unrecognised hp hread hb, ?_⟩
    simp only [State.unrecognised, State.takeB0_unrecPolicy, State.begin_unrecPolicy, hlenient]
    constructor <;> simp [Item.bytes, Item.text, Item.presented, loggedFrom, Item.logged]
    constructor <;> simp

/-- Everything an iteration can do: the stream is exhausted and the pass is over, an item that stands at the cursor is
passed over, or the pass ends in a decode error. -/
inductive Iteration (s t : State) : Prop where
  | finished (hend : s.stream.read s.pc = none) (ht : t = s.begin.finish)
  | passed (x : Item) (hx : x.ok s) (hw : s.stream.window s.pc x.bytes.length = x.bytes) (h : s.Passes [x] t)
  | failed (hphase : t.phase = .pErr) (hstatus : t.status = .doneErr) (hpass : s.SamePass t)

theorem iteration (hp : s.phase = .pB0) : ∃ t, step s = .next t ∧ Iteration s t := by
  rcases step_cases hp with ⟨hend, e⟩ | ⟨b, hread, hb, e⟩ | ⟨b, _, _, _, e⟩ | ⟨i, hi, hop, e⟩
  · exact ⟨_, e, .finished hend rfl⟩
  · cases hpol : s.unrecPolicy with
    | lenient =>
      have hx : (Item.skip b).ok s := ⟨hb, hpol⟩
      have hw : s.stream.window s.pc (Item.skip b).bytes.length = (Item.skip b).bytes :=
        Memory.window_cons.2 ⟨hread, rfl⟩
      obtain ⟨t, e', h⟩ := step_passes hp hx hw
      exact ⟨t, e', .passed _ hx hw h⟩
    | strict =>
      refine ⟨_, e, ?_⟩
      simp only [State.unrecognised, State.takeB0_unrecPolicy, State.begin_unrecPolicy, hpol]
      exact .failed rfl rfl (by constructor <;> simp)
  · exact ⟨_, e, .failed rfl rfl (by constructor <;> simp)⟩
  · obtain ⟨t, e', ho⟩ := exec_outcome hi s
    cases ho with
    | malformed _ _ ht => exact ⟨t, e.trans e', .failed (by simp [ht]) (by simp [ht]) (exec_samePass hi e')⟩
    | direct _ _ _ ht => exact ⟨t, e.trans e', .failed (by simp [ht]) (by simp [ht]) (exec_samePass hi e')⟩
    | exhausted _ _ _ _ _ _ _ _ ht =>
      exact ⟨t, e.trans e', .failed (by simp [ht]) (by simp [ht]) (exec_samePass hi e')⟩
    | decoded hacc o hfit htrail _ =>
      have hx : (Item.insn i o).ok s := ⟨hi, hfit, hacc⟩
      have hw := Memory.window_encodeWhole.2 ⟨hop, htrail⟩
      obtain ⟨u, e'', h⟩ := step_passes hp hx hw
      exact ⟨u, e'', .passed _ hx hw h⟩

theorem Iteration.of_step (hp : s.phase = .pB0) (h : step s = .next t) : Iteration s t := by
  obtain ⟨u, e, hit⟩ := iteration hp
  obtain rfl : u = t := Host.Outcome.next.inj (e.symm.trans h)
  exact hit

end Sys2Proof.Machine
end

section
/-! What one transaction of the per-byte state machine can do, by what it reads (spec/41_decode_pass.md R161, R162). -/

namespace Sys2Proof.Machine

variable {s t u : State}

/-- Does the block wait for the caller (R165, R274). -/
def State.waits (s : State) : Bool :=
  match s.phase with
  | .pIdle | .pOk | .pErr => true
  | .pHdr | .pB0 | .pB1 | .pDlo | .pDhi | .pIlo | .pIhi | .pEmit => false

/-- From `s` to `t` nothing is read: the pass and the cursor stay, and the status too unless a decode error is taken. -/
structure State.ReadsNothing (s t : State) : Prop where
  pass : s.SamePass t
  pc : t.pc = s.pc
  status : t.status = s.status ∨ t.status = .doneErr

theorem State.goto_readsNothing (p : Phase) (s : State) : s.ReadsNothing (s.goto p) :=
  ⟨by constructor <;> simp, by simp, .inl (by simp)⟩

theorem State.raise_readsNothing (k : ErrorKind) (s : State) : s.ReadsNothing (s.raise k) :=
  ⟨by constructor <;> simp, by simp, .inr (by simp)⟩

theorem State.emit_readsNothing (l : Text) (r : InsnRecord) (s : State) : s.ReadsNothing (s.emit l r) :=
  ⟨by constructor <;> simp, by simp, .inl (by simp)⟩

theorem State.ReadsNothing.trans (h : s.ReadsNothing u) (h' : u.ReadsNothing t) : s.ReadsNothing t where
  pass := h.pass.trans h'.pass
  pc := h'.pc.trans h.pc
  status := h'.status.elim (fun e => h.status.imp e.trans e.trans) .inr

theorem State.latchB1_readsNothing (b : Byte) (s : State) : s.ReadsNothing (s.latchB1 b) :=
  ⟨by constructor <;> simp, by simp, .inl (by simp)⟩

theorem State.setDisp_readsNothing (v : Word) (s : State) : s.ReadsNothing (s.setDisp v) :=
  ⟨by constructor <;> simp, by simp, .inl (by simp)⟩

theorem State.setImm_readsNothing (v : Word) (s : State) : s.ReadsNothing (s.setImm v) :=
  ⟨by constructor <;> simp, by simp, .inl (by simp)⟩

theorem State.unrecognised_readsNothing (b : Byte) (s : State) : s.ReadsNothing (s.unrecognised b) := by
  unfold State.unrecognised
  split
  · exact ⟨by constructor <;> simp, by simp, .inl (by simp)⟩
  · exact State.raise_readsNothing _ _

/-! ### Once the byte is read -/

theorem tickB1_readsNothing (b : Byte) (s : State) : s.ReadsNothing (tickB1 b s) := by
  refine (State.latchB1_readsNothing b s).trans ?_
  simp only [tickB1]
  split
  · exact State.raise_readsNothing _ _
  · split
    · exact State.raise_readsNothing _ _
    · split
      · exact (State.setDisp_readsNothing _ _).trans (State.goto_readsNothing _ _)
      · exact State.goto_readsNothing _ _

theorem tickDlo_readsNothing (b : Byte) (s : State) : s.ReadsNothing (tickDlo b s) := by
  refine (State.setDisp_readsNothing (b.setWidth 16) s).trans ?_
  simp only [tickDlo]
  split
  · exact State.goto_readsNothing _ _
  · exact State.goto_readsNothing _ _

theorem tickDhi_readsNothing (b : Byte) (s : State) : s.ReadsNothing (tickDhi b s) :=
  (State.setDisp_readsNothing _ s).trans (State.goto_readsNothing _ _)

theorem tickIlo_readsNothing (b : Byte) (s : State) : s.ReadsNothing (tickIlo b s) :=
  (State.setImm_readsNothing _ s).trans (State.goto_readsNothing _ _)

theorem tickIhi_readsNothing (b : Byte) (s : State) : s.ReadsNothing (tickIhi b s) :=
  (State.setImm_readsNothing _ s).trans (State.goto_readsNothing _ _)

theorem tickEmit_readsNothing (h : tickEmit s = .next t) : s.ReadsNothing t := by
  unfold tickEmit at h
  cases hc : s.cls with
  | unrec => simp [hc] at h
  | rmReg | immReg | immRm =>
    simp only [hc, Host.Outcome.next.injEq] at h
    exact h ▸ State.emit_readsNothing _ _ s

/-! ### One transaction -/

/-- Everything a transaction can do: the block waits and nothing happens, the caller starts a pass, a line is written
without a read, a read finds the stream exhausted at a boundary or inside an instruction, or it consumes one byte. -/
inductive Transaction (s t : State) : Prop where
  | idle (hs : s.waits = true) (hr : s.reads = false) (hreq : s.request = none) (ht : t = s)
  | started (hs : s.waits = true) (hr : s.reads = false) (r : PassRequest) (hreq : s.request = some r)
      (ht : t = s.startPass r)
  | wrote (hs : s.waits = false) (hr : s.reads = false) (h : s.ReadsNothing t)
  | finished (hs : s.phase = .pB0) (hend : s.stream.read s.pc = none) (ht : t = s.begin.finish)
  | exhausted (hs : s.reads = true) (hend : s.stream.read s.pc = none) (ht : t = s.raise .endOfInputMidInstruction)
  | consumed (hs : s.reads = true) (b : Byte) (hread : s.stream.read s.pc = some b) (h : (s.advance 1).ReadsNothing t)

/-- The reading phases other than `P_B0`, by what is done once the byte is read. -/
theorem Transaction.of_needTick {f : Byte → State → State} (hs : s.reads = true)
    (hf : ∀ b u, State.ReadsNothing u (f b u)) (h : s.needTick f = .next t) : Transaction s t := by
  obtain rfl : s.need f = t := Host.Outcome.next.inj h
  cases hread : s.stream.read s.pc with
  | none => exact .exhausted hs hread (State.need_none hread)
  | some b => exact .consumed hs b hread (State.need_some hread ▸ hf b _)

theorem Transaction.of_tickB0 (hp : s.phase = .pB0) : Transaction s (tickB0 s) := by
  have hreads : s.reads = true := by simp [State.reads, hp]
  cases hread : s.stream.read s.pc with
  | none => exact .finished hp hread (by simp only [tickB0, State.next_none (s := s.begin) hread])
  | some b =>
    refine .consumed hreads b hread ?_
    have hlatch : (s.advance 1).ReadsNothing ((s.begin.advance 1).latchB0 b) :=
      ⟨by constructor <;> simp, by simp, .inl (by simp)⟩
    refine hlatch.trans ?_
    simp only [tickB0, State.next_some (s := s.begin) hread]
    split
    · exact State.goto_readsNothing _ _
    · exact State.goto_readsNothing _ _
    · exact State.goto_readsNothing _ _
    · exact State.unrecognised_readsNothing _ _

theorem tick_idle (hs : s.waits = true) (hreq : s.request = none) : tick s = .next s := by
  cases hp : s.phase with
  | pIdle | pOk | pErr => simp only [tick, hp, hreq]
  | pHdr | pB0 | pB1 | pDlo | pDhi | pIlo | pIhi | pEmit => simp [State.waits, hp] at hs

theorem tick_started {r : PassRequest} (hs : s.waits = true) (hreq : s.request = some r) :
    tick s = .next (s.startPass r) := by
  cases hp : s.phase with
  | pIdle | pOk | pErr => simp only [tick, hp, hreq]
  | pHdr | pB0 | pB1 | pDlo | pDhi | pIlo | pIhi | pEmit => simp [State.waits, hp] at hs

theorem State.not_reads_of_waits (hs : s.waits = true) : s.reads = false := by
  cases hp : s.phase with
  | pIdle | pOk | pErr => simp [State.reads, hp]
  | pHdr | pB0 | pB1 | pDlo | pDhi | pIlo | pIhi | pEmit => simp [State.waits, hp] at hs

theorem Transaction.of_waits (hs : s.waits = true) (h : tick s = .next t) : Transaction s t := by
  have hr := State.not_reads_of_waits hs
  cases hreq : s.request with
  | none => exact .idle hs hr hreq (Host.Outcome.next.inj (h.symm.trans (tick_idle hs hreq)))
  | some r => exact .started hs hr r hreq (Host.Outcome.next.inj (h.symm.trans (tick_started hs hreq)))

/-- A guarded transaction that answers a next state met its guard. -/
theorem next_of_guard {c : Prop} [Decidable c] {o : Host.Outcome State Fault Refusal} {f : Fault}
    (h : (if c then o else .fault f) = .next t) : o = .next t := by
  by_cases hc : c
  · rwa [if_pos hc] at h
  · rw [if_neg hc] at h; cases h

theorem Transaction.of_tick (h : tick s = .next t) : Transaction s t := by
  cases hp : s.phase with
  | pIdle | pOk | pErr => exact .of_waits (by simp [State.waits, hp]) h
  | pHdr =>
    simp only [tick, hp, Host.Outcome.next.injEq] at h
    refine .wrote (by simp [State.waits, hp]) (by simp [State.reads, hp]) ?_
    exact h ▸ ⟨by constructor <;> simp, by simp, .inl (by simp)⟩
  | pB0 =>
    simp only [tick, hp, Host.Outcome.next.injEq] at h
    exact h ▸ .of_tickB0 hp
  | pB1 =>
    simp only [tick, hp] at h
    exact .of_needTick (by simp [State.reads, hp]) tickB1_readsNothing (next_of_guard h)
  | pDlo =>
    simp only [tick, hp] at h
    exact .of_needTick (by simp [State.reads, hp]) tickDlo_readsNothing (next_of_guard h)
  | pDhi =>
    simp only [tick, hp] at h
    exact .of_needTick (by simp [State.reads, hp]) tickDhi_readsNothing (next_of_guard h)
  | pIlo =>
    simp only [tick, hp] at h
    exact .of_needTick (by simp [State.reads, hp]) tickIlo_readsNothing h
  | pIhi =>
    simp only [tick, hp] at h
    exact .of_needTick (by simp [State.reads, hp]) tickIhi_readsNothing h
  | pEmit =>
    simp only [tick, hp] at h
    exact .wrote (by simp [State.waits, hp]) (by simp [State.reads, hp]) (tickEmit_readsNothing h)

end Sys2Proof.Machine
end

section
/-! Runs of the machine: what ends one, and that a pass ends within the length of its stream
(spec/41_decode_pass.md R157). -/

namespace Sys2Proof.Machine

variable {s t u : State}

/-! ### Runs -/

/-- A run begins with a step of its machine. -/
theorem core_run_succ {M : Host.Core} {s u : M.State} (h : M.step s = .next u) (n : Nat) :
    M.run (n + 1) s = M.run n u := by
  rw [Host.Core.run, h]

theorem run_succ (h : step s = .next u) (n : Nat) :
    Host.Core.run Sys2Proof.core (n + 1) s = Host.Core.run Sys2Proof.core n u :=
  core_run_succ (M := Sys2Proof.core) h n

/-- Where the block waits and no start is asked for, it stays as it is. -/
theorem run_idle (hs : s.waits = true) (hreq : s.request = none) (n : Nat) :
    Host.Core.run Sys2Proof.core n s = .next s := by
  induction n with
  | zero => rfl
  | succ n ih =>
    have hp : s.phase ≠ .pB0 := fun hp => by simp [State.waits, hp] at hs
    exact (run_succ ((step_eq_tick hp).trans (tick_idle hs hreq)) n).trans ih

/-! ### The cursor stays in the stream -/

/-- The stream is in canonical form and the cursor in it or at its end (R31, R32). -/
def State.InStream (s : State) : Prop := s.stream.wf = true ∧ s.pc ≤ s.len

theorem State.InStream.read_eq_none (h : s.InStream) : s.stream.read s.pc = none ↔ s.pc = s.len := by
  rw [Memory.read_eq_none h.1]
  exact ⟨h.2.antisymm, ge_of_eq⟩

theorem State.InStream.of_samePass (h : s.InStream) (hpass : s.SamePass t) (hpc : t.pc ≤ s.len) : t.InStream :=
  ⟨hpass.stream ▸ h.1, hpass.len ▸ hpc⟩

theorem Memory.le_len_of_window {m : Memory} {a : Nat} {l : List Byte} (h : m.wf = true) (ha : a ≤ m.len)
    (hw : m.window a l.length = l) : a + l.length ≤ m.len := by
  induction l generalizing a with
  | nil => exact ha
  | cons b l ih =>
    obtain ⟨hread, hw⟩ := Memory.window_cons.1 hw
    have hlt : a < m.len := (Memory.read_isSome h a).1 (by simp [hread])
    have := ih hlt hw
    rw [List.length_cons]; omega

/-! ### Iterations to the end of a pass -/

theorem State.Passes.pc_single {x : Item} (h : s.Passes [x] t) : t.pc = s.pc + x.bytes.length := by
  simpa using h.pc

/-- From an instruction boundary each iteration takes at least one byte of what is left, or ends the pass. -/
theorem pass_ends (hp : s.phase = .pB0) (hs : s.InStream) :
    ∃ n t, n ≤ s.len - s.pc + 1 ∧ Host.Core.run Sys2Proof.core n s = .next t ∧
      (t.phase = .pOk ∨ t.phase = .pErr) := by
  induction hk : s.len - s.pc using Nat.strongRecOn generalizing s with
  | ind k ih =>
    subst hk
    obtain ⟨u, e, hit⟩ := iteration hp
    cases hit with
    | finished _ hu => exact ⟨1, u, by omega, run_succ e 0, .inl (by simp [hu])⟩
    | failed hphase _ _ => exact ⟨1, u, by omega, run_succ e 0, .inr hphase⟩
    | passed x _ hw h =>
      have hpc := h.pc_single
      have hlen := h.pass.len
      have hone := x.bytes_length_bounds.1
      have hle : s.pc + x.bytes.length ≤ s.len := Memory.le_len_of_window hs.1 hs.2 hw
      obtain ⟨n, t, hn, hrun, hend⟩ := ih (u.len - u.pc) (by omega) h.phase (hs.of_samePass h.pass (by omega)) rfl
      exact ⟨n + 1, t, by omega, (run_succ e n).trans hrun, hend⟩

/-! ### Counting reads -/

/-- How many `Next()` the block can still issue in this pass: one for each byte left and one that answers `End`. -/
def State.readsLeft (s : State) : Nat := if s.waits then 0 else s.len - s.pc + 1

theorem State.readsLeft_le (s : State) : s.readsLeft ≤ s.len - s.pc + 1 := by
  unfold State.readsLeft; split <;> omega

theorem State.readsLeft_of_waits (h : s.waits = true) : s.readsLeft = 0 := if_pos h

theorem State.readsLeft_of_not_waits (h : s.waits = false) : s.readsLeft = s.len - s.pc + 1 := by
  simp [State.readsLeft, h]

theorem State.readsLeft_of_reads (h : s.reads = true) : s.readsLeft = s.len - s.pc + 1 :=
  State.readsLeft_of_not_waits (Bool.eq_false_iff.2 fun hw => by simp [State.not_reads_of_waits hw] at h)

theorem State.reads_le_readsLeft (s : State) : (if s.reads then 1 else 0) ≤ s.readsLeft := by
  split
  · rename_i h; rw [State.readsLeft_of_reads h]; omega
  · exact Nat.zero_le _

/-- A transaction keeps the cursor in the stream and takes its own `Next()` from those that are left. -/
theorem Transaction.readsLeft_le (h : Transaction s t) (hs : s.InStream) (hreq : s.request = none) :
    t.InStream ∧ t.request = none ∧ (if s.reads then 1 else 0) + t.readsLeft ≤ s.readsLeft := by
  cases h with
  | idle _ hr _ ht => subst ht; exact ⟨hs, hreq, by simp [hr]⟩
  | started _ _ r hr _ => rw [hreq] at hr; cases hr
  | wrote hw hr h =>
    refine ⟨hs.of_samePass h.pass (h.pc ▸ hs.2), h.pass.request.trans hreq, ?_⟩
    have hle := t.readsLeft_le
    rw [h.pass.len, h.pc] at hle
    simpa [hr, State.readsLeft_of_not_waits hw] using hle
  | finished hp _ ht =>
    subst ht
    refine ⟨hs.of_samePass s.begin_finish_samePass hs.2, hreq, ?_⟩
    rw [State.readsLeft_of_waits rfl, Nat.add_zero]
    exact s.reads_le_readsLeft
  | exhausted _ _ ht =>
    subst ht
    refine ⟨hs.of_samePass (State.raise_readsNothing _ s).pass hs.2, hreq, ?_⟩
    rw [State.readsLeft_of_waits rfl, Nat.add_zero]
    exact s.reads_le_readsLeft
  | consumed hreads b hread h =>
    have hlt : s.pc < s.len := (Memory.read_isSome hs.1 s.pc).1 (by simp [hread])
    have hpc : t.pc = s.pc + 1 := h.pc
    have hlen : t.len = s.len := h.pass.len
    have hle := t.readsLeft_le
    refine ⟨hs.of_samePass ((s.advance_samePass 1).trans h.pass) (by omega), h.pass.request.trans hreq, ?_⟩
    rw [if_pos hreads, State.readsLeft_of_reads hreads]; omega

theorem readsIn_le_readsLeft (n : Nat) (hs : s.InStream) (hreq : s.request = none) : readsIn n s ≤ s.readsLeft := by
  induction n generalizing s with
  | zero => exact Nat.zero_le _
  | succ n ih =>
    unfold readsIn
    cases e : tick s with
    | next t =>
      obtain ⟨ht, htreq, hle⟩ := (Transaction.of_tick e).readsLeft_le hs hreq
      exact (Nat.add_le_add_left (ih ht htreq) _).trans hle
    | fault f => exact s.reads_le_readsLeft
    | refused r => exact s.reads_le_readsLeft

/-- Settles O44: the cases of an iteration and of a transaction; the number of bytes left falls with each iteration, and
with each `Next()` that does not end the pass. -/
theorem passTerminates : Obligations.PassTerminates := by
  refine ⟨fun s t hp h hok herr => ?_, fun s hp hwf hpc => pass_ends hp ⟨hwf, hpc⟩, fun s t hr h => ?_,
    fun s n hwf hpc hreq => (readsIn_le_readsLeft n ⟨hwf, hpc⟩ hreq).trans s.readsLeft_le⟩
  · cases Iteration.of_step hp h with
    | finished _ ht => exact absurd (by simp [ht]) hok
    | failed hphase _ _ => exact absurd hphase herr
    | passed x _ _ h =>
      have hbounds := x.bytes_length_bounds
      have hpc := h.pc_single
      omega
  · cases Transaction.of_tick h with
    | idle _ hr' _ _ | started _ hr' _ _ _ | wrote _ hr' _ => simp [hr] at hr'
    | finished _ _ ht => exact .inr (by simp [ht])
    | exhausted _ _ ht => exact .inr (by simp [ht])
    | consumed _ _ _ h => exact .inl h.pc

end Sys2Proof.Machine
end

section
/-! A successful pass: over which streams a run returns `Ok`, and what it has written then
(spec/41_decode_pass.md R158). -/

namespace Sys2Proof.Machine

variable {s t u : State}

theorem core_run_add {M : Host.Core} {s u : M.State} {m : Nat} (h : M.run m s = .next u) (n : Nat) :
    M.run (m + n) s = M.run n u := by
  induction m generalizing s with
  | zero => rw [Nat.zero_add, Host.Outcome.next.inj h]
  | succ m ih =>
    rw [Nat.add_right_comm]
    rw [Host.Core.run] at h ⊢
    cases e : M.step s with
    | next v => rw [e] at h; exact ih h
    | fault r => rw [e] at h; cases h
    | refused r => rw [e] at h; cases h

theorem run_add {m : Nat} (h : Host.Core.run Sys2Proof.core m s = .next u) (n : Nat) :
    Host.Core.run Sys2Proof.core (m + n) s = Host.Core.run Sys2Proof.core n u :=
  core_run_add (M := Sys2Proof.core) h n

theorem State.window_of_src {bytes : List Byte} (h : s.src = some (Memory.ofBytes bytes)) (a n : Nat) :
    s.stream.window a n = (bytes.drop a).take n := by
  rw [State.stream, h, Option.getD_some, Memory.window_ofBytes]

theorem State.len_of_src {bytes : List Byte} (h : s.src = some (Memory.ofBytes bytes)) : s.len = bytes.length := by
  rw [State.len, State.stream, h, Option.getD_some, Memory.len_ofBytes]

/-- The bytes that are left once an item's bytes are taken from the cursor on. -/
theorem State.Passes.drop_pc {bytes rest : List Byte} {x : Item} (h : s.Passes [x] t)
    (hb : bytes.drop s.pc = x.bytes ++ rest) : bytes.drop t.pc = rest := by
  rw [h.pc_single, ← List.drop_drop, hb, List.drop_left]

/-! ### Forward: a stream of items is passed over -/

/-- Items that the policies allow and that stand at the cursor are passed over, one in each step. -/
theorem run_passes {items : List Item} {bytes : List Byte} (hp : s.phase = .pB0) (hok : ∀ x ∈ items, x.ok s)
    (hsrc : s.src = some (Memory.ofBytes bytes)) (hb : bytes.drop s.pc = items.flatMap Item.bytes) :
    ∃ t : State, Host.Core.run Sys2Proof.core items.length s = .next t ∧ s.Passes items t := by
  induction items generalizing s with
  | nil => exact ⟨s, rfl, .nil hp⟩
  | cons x xs ih =>
    obtain ⟨hx, hxs⟩ := List.forall_mem_cons.1 hok
    rw [List.flatMap_cons] at hb
    obtain ⟨u, e, h⟩ := step_passes hp hx (by rw [State.window_of_src hsrc, hb, List.take_left])
    obtain ⟨t, hrun, h'⟩ :=
      ih h.phase (fun y hy => h.pass.item_ok.2 (hxs y hy)) (h.pass.src.trans hsrc) (h.drop_pc hb)
    exact ⟨t, (run_succ e _).trans hrun, h.cons h'⟩

/-! ### Backward: a pass that returns `Ok` was over items -/

/-- A run from an instruction boundary that has returned `Ok` passed over items that make up all that was left of the
stream, and ended there. -/
theorem items_of_run_ok {bytes : List Byte} {n : Nat} (hp : s.phase = .pB0) (hs : s.status = .run)
    (hreq : s.request = none) (hsrc : s.src = some (Memory.ofBytes bytes))
    (hrun : Host.Core.run Sys2Proof.core n s = .next t) (ht : t.status = .doneOk) :
    ∃ (items : List Item) (u : State), (∀ x ∈ items, x.ok s) ∧ bytes.drop s.pc = items.flatMap Item.bytes ∧
      s.Passes items u ∧ t = u.begin.finish := by
  induction n generalizing s with
  | zero =>
    obtain rfl : s = t := Host.Outcome.next.inj hrun
    rw [hs] at ht; cases ht
  | succ n ih =>
    obtain ⟨u, e, hit⟩ := iteration hp
    rw [run_succ e] at hrun
    cases hit with
    | finished hend hu =>
      have hidle := run_idle (s := u) (by rw [hu]; rfl) (by rw [hu]; exact hreq) n
      rw [State.read_stream_of_src hsrc, List.getElem?_eq_none_iff] at hend
      obtain rfl : u = t := Host.Outcome.next.inj (hidle.symm.trans hrun)
      exact ⟨[], s, by simp, List.drop_eq_nil_of_le hend, .nil hp, hu⟩
    | failed hphase hstatus hpass =>
      have hidle := run_idle (by simp [State.waits, hphase]) (hpass.request.trans hreq) n
      obtain rfl : u = t := Host.Outcome.next.inj (hidle.symm.trans hrun)
      rw [hstatus] at ht; cases ht
    | passed x hx hw h =>
      rw [State.window_of_src hsrc] at hw
      have hb : bytes.drop s.pc = x.bytes ++ (bytes.drop s.pc).drop x.bytes.length := by
        conv_lhs => rw [← List.take_append_drop x.bytes.length (bytes.drop s.pc), hw]
      obtain ⟨xs, v, hok, hxs, h', htv⟩ := ih h.phase (h.status.trans hs) (h.pass.request.trans hreq)
        (h.pass.src.trans hsrc) hrun
      refine ⟨x :: xs, v, List.forall_mem_cons.2 ⟨hx, fun y hy => h.pass.item_ok.1 (hok y hy)⟩, ?_, h.cons h', htv⟩
      rw [hb, List.flatMap_cons, ← hxs, h.drop_pc hb]

/-! ### The first step and the last -/

/-- The first step of a pass writes the header line (R151). -/
theorem step_header (hp : s.phase = .pHdr) : step s = .next ((s.sinkLine header).goto .pB0) := by
  rw [step_eq_tick (by simp [hp]), tick, hp]

theorem State.header_text (s : State) :
    ((s.sinkLine header).goto .pB0).text = s.text ++ "bits 16".toList ++ [newline] := rfl

theorem State.header_samePass (s : State) : s.SamePass ((s.sinkLine header).goto .pB0) := by constructor <;> rfl

/-- A transaction elsewhere than at an instruction boundary or in a waiting phase does not end the pass in `Ok`. -/
theorem Transaction.status_ne_doneOk (h : Transaction s t) (hp : s.phase ≠ .pB0) (hw : s.waits = false)
    (hs : s.status = .run) : t.status ≠ .doneOk := by
  have hreads : ∀ {v : State}, v.status = .run → v.ReadsNothing t → t.status ≠ .doneOk := by
    intro v hv h ht
    rcases h.status with e | e <;> simp [hv, ht] at e
  cases h with
  | idle hw' _ _ _ | started hw' _ _ _ _ => rw [hw] at hw'; cases hw'
  | wrote _ _ h => exact hreads hs h
  | finished hp' _ _ => exact absurd hp' hp
  | exhausted _ _ ht => simp [ht]
  | consumed _ _ _ h => exact hreads (v := s.advance 1) hs h

theorem State.agrees.waits_eq_false (h : s.agrees) (hs : s.status = .run) : s.waits = false := by
  cases hp : s.phase <;> simp_all [State.agrees, State.waits]

/-- A step from a running state that meets the invariant returns `Ok` exactly at the end of the stream. -/
theorem step_ok_iff_at_end (hinv : s.Inv) (hs : s.status = .run) (h : step s = .next t) :
    t.status = .doneOk ↔ s.phase = .pB0 ∧ s.pc = s.len := by
  obtain ⟨hwf, hpc, _, hagree, _⟩ := hinv
  have hin : s.InStream := ⟨hwf, hpc⟩
  by_cases hp : s.phase = .pB0
  · refine ⟨fun ht => ⟨hp, ?_⟩, fun ⟨_, hend⟩ => ?_⟩
    · cases Iteration.of_step hp h with
      | finished hend _ => exact hin.read_eq_none.1 hend
      | passed _ _ _ h => rw [h.status, hs] at ht; cases ht
      | failed _ hstatus _ => rw [hstatus] at ht; cases ht
    · have e := step_exhausted hp (hin.read_eq_none.2 hend)
      obtain rfl : s.begin.finish = t := Host.Outcome.next.inj (e.symm.trans h)
      rfl
  · rw [step_eq_tick hp] at h
    have hne := (Transaction.of_tick h).status_ne_doneOk hp (hagree.waits_eq_false hs) hs
    exact ⟨fun ht => absurd ht hne, fun h => absurd h.1 hp⟩

/-- A pass over a stream of items returns `Ok` at its end, with the header and the items' lines in the sink. -/
theorem pass_over_items {items : List Item} (hp : s.phase = .pHdr) (hpc : s.pc = 0) (hok : ∀ x ∈ items, x.ok s)
    (hsrc : s.src = some (Memory.ofBytes (items.flatMap Item.bytes))) :
    ∃ t : State, Host.Core.run Sys2Proof.core (items.length + 2) s = .next t ∧ t.status = .doneOk ∧
      t.result = some .ok ∧ t.pc = s.len ∧
      t.text = s.text ++ "bits 16".toList ++ [newline] ++ items.flatMap Item.text := by
  generalize hu : (s.sinkLine header).goto .pB0 = u
  have hsame : s.SamePass u := hu ▸ s.header_samePass
  have husrc := hsame.src.trans hsrc
  have hupc : u.pc = 0 := hu ▸ hpc
  obtain ⟨v, hrun, h⟩ := run_passes (hu ▸ rfl) (fun x hx => hsame.item_ok.2 (hok x hx)) husrc
    (by rw [hupc, List.drop_zero])
  have hvpc : v.pc = (items.flatMap Item.bytes).length := by rw [h.pc, hupc, Nat.zero_add]
  have hend : v.stream.read v.pc = none := by
    rw [State.read_stream_of_src (h.pass.src.trans husrc), hvpc, List.getElem?_eq_none le_rfl]
  refine ⟨v.begin.finish, ?_, rfl, rfl, ?_, ?_⟩
  · rw [run_succ (hu ▸ step_header hp), run_add hrun]
    exact run_succ (step_exhausted h.phase hend) 0
  · rw [State.len_of_src hsrc, ← hvpc]; rfl
  · rw [State.finish_text, State.begin_text, h.text, ← hu, State.header_text]

/-- A pass that has returned `Ok` was over a stream of items, with the header and the items' lines in the sink. -/
theorem items_of_pass_ok {bytes : List Byte} {n : Nat} (hp : s.phase = .pHdr) (hpc : s.pc = 0) (hs : s.status = .run)
    (hreq : s.request = none) (hsrc : s.src = some (Memory.ofBytes bytes))
    (hrun : Host.Core.run Sys2Proof.core n s = .next t) (ht : t.status = .doneOk) :
    t.pc = s.len ∧ ∃ items : List Item, (∀ x ∈ items, x.ok s) ∧ items.flatMap Item.bytes = bytes ∧
      t.text = s.text ++ "bits 16".toList ++ [newline] ++ items.flatMap Item.text := by
  cases n with
  | zero =>
    obtain rfl : s = t := Host.Outcome.next.inj hrun
    rw [hs] at ht; cases ht
  | succ n =>
    rw [run_succ (step_header hp)] at hrun
    obtain ⟨items, v, hok, hb, h, rfl⟩ :=
      items_of_run_ok (s := (s.sinkLine header).goto .pB0) rfl hs hreq hsrc hrun ht
    have hbytes : items.flatMap Item.bytes = bytes := by
      rw [← hb, State.goto_pc, State.sinkLine_pc, hpc, List.drop_zero]
    refine ⟨?_, items, fun x hx => s.header_samePass.item_ok.1 (hok x hx), hbytes, ?_⟩
    · calc v.pc = s.pc + (items.flatMap Item.bytes).length := h.pc
        _ = s.len := by rw [hpc, Nat.zero_add, hbytes, State.len_of_src hsrc]
    · rw [State.finish_text, State.begin_text, h.text, State.header_text]

/-- Settles O45: the header, then one step for each item forward and, by induction on the run, backward, then the end of
the stream. -/
theorem successfulPassWritesOneLinePerInstruction : Obligations.SuccessfulPassWritesOneLinePerInstruction :=
  ⟨fun _ _ => step_ok_iff_at_end, fun _ _ => pass_over_items, fun _ _ _ _ => items_of_pass_ok⟩

end Sys2Proof.Machine
end

section
/-! Class `RM_REG` row by row: the line a decoded row writes and the errors it ends in (spec/42_mov_regmem_reg.md
R181 to R187, R189). -/

namespace Sys2Proof.Machine

variable {s : State} {i : Instr}

/-! ### Text -/

theorem rmRegLine_eq_moveText (d w : Bit) (mod : Mode2) (reg rm : Sel3) (v : Word) :
    rmRegLine d w mod reg rm v = moveText d (regName w reg) (rmText w mod rm v) :=
  movLine_ordered d _ _

theorem rmRegLine_displacement (d w : Bit) {mod : Mode2} (reg rm : Sel3) (v : Word) (hmod : mod = 1#2 ∨ mod = 2#2) :
    rmRegLine d w mod reg rm v = moveText d (regName w reg) (memoryText (fragment rm) v.toNat) := by
  rw [rmRegLine_eq_moveText, rmText_displacement w rm v hmod]

/-- The other direction with the operands exchanged is the same line (R181). -/
theorem moveText_not (d : Bit) (r m : Text) : moveText (!d) m r = moveText d r m := by
  cases d <;> rfl

theorem memoryText_zero (f : Text) : memoryText f 0 = "[".toList ++ f ++ "]".toList := if_pos rfl

theorem memoryText_of_ne_zero (f : Text) {n : Nat} (hn : n ≠ 0) :
    memoryText f n = "[".toList ++ f ++ " + ".toList ++ dec n ++ "]".toList := if_neg hn

/-- Settles O10: each line is a case of the mode, and a memory operand omits exactly the displacement 0. -/
theorem rmTextRendersTheOperand : Obligations.RmTextRendersTheOperand := by
  intro w mod rm disp
  refine ⟨?_, ?_, ?_, ?_, ?_⟩
  · rintro rfl
    exact rmText_register w rm disp
  · rintro rfl rfl
    exact rmText_direct w disp
  · rintro rfl hrm
    rw [rmText_m0 w disp hrm, memoryText_zero]
  · rintro hmod rfl
    rw [rmText_displacement w rm _ hmod]
    exact memoryText_zero _
  · intro hmod hdisp
    have hne : disp.toNat ≠ 0 := fun h => hdisp (BitVec.eq_of_toNat_eq h)
    rw [rmText_displacement w rm disp hmod, memoryText_of_ne_zero _ hne]

/-! ### What a row of the class does -/

theorem Memory.holds_of_memRead {m : Memory} {a n : Nat} {v : Word} (h : m.memRead a n = some v) : m.Holds a n v := by
  match n with
  | 1 =>
    obtain ⟨b, hb, rfl⟩ := Option.map_eq_some_iff.1 h
    exact Memory.holds_one hb
  | 2 =>
    cases hlo : m.read a with
    | none => simp [Memory.memRead, hlo] at h
    | some lo =>
      cases hhi : m.read (a + 1) with
      | none => simp [Memory.memRead, hlo, hhi] at h
      | some hi =>
        obtain rfl : assemble lo hi = v := by simpa [Memory.memRead, hlo, hhi] using h
        exact Memory.holds_two hlo hhi

theorem State.accepts_of_full (hfull : s.modPolicy = .full) (hi : i.isDirect = false) : s.accepts i :=
  ⟨fun _ => hfull, fun h => absurd (hi.symm.trans h) Bool.false_ne_true⟩

/-- A row with no immediate whose displacement is there is decoded. -/
theorem exec_decodes_of_holds {v : Word} {n : Nat} {line : Text} (hi : i.wellFormed = true) (ha : s.accepts i)
    (himm : i.immBytes = 0) (hv : s.stream.Holds (s.pc + (encode i).length) i.dispBytes v) (hn : i.length = n)
    (hline : wholeLine i ⟨v, 0#16⟩ = line) : ∃ t, exec i s = .next t ∧ s.Decodes t n line := by
  obtain ⟨hfit, hw⟩ := hv
  have hfits : (⟨v, 0#16⟩ : Operands).fit i = true := Bool.and_eq_true_iff.2 ⟨hfit, by rw [himm]; rfl⟩
  obtain ⟨t, e, h, _⟩ := exec_decodes hi ha hfits (by simpa [himm, littleEndian] using hw)
  exact ⟨t, e, hn ▸ hline ▸ h⟩

/-- `REG_ONLY` rejects a row with a memory operand once `b1` is read, whatever follows (R189). -/
theorem exec_malformed (hi : i.wellFormed = true) (hm : i.isRmRegMemory = true) (hp : s.modPolicy = .regOnly) :
    ∃ t, exec i s = .next t ∧ s.Raises t .malformedSecondByte (encode i).length := by
  obtain ⟨t, e, ho⟩ := exec_outcome hi s
  have hrej : ¬ s.modPolicy = .full := by simp [hp]
  cases ho with
  | malformed _ _ ht => exact ⟨t, e, by simp [ht, State.Raises]⟩
  | direct hacc _ _ _ => exact absurd (hacc hm) hrej
  | exhausted hacc _ _ _ _ _ _ _ _ => exact absurd (hacc.1 hm) hrej
  | decoded hacc _ _ _ _ => exact absurd (hacc.1 hm) hrej

/-- The stream ends behind a leading byte of the class (R232). -/
theorem step_cut_after_rmRegLead {d w : Bit} (hp : s.phase = .pB0) (hw : s.stream.window s.pc 2 = [rmRegLead d w]) :
    ∃ t, step s = .next t ∧ s.Raises t .endOfInputMidInstruction 1 := by
  obtain ⟨hread, hend⟩ := Memory.window_cons.1 hw
  refine ⟨_, step_truncated hp hread (by simp [hasSecondByte]) (Memory.window_eq_nil.1 hend), ?_⟩
  simp [State.Raises]

/-- Two instructions that are decoded to one line leave the same text. -/
theorem text_eq_of_decodes {j : Instr} {n k : Nat} {line : Text} (hi : ∃ t, exec i s = .next t ∧ s.Decodes t n line)
    (hj : ∃ u, exec j s = .next u ∧ s.Decodes u k line) :
    ∃ t u, exec i s = .next t ∧ exec j s = .next u ∧ t.text = u.text := by
  obtain ⟨t, ei, _, _, htext, _⟩ := hi
  obtain ⟨u, ej, _, _, hutext, _⟩ := hj
  exact ⟨t, u, ei, ej, htext.trans hutext.symm⟩

/-! ### The rows -/

section Rows
variable (d w : Bit) (reg rm : Sel3)

theorem movRmRegRr_decodes (s : State) : ∃ t, exec (.movRmRegRr d w reg rm) s = .next t ∧
    s.Decodes t 2 (moveText d (regName w reg) (regName w rm)) :=
  exec_decodes_of_holds rfl ⟨nofun, nofun⟩ rfl (Memory.holds_zero _ _) rfl (rmRegLine_eq_moveText d w 3#2 reg rm 0#16)

variable {d w reg rm} {v : Word}

theorem movRmRegM0_decodes (hfull : s.modPolicy = .full) (hrm : rm ≠ Sel3.direct) :
    ∃ t, exec (.movRmRegM0 d w reg rm) s = .next t ∧
      s.Decodes t 2 (moveText d (regName w reg) (memoryText (fragment rm) 0)) := by
  refine exec_decodes_of_holds (by simpa [Instr.wellFormed] using hrm) (State.accepts_of_full hfull rfl) rfl
    (Memory.holds_zero _ _) rfl ?_
  rw [← rmText_m0 w 0#16 hrm]
  exact rmRegLine_eq_moveText d w 0#2 reg rm 0#16

theorem movRmRegM8_decodes (hfull : s.modPolicy = .full) (hv : s.stream.Holds (s.pc + 2) 1 v) :
    ∃ t, exec (.movRmRegM8 d w reg rm) s = .next t ∧
      s.Decodes t 3 (moveText d (regName w reg) (memoryText (fragment rm) v.toNat)) :=
  exec_decodes_of_holds rfl (State.accepts_of_full hfull rfl) rfl hv rfl
    (rmRegLine_displacement d w reg rm v (.inl rfl))

theorem movRmRegM16_decodes (hfull : s.modPolicy = .full) (hv : s.stream.Holds (s.pc + 2) 2 v) :
    ∃ t, exec (.movRmRegM16 d w reg rm) s = .next t ∧
      s.Decodes t 4 (moveText d (regName w reg) (memoryText (fragment rm) v.toNat)) :=
  exec_decodes_of_holds rfl (State.accepts_of_full hfull rfl) rfl hv rfl
    (rmRegLine_displacement d w reg rm v (.inr rfl))

end Rows

/-- Settles O11: the row needs no byte behind `b1`, and exchanging the operands makes up for the inverted bit. -/
theorem rmRegRegisterDirect : Obligations.RmRegRegisterDirect := by
  intro d w reg rm s
  have hdec := movRmRegRr_decodes d w reg rm s
  have hswap := movRmRegRr_decodes (!d) w rm reg s
  rw [moveText_not] at hswap
  exact ⟨decode_encode_append (i := .movRmRegRr d w reg rm) rfl, hdec, step_cut_after_rmRegLead,
    text_eq_of_decodes hdec hswap⟩

/-- Settles O12: the row's line is that of displacement 0, which the displacement rows write for a field of zeros. -/
theorem rmRegMemoryNoDisplacement : Obligations.RmRegMemoryNoDisplacement := by
  intro d w reg rm s hrm
  have hwf : (Instr.movRmRegM0 d w reg rm).wellFormed = true := by simpa [Instr.wellFormed] using hrm
  refine ⟨decode_encode_append hwf, fun hfull => movRmRegM0_decodes hfull hrm, exec_malformed hwf rfl,
    step_cut_after_rmRegLead, fun hfull hread => ?_, fun hfull hread => ?_⟩
  · exact text_eq_of_decodes (movRmRegM0_decodes hfull hrm)
      (movRmRegM8_decodes hfull (Memory.holds_of_memRead hread))
  · exact text_eq_of_decodes (movRmRegM0_decodes hfull hrm)
      (movRmRegM16_decodes hfull (Memory.holds_of_memRead hread))

/-- Settles O14: by whether a byte stands behind `b1`; under `REG_ONLY` it is not looked at. -/
theorem rmRegMemoryDisplacement8 : Obligations.RmRegMemoryDisplacement8 := by
  intro d w reg rm s
  refine ⟨decode_encode_append (i := .movRmRegM8 d w reg rm) rfl, fun b hfull hread => ?_, fun hfull hend => ?_,
    exec_malformed rfl rfl, step_cut_after_rmRegLead⟩
  · rw [← Byte.toNat_word b]
    exact movRmRegM8_decodes hfull (Memory.holds_one hread)
  · exact exec_truncated (n := 0) rfl (State.accepts_of_full hfull rfl)
      (congrArg List.length (Memory.window_eq_nil.2 hend)) Nat.one_pos

/-- Settles O15: by how many of the two displacement bytes stand behind `b1`. -/
theorem rmRegMemoryDisplacement16 : Obligations.RmRegMemoryDisplacement16 := by
  intro d w reg rm s
  refine ⟨decode_encode_append (i := .movRmRegM16 d w reg rm) rfl, fun lo hi hfull hw => ?_, fun n hn hfull hw => ?_,
    exec_malformed rfl rfl, step_cut_after_rmRegLead⟩
  · rw [← assemble_toNat]
    exact movRmRegM16_decodes hfull ⟨fitsBytes_two _, hw.trans (littleEndian_two lo hi).symm⟩
  · exact exec_truncated rfl (State.accepts_of_full hfull rfl) hw hn

end Sys2Proof.Machine
end

section
/-! The direction bit decides the order of the two operands and nothing else (spec/42_mov_regmem_reg.md R188): the
handler is run from two states that differ in the latches `b0` and `d`, and both runs go the same way. -/

namespace Sys2Proof.Machine

variable {s u : State}

/-! ### Reads of a displacement -/

theorem Memory.Holds.unique {m : Memory} {a n : Nat} {v v' : Word} (hn : n ≤ 2) (h : m.Holds a n v)
    (h' : m.Holds a n v') : v = v' :=
  littleEndian_injective hn h.1 h'.1 (h.2.symm.trans h'.2)

theorem Memory.Holds.not_endsAfter {m : Memory} {a n k : Nat} {v : Word} (hn : n ≤ 2) (h : m.Holds a n v) (hk : k < n) :
    ¬ m.EndsAfter a k := by
  intro hend
  have hlen := hend.length_window hk
  rw [h.2, littleEndian_length hn] at hlen
  omega

/-- Two reads of a displacement from one place in one stream go the same way, whatever is done with it. -/
theorem State.readDisp_rel {R : State → State → Prop} {f g : State → State} {n : Nat} (hn : n ≤ 2)
    (hstream : u.stream = s.stream) (hpc : u.pc = s.pc)
    (hshort : ∀ k v v', R (((s.advance k).setDisp v).raise .endOfInputMidInstruction)
      (((u.advance k).setDisp v').raise .endOfInputMidInstruction))
    (hall : ∀ v, R (f ((s.advance n).setDisp v)) (g ((u.advance n).setDisp v))) :
    R (s.readDisp n f) (u.readDisp n g) := by
  have hu := State.readDisp_cases hn g u
  rw [hstream, hpc] at hu
  rcases State.readDisp_cases hn f s with ⟨v, hv, e⟩ | ⟨k, v, hk, hend, e⟩ <;>
    rcases hu with ⟨v', hv', e'⟩ | ⟨k', v', hk', hend', e'⟩ <;> rw [e, e']
  · rw [hv.unique hn hv']
    exact hall v'
  · exact absurd hend' (hv.not_endsAfter hn hk')
  · exact absurd hend (hv'.not_endsAfter hn hk)
  · rw [← hend.length_window hk, hend'.length_window hk']
    exact hshort k' v v'

/-! ### The two outcomes -/

/-- `t` and `u` are what the two values of the direction bit make of the state `s`, where `reg` selects `regOp`. -/
def State.DirectionOnly (s : State) (regOp : Text) (t u : State) : Prop :=
  t.pc = u.pc ∧ t.phase = u.phase ∧
    (t.phase = .pB0 → u = { t with b0 := u.b0, d := u.d, sink := u.sink, records := u.records } ∧ ∃ m : Text,
      t.text = s.text ++ ("mov ".toList ++ regOp ++ ", ".toList ++ m) ++ [newline] ∧
      u.text = s.text ++ ("mov ".toList ++ m ++ ", ".toList ++ regOp) ++ [newline]) ∧
    (t.phase ≠ .pB0 → t.SameButLatches u ∧ t.result = u.result ∧ t.text = s.text ∧ u.text = s.text)

/-- Load the latches that hold the direction bit, and leave the others (R37). -/
def State.latchDirection (b : Byte) (d : Bit) (s : State) : State := { s with b0 := b, d := d }

theorem State.directionOnly_raise {x y : State} {r : Text} (k : ErrorKind) (h : x.SameButLatches y)
    (htext : x.text = s.text) : s.DirectionOnly r (x.raise k) (y.raise k) := by
  rw [State.SameButLatches] at h
  rw [← h]
  exact ⟨rfl, rfl, nofun, fun _ => ⟨rfl, rfl, htext, htext⟩⟩

theorem State.directionOnly_emit {x : State} (w : Bit) (mod : Mode2) (reg rm : Sel3) (v : Word) (b : Byte)
    (r r' : InsnRecord) (htext : x.text = s.text) :
    s.DirectionOnly (regName w reg) (x.emit (rmRegLine true w mod reg rm v) r)
      ((x.latchDirection b false).emit (rmRegLine false w mod reg rm v) r') := by
  rw [State.DirectionOnly, ← htext]
  exact ⟨rfl, rfl, fun _ => ⟨rfl, rmText w mod rm v, rfl, rfl⟩, fun h => absurd rfl h⟩

/-! ### The handler and the rows -/

/-- The handler's checks and reads look at neither of the latches `b0` and `d`. -/
theorem handleRmReg_directionOnly (w : Bit) (mod : Mode2) (reg rm : Sel3) (b : Byte) (s : State) :
    s.DirectionOnly (regName w reg) (handleRmReg true w mod reg rm s)
      (handleRmReg false w mod reg rm (s.latchDirection b false)) := by
  have hlatch : s.SameButLatches (s.latchDirection b false) := rfl
  unfold handleRmReg State.resolveRm
  rw [show (s.latchDirection b false).modPolicy = s.modPolicy from rfl,
    show (s.latchDirection b false).directPolicy = s.directPolicy from rfl]
  split
  · exact State.directionOnly_raise _ hlatch rfl
  · split
    · exact State.directionOnly_raise _ hlatch rfl
    · refine State.readDisp_rel (dispLen_le mod rm) rfl rfl (fun k v v' => ?_) fun v => ?_
      · exact State.directionOnly_raise _ rfl rfl
      · exact State.directionOnly_emit w mod reg rm v b _ _ rfl

theorem State.openInsn_eq_latchDirection {i j : Instr} {w : Bit} {b1 : Byte} (hi : encode i = [rmRegLead true w, b1])
    (hj : encode j = [rmRegLead false w, b1]) :
    s.openInsn j = (s.openInsn i).latchDirection (rmRegLead false w) false := by
  simp only [State.openInsn, hi, hj, State.takeB0_rmReg _ (classOf_rmRegLead _ w), sizeBit_rmRegLead,
    directionBit_rmRegLead]
  rfl

/-- A row of the class, whose meaning is the handler's run behind its opcode bytes (R180). -/
theorem exec_directionOnly {row : Bit → Instr} {w : Bit} {mod : Mode2} {reg rm : Sel3}
    (henc : ∀ d, encode (row d) = [rmRegLead d w, secondByte mod reg rm])
    (hexec : ∀ d, exec (row d) s = .next (handleRmReg d w mod reg rm (s.openInsn (row d)))) :
    ∃ t u, exec (row true) s = .next t ∧ exec (row false) s = .next u ∧ s.DirectionOnly (regName w reg) t u := by
  refine ⟨_, _, hexec true, hexec false, ?_⟩
  have h := handleRmReg_directionOnly w mod reg rm (rmRegLead false w) (s.openInsn (row true))
  rwa [← State.openInsn_eq_latchDirection (henc true) (henc false), State.DirectionOnly, State.openInsn_text] at h

/-- Settles O16: every row is the handler's run from states that differ in the latches `b0` and `d`. -/
theorem directionBitOrdersTheOperands : Obligations.DirectionBitOrdersTheOperands := by
  intro w reg rm row s hrow
  obtain ⟨mod, m, henc, hexec⟩ : ∃ (mod : Mode2) (m : Sel3),
      (∀ d, encode (row d) = [rmRegLead d w, secondByte mod reg m]) ∧
        ∀ d, exec (row d) s = .next (handleRmReg d w mod reg m (s.openInsn (row d))) := by
    rcases hrow with rfl | rfl | rfl | rfl | rfl
    · exact ⟨3#2, rm, fun _ => rfl, fun _ => rfl⟩
    · exact ⟨0#2, Sel3.direct, fun _ => rfl, fun _ => rfl⟩
    · exact ⟨0#2, rm, fun _ => rfl, fun _ => rfl⟩
    · exact ⟨1#2, rm, fun _ => rfl, fun _ => rfl⟩
    · exact ⟨2#2, rm, fun _ => rfl, fun _ => rfl⟩
  exact exec_directionOnly henc hexec

end Sys2Proof.Machine
end

section
/-! Class `IMM_REG` row by row: the line a decoded row writes and the cut behind its leading byte
(spec/43_mov_imm_reg.md R201, R202). -/

namespace Sys2Proof.Machine

variable {s : State} {i : Instr}

/-- A row with no displacement whose immediate is there is decoded. -/
theorem exec_decodes_of_holds_imm {v : Word} {n : Nat} {line : Text} (hi : i.wellFormed = true) (ha : s.accepts i)
    (hdisp : i.dispBytes = 0) (hv : s.stream.Holds (s.pc + (encode i).length) i.immBytes v) (hn : i.length = n)
    (hline : wholeLine i ⟨0#16, v⟩ = line) : ∃ t, exec i s = .next t ∧ s.Decodes t n line := by
  obtain ⟨hfit, hw⟩ := hv
  have hfits : (⟨0#16, v⟩ : Operands).fit i = true := Bool.and_eq_true_iff.2 ⟨by rw [hdisp]; rfl, hfit⟩
  obtain ⟨t, e, h, _⟩ := exec_decodes hi ha hfits (by simpa [hdisp, littleEndian] using hw)
  exact ⟨t, e, hn ▸ hline ▸ h⟩

/-- Settles O17: by whether a byte stands behind `b0`. -/
theorem immediateToByteRegister : Obligations.ImmediateToByteRegister := by
  intro reg s
  refine ⟨decode_encode_append (i := .movRegImmB reg) rfl, fun b hread => ?_, fun hend => ?_⟩
  · rw [← Byte.toNat_word b]
    exact exec_decodes_of_holds_imm rfl ⟨nofun, nofun⟩ rfl (Memory.holds_one hread) rfl rfl
  · exact exec_truncated (n := 0) rfl ⟨nofun, nofun⟩ (congrArg List.length (Memory.window_eq_nil.2 hend)) Nat.one_pos

/-- Settles O18: by how many of the two immediate bytes stand behind `b0`. -/
theorem immediateToWordRegister : Obligations.ImmediateToWordRegister := by
  intro reg s
  refine ⟨decode_encode_append (i := .movRegImmW reg) rfl, fun lo hi hw => ?_, fun n hn hw => ?_⟩
  · rw [← assemble_toNat]
    exact exec_decodes_of_holds_imm rfl ⟨nofun, nofun⟩ rfl
      ⟨fitsBytes_two _, hw.trans (littleEndian_two lo hi).symm⟩ rfl rfl
  · exact exec_truncated rfl ⟨nofun, nofun⟩ hw hn

end Sys2Proof.Machine
end

section
/-! The end of the stream at an instruction boundary is no error (spec/60_exceptions.md R231): no step that ends a pass
in an error records the kind `EndOfInputAtBoundary`. -/

namespace Sys2Proof.Machine

variable {s t : State}

/-- A pass that is over with an error was not ended by the kind `EndOfInputAtBoundary`. -/
def State.NoBoundaryError (t : State) : Prop :=
  t.phase = .pErr → ∀ n, t.result ≠ some (.err .endOfInputAtBoundary n)

theorem State.NoBoundaryError.of_phase_ne (h : t.phase ≠ .pErr) : t.NoBoundaryError := fun hp => absurd hp h

theorem State.raise_noBoundaryError {k : ErrorKind} (hk : k ≠ .endOfInputAtBoundary) (s : State) :
    (s.raise k).NoBoundaryError :=
  fun _ _ h => hk (PassResult.err.inj (Option.some.inj h)).1

theorem State.emit_noBoundaryError (l : Text) (r : InsnRecord) (s : State) : (s.emit l r).NoBoundaryError :=
  .of_phase_ne nofun

/-- A read within an instruction that finds no byte raises `EndOfInputMidInstruction` (R11, R232). -/
theorem State.need_noBoundaryError {f : Byte → State → State} (hf : ∀ b u, (f b u).NoBoundaryError) (s : State) :
    (s.need f).NoBoundaryError := by
  cases hread : s.stream.read s.pc with
  | none =>
    rw [State.need_none hread]
    exact State.raise_noBoundaryError (by decide) _
  | some b =>
    rw [State.need_some hread]
    exact hf b _

theorem State.unrecognised_noBoundaryError (b : Byte) (s : State) : (s.unrecognised b).NoBoundaryError := by
  unfold State.unrecognised
  split
  · exact .of_phase_ne nofun
  · exact State.raise_noBoundaryError (by decide) _

theorem State.afterDisp_noBoundaryError (s : State) : s.afterDisp.NoBoundaryError := by
  refine .of_phase_ne ?_
  rw [State.afterDisp, State.goto_phase]
  cases s.cls <;> decide

/-! ### One transaction -/

theorem tickB1_noBoundaryError (b : Byte) (s : State) : (tickB1 b s).NoBoundaryError := by
  simp only [tickB1]
  split
  · exact State.raise_noBoundaryError (by decide) _
  · split
    · exact State.raise_noBoundaryError (by decide) _
    · split
      · exact State.afterDisp_noBoundaryError _
      · exact .of_phase_ne nofun

theorem tickDlo_noBoundaryError (b : Byte) (s : State) : (tickDlo b s).NoBoundaryError := by
  simp only [tickDlo]
  split
  · exact State.afterDisp_noBoundaryError _
  · exact .of_phase_ne nofun

theorem tickIlo_noBoundaryError (b : Byte) (s : State) : (tickIlo b s).NoBoundaryError := by
  refine .of_phase_ne ?_
  rw [tickIlo, State.goto_phase]
  cases s.w <;> decide

theorem tickEmit_noBoundaryError (h : tickEmit s = .next t) : t.NoBoundaryError := by
  unfold tickEmit at h
  cases hc : s.cls with
  | unrec => simp [hc] at h
  | rmReg | immReg | immRm =>
    simp only [hc, Host.Outcome.next.injEq] at h
    exact h ▸ State.emit_noBoundaryError _ _ s

/-- A reading phase other than `P_B0`. -/
theorem State.needTick_noBoundaryError {f : Byte → State → State} (hf : ∀ b u, (f b u).NoBoundaryError)
    (h : s.needTick f = .next t) : t.NoBoundaryError :=
  Host.Outcome.next.inj h ▸ State.need_noBoundaryError hf s

theorem tick_waits_noBoundaryError (hs : s.waits = true) (hp : s.phase ≠ .pErr) (h : tick s = .next t) :
    t.NoBoundaryError := by
  cases Transaction.of_waits hs h with
  | idle _ _ _ ht => exact .of_phase_ne (ht ▸ hp)
  | started _ _ _ _ ht => exact .of_phase_ne (by simp [ht])
  | wrote hs' _ _ => simp [hs] at hs'
  | finished hs' _ _ => simp [State.waits, hs'] at hs
  | exhausted hs' _ _ | consumed hs' _ _ _ => simp [State.not_reads_of_waits hs] at hs'

theorem tick_noBoundaryError (hb0 : s.phase ≠ .pB0) (herr : s.phase ≠ .pErr) (h : tick s = .next t) :
    t.NoBoundaryError := by
  cases hp : s.phase with
  | pB0 => exact absurd hp hb0
  | pIdle | pOk | pErr => exact tick_waits_noBoundaryError (by simp [State.waits, hp]) herr h
  | pHdr =>
    simp only [tick, hp, Host.Outcome.next.injEq] at h
    exact .of_phase_ne (by simp [← h])
  | pB1 =>
    simp only [tick, hp] at h
    exact State.needTick_noBoundaryError tickB1_noBoundaryError (next_of_guard h)
  | pDlo =>
    simp only [tick, hp] at h
    exact State.needTick_noBoundaryError tickDlo_noBoundaryError (next_of_guard h)
  | pDhi =>
    simp only [tick, hp] at h
    exact State.needTick_noBoundaryError (fun _ _ => State.afterDisp_noBoundaryError _) (next_of_guard h)
  | pIlo =>
    simp only [tick, hp] at h
    exact State.needTick_noBoundaryError tickIlo_noBoundaryError h
  | pIhi =>
    simp only [tick, hp] at h
    exact State.needTick_noBoundaryError (f := tickIhi) (fun _ _ => .of_phase_ne nofun) h
  | pEmit =>
    simp only [tick, hp] at h
    exact tickEmit_noBoundaryError h

/-! ### One iteration -/

theorem RowOutcome.noBoundaryError {i : Instr} (h : RowOutcome i s t) : t.NoBoundaryError := by
  cases h with
  | malformed _ _ ht | direct _ _ _ ht | exhausted _ _ _ _ _ _ _ _ ht =>
    exact ht ▸ State.raise_noBoundaryError (by decide) _
  | decoded _ _ _ _ ht => exact ht ▸ State.emit_noBoundaryError _ _ _

theorem iteration_noBoundaryError (hp : s.phase = .pB0) : ∃ t, step s = .next t ∧ t.NoBoundaryError := by
  rcases step_cases hp with ⟨_, e⟩ | ⟨b, _, _, e⟩ | ⟨b, _, _, _, e⟩ | ⟨i, hi, _, e⟩
  · exact ⟨_, e, .of_phase_ne nofun⟩
  · exact ⟨_, e, State.unrecognised_noBoundaryError b _⟩
  · exact ⟨_, e, State.raise_noBoundaryError (by decide) _⟩
  · obtain ⟨t, e', ho⟩ := exec_outcome hi s
    exact ⟨t, e.trans e', ho.noBoundaryError⟩

theorem step_noBoundaryError (herr : s.phase ≠ .pErr) (h : step s = .next t) : t.NoBoundaryError := by
  by_cases hp : s.phase = .pB0
  · obtain ⟨u, e, hu⟩ := iteration_noBoundaryError hp
    exact Host.Outcome.next.inj (e.symm.trans h) ▸ hu
  · exact tick_noBoundaryError hp herr (step_eq_tick hp ▸ h)

/-- Settles O34: at a boundary with no byte left the step finishes the pass; and whatever a step raises, it is another
kind. -/
theorem endAtABoundaryIsNormalTermination : Obligations.EndAtABoundaryIsNormalTermination :=
  ⟨fun s hp hend => ⟨s.begin.finish, step_exhausted hp hend, rfl, rfl, rfl, rfl, rfl, rfl, rfl, rfl⟩,
    fun _ _ herr h => step_noBoundaryError herr h⟩

end Sys2Proof.Machine
end

section
/-! A stream that ends inside an instruction (spec/60_exceptions.md R232): by whether the cut lies before the first
opcode byte, between the opcode bytes or behind them. -/

namespace Sys2Proof.Machine

variable {s : State} {i : Instr} {k : Nat}

/-- A row has one opcode byte, or two of which the first tells so. -/
theorem encode_cases (i : Instr) :
    (∃ b0, encode i = [b0]) ∨ ∃ b0 b1, encode i = [b0, b1] ∧ hasSecondByte (classOf b0) = true := by
  cases i with
  | movRegImmB | movRegImmW => exact .inl ⟨_, rfl⟩
  | movRmRegRr | movRmRegDirect | movRmRegM0 | movRmRegM8 | movRmRegM16 =>
    exact .inr ⟨_, _, rfl, by simp [hasSecondByte]⟩
  | movRmImmRrB | movRmImmRrW | movRmImmDirectB | movRmImmDirectW | movRmImmM0B | movRmImmM0W | movRmImmM8B
  | movRmImmM8W | movRmImmM16B | movRmImmM16W => exact .inr ⟨_, _, rfl, by simp [hasSecondByte]⟩

/-- What stands at the cursor and from there on, where the cursor is behind a prefix of the stream. -/
theorem State.window_behind {pre l : List Byte} (hsrc : s.src = some (Memory.ofBytes (pre ++ l)))
    (hpc : s.pc = pre.length) (a n : Nat) : s.stream.window (s.pc + a) n = (l.drop a).take n := by
  rw [State.window_of_src hsrc, hpc, ← List.drop_drop, List.drop_left]

/-- The stream ends between the opcode bytes. -/
theorem step_cut_in_opcode (hp : s.phase = .pB0) (hk : 1 ≤ k) (hlt : k < (encode i).length)
    (hw : s.stream.window s.pc 2 = (encode i).take k) :
    ∃ t, step s = .next t ∧ s.Raises t .endOfInputMidInstruction k := by
  rcases encode_cases i with ⟨b0, he⟩ | ⟨b0, b1, he, hb0⟩ <;> rw [he] at hlt hw
  · exact absurd hlt (Nat.not_lt.2 hk)
  · obtain rfl : k = 1 := Nat.le_antisymm (Nat.le_of_lt_succ hlt) hk
    obtain ⟨hread, hend⟩ := Memory.window_cons.1 hw
    refine ⟨_, step_truncated hp hread hb0 (Memory.window_eq_nil.1 hend), ?_⟩
    simp [State.Raises]

/-- The stream ends inside the trailing bytes, or where they would begin. -/
theorem step_cut_in_operands (hi : i.wellFormed = true) (ha : s.accepts i) (hp : s.phase = .pB0)
    (hle : (encode i).length ≤ k) (hlt : k < i.length)
    (hop : s.stream.window s.pc (encode i).length = encode i)
    (htrail : (s.stream.window (s.pc + (encode i).length) (i.dispBytes + i.immBytes)).length = k - (encode i).length) :
    ∃ t, step s = .next t ∧ s.Raises t .endOfInputMidInstruction k := by
  rw [Instr.length] at hlt
  obtain ⟨t, e, h⟩ := exec_truncated hi ha htrail (by omega)
  rw [Nat.add_sub_cancel' hle] at h
  exact ⟨t, (step_eq_exec hi hp hop).trans e, h⟩

theorem take_encodeWhole_of_le (o : Operands) (h : k ≤ (encode i).length) :
    (encodeWhole i o).take k = (encode i).take k := by
  rw [encodeWhole, List.append_assoc, List.take_append_of_le_length h]

/-- A stream that holds the first `k` bytes of an instruction, at least one and not all, and then ends. -/
theorem step_cut {pre : List Byte} {o : Operands} (hi : i.wellFormed = true) (ha : s.accepts i) (hp : s.phase = .pB0)
    (hk : 1 ≤ k) (hlt : k < i.length) (hsrc : s.src = some (Memory.ofBytes (pre ++ (encodeWhole i o).take k)))
    (hpc : s.pc = pre.length) : ∃ t, step s = .next t ∧ s.Raises t .endOfInputMidInstruction k := by
  have hwindow := State.window_behind hsrc hpc
  have hopcode := encode_length_bounds i
  by_cases hcut : k < (encode i).length
  · refine step_cut_in_opcode hp hk hcut ((hwindow 0 2).trans ?_)
    rw [List.drop_zero, List.take_take, Nat.min_eq_right (by omega), take_encodeWhole_of_le o hcut.le]
  · have hle : (encode i).length ≤ k := Nat.le_of_not_lt hcut
    refine step_cut_in_operands hi ha hp hle hlt ((hwindow 0 _).trans ?_) ?_
    · rw [List.drop_zero, List.take_take, Nat.min_eq_left hle, take_encodeWhole_of_le o le_rfl, List.take_length]
    · rw [hwindow, List.length_take, List.length_drop, List.length_take, encodeWhole_length]
      rw [Instr.length] at hlt ⊢
      omega

/-- Settles O36: a cut before the first byte is a boundary; any other lies between the opcode bytes or behind them. -/
theorem truncatedInstructionAbortsThePass : Obligations.TruncatedInstructionAbortsThePass := by
  intro i o pre k s hi ha hp hlt hsrc hpc
  by_cases hk : k = 0
  · subst hk
    have hend : s.stream.read s.pc = none := Memory.window_eq_nil.1 (State.window_behind hsrc hpc 0 1)
    exact ⟨_, step_exhausted hp hend, nofun, fun _ => ⟨rfl, rfl⟩⟩
  · obtain ⟨t, e, h⟩ := step_cut hi ha hp (Nat.one_le_iff_ne_zero.2 hk) hlt hsrc hpc
    exact ⟨t, e, fun _ => h, fun h0 => absurd h0 hk⟩

end Sys2Proof.Machine
end

section
/-! The encoding both ways (spec/30_encoding.md sections 1 to 3): the decoder reads back what the encoder wrote, drops
no bit of what it read, and takes the row that the opcode table's tests select. -/

namespace Sys2Proof.Machine

variable {b0 : Byte}

/-! ### What the decoder reads -/

/-- The bytes the decoder reads a row from are the row's opcode bytes and the rest, by the class of the first. -/
theorem encode_of_decode {bytes rest : List Byte} {i : Instr} (h : decode bytes = .insn i rest) :
    i.wellFormed = true ∧ encode i ++ rest = bytes := by
  cases bytes with
  | nil => simp [decode] at h
  | cons b0 tail =>
    cases hc : classOf b0 with
    | unrec => simp [decode, hc] at h
    | immReg =>
      simp only [decode, hc, Decoded.insn.injEq] at h
      obtain ⟨rfl, rfl⟩ := h
      exact ⟨wellFormed_immRegRow _ _, by simp [encode_immRegRow, immRegLead_of_class b0 hc]⟩
    | rmReg =>
      cases tail with
      | nil => simp [decode, hc] at h
      | cons b1 tail =>
        simp only [decode, hc, Decoded.insn.injEq] at h
        obtain ⟨rfl, rfl⟩ := h
        exact ⟨wellFormed_rmRegRow _ _ _ _ _, by simp [encode_rmRegRow, rmRegLead_of_class b0 hc, secondByte_of_fields]⟩
    | immRm =>
      cases tail with
      | nil => simp [decode, hc] at h
      | cons b1 tail =>
        simp only [decode, hc, Decoded.insn.injEq] at h
        obtain ⟨rfl, rfl⟩ := h
        exact ⟨wellFormed_immRmRow _ _ _ _, by simp [encode_immRmRow, immRmLead_of_class b0 hc, secondByte_of_fields]⟩

/-- Settles O3: by the row, each field is the one the byte was made of. -/
theorem decodeOfEncodeIsTheInstruction : Obligations.DecodeOfEncodeIsTheInstruction :=
  fun _ rest hi => decode_encode_append hi rest

/-- Settles O4: by the class of the leading byte, each opcode byte is made of its fields. -/
theorem encodeOfDecodeIsTheBytes : Obligations.EncodeOfDecodeIsTheBytes :=
  fun _ _ _ h => encode_of_decode h

/-- Settles O1: by evaluation at the 256 bytes. -/
theorem matcherMapOfLeadingBytes : Obligations.MatcherMapOfLeadingBytes := by
  unfold Obligations.MatcherMapOfLeadingBytes
  decide

/-- Settles O2: each word is the encoding of its row, with the bytes behind it. -/
theorem writtenOutWordsDecode : Obligations.WrittenOutWordsDecode :=
  ⟨decode_encode_append (i := .movRmRegRr false true 3 1) rfl [],
    decode_encode_append (i := .movRmRegDirect true true 5) rfl [0x0d#8, 0x0d#8],
    decode_encode_append (i := .movRmRegM8 true false 4 0) rfl [0x04#8],
    decode_encode_append (i := .movRegImmB 1) rfl [0x0c#8],
    decode_encode_append (i := .movRmImmM16W 0 5) rfl []⟩

/-! ### A step and what is looked at -/

/-- What a window begins with stands there, however long the window is. -/
theorem Memory.window_prefix {m : Memory} {a n : Nat} {l l' : List Byte} (h : m.window a n = l ++ l') :
    m.window a l.length = l := by
  induction l generalizing a n with
  | nil => rfl
  | cons b l ih =>
    cases n with
    | zero => simp [Memory.window] at h
    | succ n =>
      obtain ⟨hread, htail⟩ := Memory.window_cons.1 h
      exact Memory.window_cons.2 ⟨hread, ih htail⟩

/-- Settles O33: whatever window the decoder read the row from, the row's opcode bytes stand at the cursor. -/
theorem stepRunsTheDecodedInstruction : Obligations.StepRunsTheDecodedInstruction := by
  intro s n i rest hp h
  obtain ⟨hi, hbytes⟩ := encode_of_decode h
  exact ⟨hi, step_eq_exec hi hp (Memory.window_prefix hbytes.symm)⟩

/-! ### The tests of the opcode table -/

/-- A test of a 16-bit word is a test of each of its bytes. -/
theorem word_land_eq_iff (b0 b1 : Byte) (mask value : Nat) :
    (b0.toNat * 256 + b1.toNat) &&& mask = value ↔
      b0.toNat &&& (mask / 256) = value / 256 ∧ b1.toNat &&& (mask % 256) = value % 256 := by
  have hb := b1.isLt
  have hdiv : ((b0.toNat * 256 + b1.toNat) &&& mask) / 256 = b0.toNat &&& (mask / 256) := by
    rw [show 256 = 2 ^ 8 from rfl, Nat.and_div_two_pow]
    congr 1
    omega
  have hmod : ((b0.toNat * 256 + b1.toNat) &&& mask) % 256 = b1.toNat &&& (mask % 256) := by
    rw [show 256 = 2 ^ 8 from rfl, Nat.and_mod_two_pow]
    congr 1
    omega
  rw [← hdiv, ← hmod]
  omega

theorem TableRow.holds_word {mask value : Nat} (b0 b1 : Byte) :
    (TableRow.mk 16 mask value).holds b0 b1 =
      ((b0.toNat &&& (mask / 256) == value / 256) && (b1.toNat &&& (mask % 256) == value % 256)) := by
  rw [Bool.eq_iff_iff]
  simp [TableRow.holds, word_land_eq_iff]

theorem TableRow.holds_byte {mask value : Nat} (b0 b1 : Byte) :
    (TableRow.mk 8 mask value).holds b0 b1 = (b0.toNat &&& mask == value) := rfl

/-- The tests of the leading byte that the table's rows make: of class `RM_REG`, of `IMM_REG` with each `w`, and of
`IMM_RM` with each `w`. -/
theorem leadTests : ∀ b : Byte,
    (b.toNat &&& 0xfc == 0x88) = (classOf b == .rmReg) ∧
    (b.toNat &&& 0xf8 == 0xb0) = (classOf b == .immReg && !immSizeBit b) ∧
    (b.toNat &&& 0xf8 == 0xb8) = (classOf b == .immReg && immSizeBit b) ∧
    (b.toNat &&& 0xff == 0xc6) = (classOf b == .immRm && !sizeBit b) ∧
    (b.toNat &&& 0xff == 0xc7) = (classOf b == .immRm && sizeBit b) := by decide

/-- The tests of the second byte: each mode, and the special case (R95, R104). -/
theorem secondTests : ∀ b : Byte,
    (b.toNat &&& 0xc0 == 0xc0) = (modField b == 3#2) ∧ (b.toNat &&& 0xc0 == 0x80) = (modField b == 2#2) ∧
    (b.toNat &&& 0xc0 == 0x40) = (modField b == 1#2) ∧ (b.toNat &&& 0xc0 == 0) = (modField b == 0#2) ∧
    (b.toNat &&& 0xc7 == 6) = (modField b == 0#2 && lowField b == Sel3.direct) := by decide

/-- The first row whose test holds, by the class and the fields. -/
theorem findIdx_opcodeTable (b0 b1 : Byte) :
    opcodeTable.findIdx? (fun r => r.holds b0 b1) =
      match classOf b0 with
      | .rmReg => some (rmRegRow (directionBit b0) (sizeBit b0) (modField b1) (midField b1) (lowField b1)).tableIndex
      | .immReg => some (immRegRow (immSizeBit b0) (lowField b0)).tableIndex
      | .immRm => some (immRmRow (sizeBit b0) (modField b1) (midField b1) (lowField b1)).tableIndex
      | .unrec => none := by
  obtain ⟨hrmReg, himmB, himmW, hrmImmB, hrmImmW⟩ := leadTests b0
  obtain ⟨hrr, hm16, hm8, hm0, hdirect⟩ := secondTests b1
  simp only [opcodeTable, List.cons_append, List.nil_append, List.findIdx?_cons, List.findIdx?_nil,
    TableRow.holds_word, TableRow.holds_byte, Nat.reduceDiv, Nat.reduceMod, hrmReg, himmB, himmW, hrmImmB, hrmImmW,
    hrr, hm16, hm8, hm0, hdirect]
  cases hc : classOf b0 with
  | unrec => simp
  | immReg => cases hw : immSizeBit b0 <;> simp [immRegRow, Instr.tableIndex]
  | rmReg =>
    rcases Mode2.cases (modField b1) with hmod | hmod | hmod | hmod
    · by_cases hrm : lowField b1 = Sel3.direct <;> simp [hmod, hrm, rmRegRow, Instr.tableIndex]
    all_goals simp [hmod, rmRegRow, Instr.tableIndex]
  | immRm =>
    rcases Mode2.cases (modField b1) with hmod | hmod | hmod | hmod
    · by_cases hrm : lowField b1 = Sel3.direct <;> cases hw : sizeBit b0 <;>
        simp [hmod, hrm, immRmRow, Instr.tableIndex]
    all_goals cases hw : sizeBit b0 <;> simp [hmod, immRmRow, Instr.tableIndex]

/-- Settles O5: each test is a test of the class and the fields, which choose the decoder's row. -/
theorem decoderTakesTheFirstTableRow : Obligations.DecoderTakesTheFirstTableRow := by
  intro b0 b1 rest
  have h := findIdx_opcodeTable b0 b1
  cases hc : classOf b0 <;> simpa only [decode, hc] using h

end Sys2Proof.Machine
end

section
/-! Whole instructions and whole passes from an instruction boundary (spec/41_decode_pass.md R152 to R158), and the
block between two passes (spec/70_reset_and_hazards.md). -/

namespace Sys2Proof.Machine

variable {s : State}

/-! ### An instruction or a skipped byte at the cursor -/

/-- Settles O6: the bytes at the cursor are those of the instruction, so the step executes its row, and the operands are
read back from their bytes. -/
theorem wholeInstructionIsDecodedByOneStep : Obligations.WholeInstructionIsDecodedByOneStep := by
  intro i o pre post s hi hfit hacc hp hsrc hpc
  rw [List.append_assoc] at hsrc
  have hw : s.stream.window s.pc (encodeWhole i o).length = encodeWhole i o :=
    (State.window_behind hsrc hpc 0 _).trans List.take_left
  obtain ⟨hop, htrail⟩ := Memory.window_encodeWhole.1 hw
  obtain ⟨t, e, h⟩ := exec_decodes hi hacc hfit htrail
  exact ⟨t, (step_eq_exec hi hp hop).trans e, h⟩

/-- Settles O46: one step for each item, then the step that finds the stream exhausted, which presents and logs
nothing. -/
theorem successfulPassPresentsAndLogs : Obligations.SuccessfulPassPresentsAndLogs := by
  intro items pre s hp hok hpc hsrc
  obtain ⟨t, hrun, h⟩ := run_passes hp hok hsrc (by rw [hpc, List.drop_left])
  have hend : t.stream.read t.pc = none := by
    rw [State.read_stream_of_src (h.pass.src.trans hsrc), h.pc, hpc, ← List.length_append, List.getElem?_eq_none le_rfl]
  refine ⟨t.begin.finish, ?_, rfl, h.records, h.diag⟩
  rw [run_add hrun]
  exact run_succ (step_exhausted h.phase hend) 0

/-- Settles O35: by the policy. -/
theorem unrecognisedLeadingByte : Obligations.UnrecognisedLeadingByte := by
  intro s b hp hread hb
  refine ⟨fun hpol => ⟨_, step_unrecognised hp hread hb, ?_⟩, fun hpol => ⟨_, step_unrecognised hp hread hb, ?_⟩⟩
  · simp [State.unrecognised, hpol]
  · simp [State.unrecognised, hpol, State.Raises]

/-! ### Before and after a pass -/

theorem State.waits_iff : s.waits = true ↔ s.phase = .pIdle ∨ s.phase = .pOk ∨ s.phase = .pErr := by
  unfold State.waits
  cases s.phase <;> decide

theorem step_eq_tick_of_waits (h : s.waits = true) : step s = tick s :=
  step_eq_tick fun hp => by simp [State.waits, hp] at h

/-- Settles O40: the block waits. -/
theorem endedPassStaysAsItIs : Obligations.EndedPassStaysAsItIs := by
  intro s hp hreq
  have hw : s.waits = true := State.waits_iff.2 (by tauto)
  exact (step_eq_tick_of_waits hw).trans (tick_idle hw hreq)

/-- Settles O41: the block waits and takes the request, then it writes the header. -/
theorem startOfAPassWritesTheHeader : Obligations.StartOfAPassWritesTheHeader := by
  intro s r hp hreq
  have hw : s.waits = true := State.waits_iff.2 hp
  refine ⟨s.startPass r, ((s.startPass r).sinkLine header).goto .pB0,
    (step_eq_tick_of_waits hw).trans (tick_started hw hreq), rfl, rfl, step_header rfl, rfl, rfl, rfl, ?_, ?_, ?_⟩
  · exact Memory.len_ofBytes r.stream
  · exact Memory.wf_ofBytes r.stream
  · exact ⟨rfl, rfl, rfl, rfl, rfl, rfl, rfl, rfl, rfl⟩

/-- Settles O43: by evaluation. -/
theorem resetLeavesTheBlockIdle : Obligations.ResetLeavesTheBlockIdle :=
  ⟨rfl, rfl, rfl, rfl, rfl, rfl, rfl, rfl, rfl, rfl⟩

/-- Settles O48: no stream is attached, so every clause holds of the reset values. -/
theorem invariantHoldsAtReset : Obligations.InvariantHoldsAtReset :=
  ⟨rfl, le_rfl, .inl rfl, ⟨rfl, rfl⟩, trivial⟩

/-! ### Tables and what text and record determine -/

/-- Settles O9: by evaluation at the eight selectors. -/
theorem operandTableEntries : Obligations.OperandTableEntries :=
  ⟨rfl, rfl, rfl, by decide⟩

/-- Refutes O59: the middle field of class `IMM_RM` is not in the line, so `c6 c0` and `c6 c8` with the immediate 0 both
give `mov al, 0`. -/
theorem not_lineDeterminesTheInstruction : ¬ Obligations.LineDeterminesTheInstruction := by
  intro h
  have heq := h (.movRmImmRrB 0 0) (.movRmImmRrB 1 0) ⟨0, 0⟩ ⟨0, 0⟩ rfl rfl rfl rfl rfl
  exact absurd heq.1 (by decide)

/-- The row a record was made of, with the middle field of class `IMM_RM` 0: the decoder's choice by the fields. -/
def InsnRecord.row (r : InsnRecord) : Instr :=
  match r.cls with
  | .rmReg => rmRegRow (r.d.getD false) r.w (r.mod.getD 0) (r.reg.getD 0) (r.rm.getD 0)
  | .immReg | .unrec => immRegRow r.w (r.reg.getD 0)
  | .immRm => immRmRow r.w (r.mod.getD 0) 0 (r.rm.getD 0)

/-- The operands a record was made of. -/
def InsnRecord.operands (r : InsnRecord) : Operands := ⟨r.disp.getD 0, r.imm.getD 0⟩

theorem rmRegRow_m0 (d w : Bit) (reg : Sel3) {rm : Sel3} (h : rm ≠ Sel3.direct) :
    rmRegRow d w 0#2 reg rm = .movRmRegM0 d w reg rm := by
  simp [rmRegRow, h]

theorem immRmRow_m0 (w : Bit) (x : Sel3) {rm : Sel3} (h : rm ≠ Sel3.direct) :
    immRmRow w 0#2 x rm = if w then .movRmImmM0W x rm else .movRmImmM0B x rm := by
  simp [immRmRow, h]

theorem row_wholeRecord {i : Instr} (hi : i.wellFormed = true) (o : Operands) :
    (wholeRecord i o).row = i.clearMiddle := by
  cases i with
  | movRmRegM0 d w reg rm => exact rmRegRow_m0 d w reg (rm := rm) (by simpa [Instr.wellFormed] using hi)
  | movRmImmM0B x rm => exact immRmRow_m0 false 0 (rm := rm) (by simpa [Instr.wellFormed] using hi)
  | movRmImmM0W x rm => exact immRmRow_m0 true 0 (rm := rm) (by simpa [Instr.wellFormed] using hi)
  | _ => rfl

theorem fitsBytes_zero {v : Word} (h : fitsBytes 0 v = true) : v = 0#16 := by
  simp only [fitsBytes, decide_eq_true_eq] at h
  exact BitVec.eq_of_toNat_eq (by rw [BitVec.toNat_ofNat]; omega)

/-- A component the record has not is of an operand the row has no byte for, which is 0. -/
theorem operands_wholeRecord {i : Instr} {o : Operands} (hfit : o.fit i = true) : (wholeRecord i o).operands = o := by
  obtain ⟨hdisp, himm⟩ := Bool.and_eq_true_iff.1 hfit
  cases i with
  | movRmRegRr | movRmRegDirect | movRmRegM0 | movRmRegM8 | movRmRegM16 =>
    have h0 := fitsBytes_zero himm
    cases o; simp_all [wholeRecord, rmRegRecord, InsnRecord.operands]
  | movRegImmB | movRegImmW =>
    have h0 := fitsBytes_zero hdisp
    cases o; simp_all [wholeRecord, immRegRecord, InsnRecord.operands]
  | _ => rfl

theorem cls_clearMiddle (i : Instr) : i.clearMiddle.cls = i.cls := by cases i <;> rfl
theorem tableIndex_clearMiddle (i : Instr) : i.clearMiddle.tableIndex = i.tableIndex := by cases i <;> rfl

/-- Settles O60: the row but for the middle field, and the operands, are read back from the record. -/
theorem recordDeterminesTheInstruction : Obligations.RecordDeterminesTheInstruction := by
  intro i j o p hi hj ho hp h
  have hrow : i.clearMiddle = j.clearMiddle := by rw [← row_wholeRecord hi o, h, row_wholeRecord hj p]
  have hcls : i.cls = j.cls := by rw [← cls_clearMiddle i, hrow, cls_clearMiddle]
  refine ⟨hcls, ?_, ?_, hrow, fun hne => ?_⟩
  · rw [← tableIndex_clearMiddle i, hrow, tableIndex_clearMiddle j]
  · rw [← operands_wholeRecord ho, h, operands_wholeRecord hp]
  · rw [← Instr.clearMiddle_of_cls hne, hrow, Instr.clearMiddle_of_cls (hcls ▸ hne)]

end Sys2Proof.Machine
end

section
/-! The direct address of class `RM_REG` (spec/42_mov_regmem_reg.md R183) and class `IMM_RM` row by row: the line a
decoded row writes, and its error (spec/44_mov_imm_regmem.md R211 to R220). -/

namespace Sys2Proof.Machine

variable {s : State} {i : Instr}

/-! ### What a row does -/

/-- `FAIL` rejects the special case once `b1` is read, whatever follows (R104, R183). -/
theorem exec_direct_fails (hi : i.wellFormed = true) (hmode : i.isRmRegMemory = true → s.modPolicy = .full)
    (hd : i.isDirect = true) (hp : s.directPolicy = .fail) :
    ∃ t, exec i s = .next t ∧ s.Raises t .directAddressUnimplemented (encode i).length := by
  obtain ⟨t, e, ho⟩ := exec_outcome hi s
  have hrej : ¬ s.directPolicy = .direct16 := by simp [hp]
  cases ho with
  | malformed hm hreg _ => exact absurd (hmode hm) (by simp [hreg])
  | direct _ _ _ ht => exact ⟨t, e, by simp [ht, State.Raises]⟩
  | exhausted hacc _ _ _ _ _ _ _ _ => exact absurd (hacc.2 hd) hrej
  | decoded hacc _ _ _ _ => exact absurd (hacc.2 hd) hrej

theorem Memory.holds_byte {m : Memory} {a : Nat} {b : Byte} (h : m.window a 1 = [b]) : m.Holds a 1 (b.setWidth 16) :=
  ⟨fitsBytes_one b, h.trans (littleEndian_one b).symm⟩

theorem Memory.holds_word {m : Memory} {a : Nat} {lo hi : Byte} (h : m.window a 2 = [lo, hi]) :
    m.Holds a 2 (assemble lo hi) :=
  ⟨fitsBytes_two _, h.trans (littleEndian_two lo hi).symm⟩

/-- A row whose displacement is there and whose immediate stands behind it is decoded. -/
theorem exec_decodes_of_operands {v v' : Word} {n : Nat} {line : Text} (hi : i.wellFormed = true) (ha : s.accepts i)
    (hv : s.stream.Holds (s.pc + (encode i).length) i.dispBytes v)
    (hv' : s.stream.Holds (s.pc + (encode i).length + i.dispBytes) i.immBytes v') (hn : i.length = n)
    (hline : wholeLine i ⟨v, v'⟩ = line) : ∃ t, exec i s = .next t ∧ s.Decodes t n line := by
  have hfits : (⟨v, v'⟩ : Operands).fit i = true := Bool.and_eq_true_iff.2 ⟨hv.1, hv'.1⟩
  obtain ⟨t, e, h, _⟩ := exec_decodes hi ha hfits (Memory.holds_append i.dispBytes_le hv hv')
  exact ⟨t, e, hn ▸ hline ▸ h⟩

/-! ### Text -/

theorem immRmLine_eq_immText (w : Bit) (mod : Mode2) (rm : Sel3) (v v' : Word) :
    immRmLine w mod rm v v' = immText (rmText w mod rm v) v'.toNat := rfl

theorem immRmLine_displacement (w : Bit) {mod : Mode2} (rm : Sel3) (v v' : Word) (hmod : mod = 1#2 ∨ mod = 2#2) :
    immRmLine w mod rm v v' = immText (memoryText (fragment rm) v.toNat) v'.toNat := by
  rw [immRmLine_eq_immText, rmText_displacement w rm v hmod]

theorem immRmLine_m0 (w : Bit) {rm : Sel3} (v v' : Word) (hrm : rm ≠ Sel3.direct) :
    immRmLine w 0#2 rm v v' = immText (memoryText (fragment rm) 0) v'.toNat := by
  rw [immRmLine_eq_immText, rmText_m0 w v hrm]

/-! ### The rows -/

/-- Settles O13: by the policies, and under `FULL` and `DIRECT16` by how many of the address bytes stand behind `b1`. -/
theorem rmRegDirectAddress : Obligations.RmRegDirectAddress := by
  intro d w reg s
  refine ⟨decode_encode_append (i := .movRmRegDirect d w reg) rfl, fun a hfull h16 hread => ?_, fun hfull hfail => ?_,
    exec_malformed rfl rfl, fun n hn hfull h16 hw => ?_⟩
  · exact exec_decodes_of_holds rfl ⟨fun _ => hfull, fun _ => h16⟩ rfl (Memory.holds_of_memRead hread) rfl
      (rmRegLine_eq_moveText d w 0#2 reg Sel3.direct a)
  · exact exec_direct_fails rfl (fun _ => hfull) rfl hfail
  · exact exec_truncated rfl ⟨fun _ => hfull, fun _ => h16⟩ hw hn

/-- Settles O19: the immediate is the only operand behind `b1`. -/
theorem immediateThroughRmToRegister : Obligations.ImmediateThroughRmToRegister := by
  intro x rm s
  refine ⟨decode_encode_append (i := .movRmImmRrB x rm) rfl, decode_encode_append (i := .movRmImmRrW x rm) rfl,
    fun b hread => ?_, fun lo hi hw => ?_⟩
  · rw [← Byte.toNat_word b]
    exact exec_decodes_of_operands rfl ⟨nofun, nofun⟩ (Memory.holds_zero _ _) (Memory.holds_one hread) rfl rfl
  · rw [← assemble_toNat]
    exact exec_decodes_of_operands rfl ⟨nofun, nofun⟩ (Memory.holds_zero _ _) (Memory.holds_word hw) rfl rfl

/-- Settles O20: by the policy; the address stands before the immediate. -/
theorem immediateToDirectAddress : Obligations.ImmediateToDirectAddress := by
  intro x s
  refine ⟨decode_encode_append (i := .movRmImmDirectB x) rfl, decode_encode_append (i := .movRmImmDirectW x) rfl,
    fun lo hi b h16 hw => ?_, fun lo hi ilo ihi h16 hw => ?_, fun hfail => ?_⟩
  · obtain ⟨hdisp, himm⟩ := (Memory.window_eq_append (l := [lo, hi]) (l' := [b])).1 hw
    rw [← assemble_toNat, ← Byte.toNat_word b]
    exact exec_decodes_of_operands rfl ⟨nofun, fun _ => h16⟩ (Memory.holds_word hdisp) (Memory.holds_byte himm) rfl rfl
  · obtain ⟨hdisp, himm⟩ := (Memory.window_eq_append (l := [lo, hi]) (l' := [ilo, ihi])).1 hw
    rw [← assemble_toNat, ← assemble_toNat]
    exact exec_decodes_of_operands rfl ⟨nofun, fun _ => h16⟩ (Memory.holds_word hdisp) (Memory.holds_word himm) rfl rfl
  · obtain ⟨t, et, ht⟩ := exec_direct_fails (i := .movRmImmDirectB x) rfl nofun rfl hfail
    obtain ⟨u, eu, hu⟩ := exec_direct_fails (i := .movRmImmDirectW x) rfl nofun rfl hfail
    exact ⟨t, u, et, ht, eu, hu⟩

/-- Settles O21: the immediate is the only operand behind `b1`. -/
theorem immediateToMemoryNoDisplacement : Obligations.ImmediateToMemoryNoDisplacement := by
  intro x rm s hrm
  have hwfB : (Instr.movRmImmM0B x rm).wellFormed = true := by simpa [Instr.wellFormed] using hrm
  have hwfW : (Instr.movRmImmM0W x rm).wellFormed = true := by simpa [Instr.wellFormed] using hrm
  refine ⟨decode_encode_append hwfB, decode_encode_append hwfW, fun b hread => ?_, fun lo hi hw => ?_⟩
  · rw [← Byte.toNat_word b]
    exact exec_decodes_of_operands hwfB ⟨nofun, nofun⟩ (Memory.holds_zero _ _) (Memory.holds_one hread) rfl
      (immRmLine_m0 false _ _ hrm)
  · rw [← assemble_toNat]
    exact exec_decodes_of_operands hwfW ⟨nofun, nofun⟩ (Memory.holds_zero _ _) (Memory.holds_word hw) rfl
      (immRmLine_m0 true _ _ hrm)

/-- Settles O22: the displacement byte stands before the immediate. -/
theorem immediateToMemoryDisplacement8 : Obligations.ImmediateToMemoryDisplacement8 := by
  intro x rm s
  refine ⟨decode_encode_append (i := .movRmImmM8B x rm) rfl, decode_encode_append (i := .movRmImmM8W x rm) rfl,
    fun disp b hw => ?_, fun disp lo hi hw => ?_⟩
  · obtain ⟨hdisp, himm⟩ := (Memory.window_eq_append (l := [disp]) (l' := [b])).1 hw
    rw [← Byte.toNat_word disp, ← Byte.toNat_word b]
    exact exec_decodes_of_operands rfl ⟨nofun, nofun⟩ (Memory.holds_byte hdisp) (Memory.holds_byte himm) rfl
      (immRmLine_displacement false rm _ _ (.inl rfl))
  · obtain ⟨hdisp, himm⟩ := (Memory.window_eq_append (l := [disp]) (l' := [lo, hi])).1 hw
    rw [← Byte.toNat_word disp, ← assemble_toNat]
    exact exec_decodes_of_operands rfl ⟨nofun, nofun⟩ (Memory.holds_byte hdisp) (Memory.holds_word himm) rfl
      (immRmLine_displacement true rm _ _ (.inl rfl))

/-- Settles O23: the two displacement bytes stand before the immediate. -/
theorem immediateToMemoryDisplacement16 : Obligations.ImmediateToMemoryDisplacement16 := by
  intro x rm s
  refine ⟨decode_encode_append (i := .movRmImmM16B x rm) rfl, decode_encode_append (i := .movRmImmM16W x rm) rfl,
    fun dlo dhi b hw => ?_, fun dlo dhi lo hi hw => ?_⟩
  · obtain ⟨hdisp, himm⟩ := (Memory.window_eq_append (l := [dlo, dhi]) (l' := [b])).1 hw
    rw [← assemble_toNat, ← Byte.toNat_word b]
    exact exec_decodes_of_operands rfl ⟨nofun, nofun⟩ (Memory.holds_word hdisp) (Memory.holds_byte himm) rfl
      (immRmLine_displacement false rm _ _ (.inr rfl))
  · obtain ⟨hdisp, himm⟩ := (Memory.window_eq_append (l := [dlo, dhi]) (l' := [lo, hi])).1 hw
    rw [← assemble_toNat, ← assemble_toNat]
    exact exec_decodes_of_operands rfl ⟨nofun, nofun⟩ (Memory.holds_word hdisp) (Memory.holds_word himm) rfl
      (immRmLine_displacement true rm _ _ (.inr rfl))

end Sys2Proof.Machine
end

section
/-! The rows by class: the state in which a class's handler begins, the two ways it ends, and what that says about the
latches, the record and everything a row leaves unchanged (spec/10_state.md R37, R52). -/

namespace Sys2Proof.Machine

variable {s t : State} {i : Instr}

/-! ### A row of each class -/

/-- The opcode bytes of a row of class `RM_REG` are consumed and latched. -/
def State.openRmReg (d w : Bit) (mod : Mode2) (reg rm : Sel3) (s : State) : State :=
  { s with insnStart := s.pc, pc := s.pc + 2, b0 := rmRegLead d w, cls := .rmReg, w := w, d := d,
           b1 := secondByte mod reg rm, mod := mod, reg := reg, rm := rm }

/-- The opcode byte of a row of class `IMM_REG` is consumed and latched. -/
def State.openImmReg (w : Bit) (reg : Sel3) (s : State) : State :=
  { s with insnStart := s.pc, pc := s.pc + 1, b0 := immRegLead w reg, cls := .immReg, w := w, reg := reg }

/-- The opcode bytes of a row of class `IMM_RM` are consumed and latched. -/
def State.openImmRm (w : Bit) (mod : Mode2) (x rm : Sel3) (s : State) : State :=
  { s with insnStart := s.pc, pc := s.pc + 2, b0 := immRmLead w, cls := .immRm, w := w,
           b1 := secondByte mod x rm, mod := mod, reg := x, rm := rm }

theorem State.openInsn_eq_openRmReg {d w : Bit} {mod : Mode2} {reg rm : Sel3} (s : State)
    (h : encode i = [rmRegLead d w, secondByte mod reg rm]) : s.openInsn i = s.openRmReg d w mod reg rm := by
  simp only [State.openInsn, h, State.takeB0_rmReg _ (classOf_rmRegLead d w), State.takeB1, State.latchB1,
    sizeBit_rmRegLead, directionBit_rmRegLead, modField_secondByte, midField_secondByte, lowField_secondByte]
  rfl

theorem State.openInsn_eq_openImmReg {w : Bit} {reg : Sel3} (s : State) (h : encode i = [immRegLead w reg]) :
    s.openInsn i = s.openImmReg w reg := by
  simp only [State.openInsn, h, State.takeB0_immReg _ (classOf_immRegLead w reg), immSizeBit_immRegLead,
    lowField_immRegLead]
  rfl

theorem State.openInsn_eq_openImmRm {w : Bit} {mod : Mode2} {x rm : Sel3} (s : State)
    (h : encode i = [immRmLead w, secondByte mod x rm]) : s.openInsn i = s.openImmRm w mod x rm := by
  simp only [State.openInsn, h, State.takeB0_immRm _ (classOf_immRmLead w), State.takeB1, State.latchB1,
    sizeBit_immRmLead, modField_secondByte, midField_secondByte, lowField_secondByte]
  rfl

/-- Every row of class `RM_REG`, well formed or not, is its handler run behind its opcode bytes (R180). -/
theorem exec_rmReg (hc : i.cls = .rmReg) : ∃ (d w : Bit) (mod : Mode2) (reg rm : Sel3),
    encode i = [rmRegLead d w, secondByte mod reg rm] ∧
      ∀ s, exec i s = .next (handleRmReg d w mod reg rm (s.openRmReg d w mod reg rm)) := by
  obtain ⟨d, w, mod, reg, rm, he, h⟩ : ∃ (d w : Bit) (mod : Mode2) (reg rm : Sel3),
      encode i = [rmRegLead d w, secondByte mod reg rm] ∧
        ∀ s, exec i s = .next (handleRmReg d w mod reg rm (s.openInsn i)) := by
    cases i with
    | movRmRegRr | movRmRegDirect | movRmRegM0 | movRmRegM8 | movRmRegM16 => exact ⟨_, _, _, _, _, rfl, fun _ => rfl⟩
    | _ => cases hc
  exact ⟨d, w, mod, reg, rm, he, fun s => by rw [h, State.openInsn_eq_openRmReg s he]⟩

/-- Every row of class `IMM_REG`, likewise (R200). -/
theorem exec_immReg (hc : i.cls = .immReg) : ∃ (w : Bit) (reg : Sel3), encode i = [immRegLead w reg] ∧
    ∀ s, exec i s = .next (handleImmReg w reg (s.openImmReg w reg)) := by
  obtain ⟨w, reg, he, h⟩ : ∃ (w : Bit) (reg : Sel3), encode i = [immRegLead w reg] ∧
      ∀ s, exec i s = .next (handleImmReg w reg (s.openInsn i)) := by
    cases i with
    | movRegImmB | movRegImmW => exact ⟨_, _, rfl, fun _ => rfl⟩
    | _ => cases hc
  exact ⟨w, reg, he, fun s => by rw [h, State.openInsn_eq_openImmReg s he]⟩

/-- Every row of class `IMM_RM`, likewise (R210). -/
theorem exec_immRm (hc : i.cls = .immRm) : ∃ (w : Bit) (mod : Mode2) (x rm : Sel3),
    encode i = [immRmLead w, secondByte mod x rm] ∧
      ∀ s, exec i s = .next (handleImmRm w mod rm (s.openImmRm w mod x rm)) := by
  obtain ⟨w, mod, x, rm, he, h⟩ : ∃ (w : Bit) (mod : Mode2) (x rm : Sel3),
      encode i = [immRmLead w, secondByte mod x rm] ∧
        ∀ s, exec i s = .next (handleImmRm w mod rm (s.openInsn i)) := by
    cases i with
    | movRmRegRr | movRmRegDirect | movRmRegM0 | movRmRegM8 | movRmRegM16 | movRegImmB | movRegImmW => cases hc
    | _ => exact ⟨_, _, _, _, rfl, fun _ => rfl⟩
  exact ⟨w, mod, x, rm, he, fun s => by rw [h, State.openInsn_eq_openImmRm s he]⟩

/-! ### The two ways a handler ends -/

/-- `H_RM_REG` takes a decode error with nothing but the displacement latch written, or decodes the instruction. -/
theorem handleRmReg_ends (d w : Bit) (mod : Mode2) (reg rm : Sel3) (u : State) :
    (∃ k n v, handleRmReg d w mod reg rm u = ((u.advance n).setDisp v).raise k) ∨
    (directFails u.directPolicy mod rm = false ∧ ∃ v, u.stream.Holds u.pc (dispLen mod rm) v ∧
      handleRmReg d w mod reg rm u = ((u.advance (dispLen mod rm)).setDisp v).emit (rmRegLine d w mod reg rm v)
        (rmRegRecord d w mod reg rm v (u.pc + dispLen mod rm - u.insnStart))) := by
  rcases handleRmReg_cases d w mod reg rm u with ⟨_, e⟩ | ⟨_, _, e⟩ | ⟨_, _, k, v, _, _, e⟩ | ⟨_, hd, v, hv, e⟩
  · exact .inl ⟨_, 0, u.disp, e⟩
  · exact .inl ⟨_, 0, u.disp, e⟩
  · exact .inl ⟨_, k, v, e⟩
  · exact .inr ⟨hd, v, hv, e⟩

/-- `H_IMM_REG`, with the immediate latch. -/
theorem handleImmReg_ends (w : Bit) (reg : Sel3) (u : State) :
    (∃ k n v, handleImmReg w reg u = ((u.advance n).setImm v).raise k) ∨
    (∃ v, u.stream.Holds u.pc (immLen w) v ∧
      handleImmReg w reg u = ((u.advance (immLen w)).setImm v).emit (immRegLine w reg v)
        (immRegRecord w reg v (u.pc + immLen w - u.insnStart))) := by
  rcases handleImmReg_cases w reg u with ⟨k, v, _, _, e⟩ | ⟨v, hv, e⟩
  · exact .inl ⟨_, k, v, e⟩
  · exact .inr ⟨v, hv, e⟩

/-- `H_IMM_RM`, with both. -/
theorem handleImmRm_ends (w : Bit) (mod : Mode2) (rm : Sel3) (u : State) :
    (∃ k n v v', handleImmRm w mod rm u = (((u.advance n).setDisp v).setImm v').raise k) ∨
    (directFails u.directPolicy mod rm = false ∧ ∃ v v', u.stream.Holds u.pc (dispLen mod rm) v ∧
      u.stream.Holds (u.pc + dispLen mod rm) (immLen w) v' ∧
      handleImmRm w mod rm u = (((u.advance (dispLen mod rm + immLen w)).setDisp v).setImm v').emit
        (immRmLine w mod rm v v') (immRmRecord w mod rm v v' (u.pc + dispLen mod rm + immLen w - u.insnStart))) := by
  rcases handleImmRm_cases w mod rm u with ⟨_, e⟩ | ⟨hd, ⟨k, v, _, _, e⟩ | ⟨v, hv, ⟨k, v', _, _, e⟩ | ⟨v', hv', e⟩⟩⟩
  · exact .inl ⟨_, 0, u.disp, u.imm, e⟩
  · exact .inl ⟨_, k, v, u.imm, e⟩
  · exact .inl ⟨_, dispLen mod rm + k, v, v', by rw [e, State.setDisp_advance, State.advance_advance]⟩
  · exact .inr ⟨hd, v, v', hv, hv', by rw [e, State.setDisp_advance, State.advance_advance]⟩

/-! ### The bytes of a field -/

theorem Memory.Holds.byte {m : Memory} {a : Nat} {v : Word} (h : m.Holds a 1 v) :
    ∃ b : Byte, m.read a = some b ∧ v.toNat = b.toNat := by
  obtain ⟨hfit, hw⟩ := h
  cases hread : m.read a with
  | none => simp [Memory.window, hread, littleEndian] at hw
  | some b =>
    obtain rfl := (Memory.holds_one hread).unique (by decide) ⟨hfit, hw⟩
    exact ⟨b, rfl, Byte.toNat_word b⟩

theorem Memory.Holds.word {m : Memory} {a : Nat} {v : Word} (h : m.Holds a 2 v) :
    ∃ lo hi : Byte, m.read a = some lo ∧ m.read (a + 1) = some hi ∧ v.toNat = lo.toNat + 256 * hi.toNat := by
  obtain ⟨hfit, hw⟩ := h
  cases hlo : m.read a with
  | none => simp [Memory.window, hlo, littleEndian] at hw
  | some lo =>
    cases hhi : m.read (a + 1) with
    | none => simp [Memory.window, hlo, hhi, littleEndian] at hw
    | some hi =>
      obtain rfl := (Memory.holds_two hlo hhi).unique le_rfl ⟨hfit, hw⟩
      exact ⟨lo, hi, rfl, rfl, assemble_toNat lo hi⟩

end Sys2Proof.Machine
end

section
/-! What a row of each class leaves in the latches and the record, how far it moves the cursor, and what it leaves
unchanged (spec/10_state.md R37, R52; spec/30_encoding.md R99 to R101). -/

namespace Sys2Proof.Machine

variable {s t : State} {i : Instr}

/-! ### The two ways a row ends -/

/-- A row of class `RM_REG`: its latches, and behind them the decode error or the emitted line. -/
theorem exec_rmReg_ends (hc : i.cls = .rmReg) (h : exec i s = .next t) : ∃ (d w : Bit) (mod : Mode2) (reg rm : Sel3),
    encode i = [rmRegLead d w, secondByte mod reg rm] ∧
    ((∃ k n v, t = (((s.openRmReg d w mod reg rm).advance n).setDisp v).raise k) ∨
     (directFails s.directPolicy mod rm = false ∧ ∃ v, s.stream.Holds (s.pc + 2) (dispLen mod rm) v ∧
       t = (((s.openRmReg d w mod reg rm).advance (dispLen mod rm)).setDisp v).emit (rmRegLine d w mod reg rm v)
         (rmRegRecord d w mod reg rm v (s.pc + 2 + dispLen mod rm - s.pc)))) := by
  obtain ⟨d, w, mod, reg, rm, he, hx⟩ := exec_rmReg hc
  obtain rfl := Host.Outcome.next.inj ((hx s).symm.trans h)
  exact ⟨d, w, mod, reg, rm, he, handleRmReg_ends d w mod reg rm _⟩

/-- A row of class `IMM_REG`, likewise. -/
theorem exec_immReg_ends (hc : i.cls = .immReg) (h : exec i s = .next t) : ∃ (w : Bit) (reg : Sel3),
    encode i = [immRegLead w reg] ∧
    ((∃ k n v, t = (((s.openImmReg w reg).advance n).setImm v).raise k) ∨
     (∃ v, s.stream.Holds (s.pc + 1) (immLen w) v ∧
       t = (((s.openImmReg w reg).advance (immLen w)).setImm v).emit (immRegLine w reg v)
         (immRegRecord w reg v (s.pc + 1 + immLen w - s.pc)))) := by
  obtain ⟨w, reg, he, hx⟩ := exec_immReg hc
  obtain rfl := Host.Outcome.next.inj ((hx s).symm.trans h)
  exact ⟨w, reg, he, handleImmReg_ends w reg _⟩

/-- A row of class `IMM_RM`, likewise. -/
theorem exec_immRm_ends (hc : i.cls = .immRm) (h : exec i s = .next t) : ∃ (w : Bit) (mod : Mode2) (x rm : Sel3),
    encode i = [immRmLead w, secondByte mod x rm] ∧
    ((∃ k n v v', t = ((((s.openImmRm w mod x rm).advance n).setDisp v).setImm v').raise k) ∨
     (directFails s.directPolicy mod rm = false ∧ ∃ v v', s.stream.Holds (s.pc + 2) (dispLen mod rm) v ∧
       s.stream.Holds (s.pc + 2 + dispLen mod rm) (immLen w) v' ∧
       t = ((((s.openImmRm w mod x rm).advance (dispLen mod rm + immLen w)).setDisp v).setImm v').emit
         (immRmLine w mod rm v v') (immRmRecord w mod rm v v' (s.pc + 2 + dispLen mod rm + immLen w - s.pc)))) := by
  obtain ⟨w, mod, x, rm, he, hx⟩ := exec_immRm hc
  obtain rfl := Host.Outcome.next.inj ((hx s).symm.trans h)
  exact ⟨w, mod, x, rm, he, handleImmRm_ends w mod rm _⟩

theorem cls_ne_unrec (i : Instr) : i.cls ≠ .unrec := by cases i <;> nofun

/-! ### What is left unchanged -/

/-- Settles O30: neither way to end writes what the statement names, and the opening only the opcode latches. -/
theorem rmRegFrame : Obligations.RmRegFrame := by
  intro i s t hc h
  obtain ⟨d, w, mod, reg, rm, _, ⟨k, n, v, rfl⟩ | ⟨_, v, _, rfl⟩⟩ := exec_rmReg_ends hc h
  · exact ⟨fun _ => rfl, rfl, rfl, rfl, rfl, rfl, rfl, rfl, .inr ⟨rfl, rfl, rfl⟩⟩
  · exact ⟨fun _ => rfl, rfl, rfl, rfl, rfl, rfl, rfl, rfl, .inl ⟨rfl, rfl, rfl⟩⟩

/-- Settles O31: likewise. -/
theorem immRegFrame : Obligations.ImmRegFrame := by
  intro i s t hc h
  obtain ⟨w, reg, _, ⟨k, n, v, rfl⟩ | ⟨v, _, rfl⟩⟩ := exec_immReg_ends hc h
  · exact ⟨fun _ => rfl, rfl, rfl, rfl, rfl, rfl, rfl, rfl, rfl, rfl, rfl, rfl, .inr ⟨rfl, rfl, rfl⟩⟩
  · exact ⟨fun _ => rfl, rfl, rfl, rfl, rfl, rfl, rfl, rfl, rfl, rfl, rfl, rfl, .inl ⟨rfl, rfl, rfl⟩⟩

/-- Settles O32: likewise. -/
theorem immRmFrame : Obligations.ImmRmFrame := by
  intro i s t hc h
  obtain ⟨w, mod, x, rm, _, ⟨k, n, v, v', rfl⟩ | ⟨_, v, v', _, _, rfl⟩⟩ := exec_immRm_ends hc h
  · exact ⟨fun _ => rfl, rfl, rfl, rfl, rfl, rfl, rfl, rfl, .inr ⟨rfl, rfl, rfl⟩⟩
  · exact ⟨fun _ => rfl, rfl, rfl, rfl, rfl, rfl, rfl, rfl, .inl ⟨rfl, rfl, rfl⟩⟩

/-! ### Latches and record -/

/-- Settles O29: by the class; both ways to end keep the opcode latches, which hold the fields of the bytes. -/
theorem latchesHoldTheOpcodeFields : Obligations.LatchesHoldTheOpcodeFields := by
  intro i s t h
  cases hc : i.cls with
  | unrec => exact absurd hc (cls_ne_unrec i)
  | rmReg =>
    obtain ⟨d, w, mod, reg, rm, he, ⟨k, n, v, rfl⟩ | ⟨_, v, _, rfl⟩⟩ := exec_rmReg_ends hc h
    all_goals simp [he, State.openRmReg]
  | immReg =>
    obtain ⟨w, reg, he, ⟨k, n, v, rfl⟩ | ⟨v, _, rfl⟩⟩ := exec_immReg_ends hc h
    all_goals simp [he, State.openImmReg, hasSecondByte]
  | immRm =>
    obtain ⟨w, mod, x, rm, he, ⟨k, n, v, v', rfl⟩ | ⟨_, v, v', _, _, rfl⟩⟩ := exec_immRm_ends hc h
    all_goals simp [he, State.openImmRm]

/-- Settles O28: by the class; a row that fails does not reach the next instruction boundary. -/
theorem presentedRecordHoldsTheLatches : Obligations.PresentedRecordHoldsTheLatches := by
  intro i s t h hp
  refine ⟨fun hc => ?_, fun hc => ?_, fun hc => ?_⟩
  · obtain ⟨d, w, mod, reg, rm, _, ⟨k, n, v, rfl⟩ | ⟨_, v, _, rfl⟩⟩ := exec_rmReg_ends hc h
    · cases hp
    · rfl
  · obtain ⟨w, reg, _, ⟨k, n, v, rfl⟩ | ⟨v, _, rfl⟩⟩ := exec_immReg_ends hc h
    · cases hp
    · rfl
  · obtain ⟨w, mod, x, rm, _, ⟨k, n, v, v', rfl⟩ | ⟨_, v, v', _, _, rfl⟩⟩ := exec_immRm_ends hc h
    · cases hp
    · simp only [State.Presents, State.emit_pc, State.setImm_pc, State.setDisp_pc, State.advance_pc, ← Nat.add_assoc]
      rfl

/-! ### Displacement, immediate, length -/

/-- A displacement field by the mode (R99). -/
theorem displacement_of_holds {m : Memory} {a : Nat} {mod : Mode2} {rm : Sel3} {v : Word}
    (h : m.Holds a (dispLen mod rm) v) :
    (mod = 1#2 → ∃ b : Byte, m.read a = some b ∧ v.toNat = b.toNat) ∧
    (mod = 2#2 → ∃ lo hi : Byte, m.read a = some lo ∧ m.read (a + 1) = some hi ∧ v.toNat = lo.toNat + 256 * hi.toNat) ∧
    (mod = 3#2 → v = 0#16) ∧ (mod = 0#2 → rm ≠ Sel3.direct → v = 0#16) := by
  refine ⟨?_, ?_, ?_, ?_⟩
  · rintro rfl
    exact Memory.Holds.byte h
  · rintro rfl
    exact Memory.Holds.word h
  · rintro rfl
    exact Memory.holds_absent h
  · rintro rfl hrm
    rw [show dispLen 0#2 rm = 0 by simp [dispLen, hrm]] at h
    exact Memory.holds_absent h

/-- Settles O25: the field behind `b1` is as long as the mode says. -/
theorem displacementIsUnsignedLittleEndian : Obligations.DisplacementIsUnsignedLittleEndian := by
  intro i s t _ h2 h hp
  cases hc : i.cls with
  | unrec => exact absurd hc (cls_ne_unrec i)
  | immReg => simp [hc, hasSecondByte] at h2
  | rmReg =>
    obtain ⟨d, w, mod, reg, rm, _, ⟨k, n, v, rfl⟩ | ⟨_, v, hv, rfl⟩⟩ := exec_rmReg_ends hc h
    · cases hp
    · exact displacement_of_holds hv
  | immRm =>
    obtain ⟨w, mod, x, rm, _, ⟨k, n, v, v', rfl⟩ | ⟨_, v, v', hv, _, rfl⟩⟩ := exec_immRm_ends hc h
    · cases hp
    · exact displacement_of_holds hv

/-- An immediate field that ends at `a + immLen w`, by the operand-size bit (R100). -/
theorem immediate_of_holds {m : Memory} {a : Nat} {w : Bit} {v : Word} (h : m.Holds a (immLen w) v) :
    (w = false → ∃ b : Byte, m.read (a + immLen w - 1) = some b ∧ v.toNat = b.toNat) ∧
    (w = true → ∃ lo hi : Byte, m.read (a + immLen w - 2) = some lo ∧ m.read (a + immLen w - 1) = some hi ∧
      v.toNat = lo.toNat + 256 * hi.toNat) := by
  refine ⟨?_, ?_⟩
  · rintro rfl
    exact Memory.Holds.byte h
  · rintro rfl
    exact Memory.Holds.word h

/-- Settles O26: the immediate field ends where the cursor stands then. -/
theorem immediateIsUnsignedLittleEndian : Obligations.ImmediateIsUnsignedLittleEndian := by
  intro i s t hne h hp
  cases hc : i.cls with
  | unrec => exact absurd hc (cls_ne_unrec i)
  | rmReg => exact absurd hc hne
  | immReg =>
    obtain ⟨w, reg, _, ⟨k, n, v, rfl⟩ | ⟨v, hv, rfl⟩⟩ := exec_immReg_ends hc h
    · cases hp
    · exact immediate_of_holds hv
  | immRm =>
    obtain ⟨w, mod, x, rm, _, ⟨k, n, v, v', rfl⟩ | ⟨_, v, v', _, hv', rfl⟩⟩ := exec_immRm_ends hc h
    · cases hp
    · simp only [State.emit_pc, State.setImm_pc, State.setDisp_pc, State.advance_pc, ← Nat.add_assoc]
      exact immediate_of_holds hv'

theorem length_wholeRecord (i : Instr) (o : Operands) : (wholeRecord i o).length = i.length := by cases i <;> rfl

/-- A decoded row moves the cursor by its length, which its record says. -/
theorem exec_length (hi : i.wellFormed = true) (h : exec i s = .next t) (hp : t.phase = .pB0) :
    t.pc = s.pc + i.length ∧ ∃ r, t.records = s.records ++ [r] ∧ r.length = i.length := by
  obtain ⟨u, e, ho⟩ := exec_outcome hi s
  obtain rfl := Host.Outcome.next.inj (e.symm.trans h)
  cases ho with
  | malformed _ _ ht | direct _ _ _ ht | exhausted _ _ _ _ _ _ _ _ ht => subst ht; cases hp
  | decoded _ o _ _ ht =>
    subst ht
    exact ⟨by simp [Instr.length, Nat.add_assoc], wholeRecord i o, by simp, length_wholeRecord i o⟩

/-- `Length` of the latched fields is how far the cursor has moved (R101). -/
theorem insnLength_of_exec (h : exec i s = .next t) (hp : t.phase = .pB0) :
    insnLength s.directPolicy t.cls t.w t.mod t.rm = some (t.pc - s.pc) := by
  cases hc : i.cls with
  | unrec => exact absurd hc (cls_ne_unrec i)
  | rmReg =>
    obtain ⟨d, w, mod, reg, rm, _, ⟨k, n, v, rfl⟩ | ⟨hd, v, _, rfl⟩⟩ := exec_rmReg_ends hc h
    · cases hp
    · simp [State.openRmReg, insnLength, hd, Nat.add_assoc]
  | immReg =>
    obtain ⟨w, reg, _, ⟨k, n, v, rfl⟩ | ⟨v, _, rfl⟩⟩ := exec_immReg_ends hc h
    · cases hp
    · simp [State.openImmReg, insnLength, Nat.add_assoc]
  | immRm =>
    obtain ⟨w, mod, x, rm, _, ⟨k, n, v, v', rfl⟩ | ⟨hd, v, v', _, _, rfl⟩⟩ := exec_immRm_ends hc h
    · cases hp
    · simp [State.openImmRm, insnLength, hd, Nat.add_assoc]

/-- Settles O27: `Length` by the class, the row's number of bytes by its outcome. -/
theorem cursorMovesByTheLengthOfTheInstruction : Obligations.CursorMovesByTheLengthOfTheInstruction :=
  fun _ _ _ hi h hp => ⟨insnLength_of_exec h hp, exec_length hi h hp⟩

end Sys2Proof.Machine
end

section
/-! The middle field of the second byte in class `IMM_RM` is latched and not looked at (spec/30_encoding.md section 6,
spec/44_mov_imm_regmem.md R221): the handler's run commutes with loading the latches that hold it. -/

namespace Sys2Proof.Machine

/-- Load the latches that hold the middle field, and leave the others (R37). -/
def State.latchMiddle (b : Byte) (x : Sel3) (s : State) : State := { s with b1 := b, reg := x }

/-- A meaning that looks at neither of those latches: loading them before it or after it is the same. -/
def KeepsMiddle (b : Byte) (x : Sel3) (f : State → State) : Prop := ∀ s, f (s.latchMiddle b x) = (f s).latchMiddle b x

section Middle
variable {b : Byte} {x : Sel3}

theorem KeepsMiddle.need {f : Byte → State → State} (hf : ∀ c, KeepsMiddle b x (f c)) :
    KeepsMiddle b x (State.need f) := by
  intro s
  have hread : (s.latchMiddle b x).stream.read (s.latchMiddle b x).pc = s.stream.read s.pc := rfl
  cases h : s.stream.read s.pc with
  | none =>
    rw [State.need_none h, State.need_none (hread.trans h)]
    rfl
  | some c =>
    rw [State.need_some h, State.need_some (hread.trans h)]
    exact hf c (s.advance 1)

theorem KeepsMiddle.readImm (w : Bit) {f : State → State} (hf : KeepsMiddle b x f) :
    KeepsMiddle b x (State.readImm w f) := by
  cases w with
  | false => exact .need fun c s => hf (s.setImm (c.setWidth 16))
  | true =>
    exact .need fun lo s => KeepsMiddle.need (fun hi s => hf (s.setImm (assemble lo hi))) (s.setImm (lo.setWidth 16))

theorem KeepsMiddle.readDisp {n : Nat} (hn : n ≤ 2) {f : State → State} (hf : KeepsMiddle b x f) :
    KeepsMiddle b x (State.readDisp n f) := by
  match n, hn with
  | 0, _ => exact fun s => hf (s.setDisp 0#16)
  | 1, _ => exact .need fun c s => hf (s.setDisp (c.setWidth 16))
  | 2, _ =>
    exact .need fun lo s => KeepsMiddle.need (fun hi s => hf (s.setDisp (assemble lo hi))) (s.setDisp (lo.setWidth 16))

theorem KeepsMiddle.resolveRm (mod : Mode2) (rm : Sel3) {f : State → State} (hf : KeepsMiddle b x f) :
    KeepsMiddle b x (State.resolveRm mod rm f) := by
  intro s
  unfold State.resolveRm
  rw [show (s.latchMiddle b x).directPolicy = s.directPolicy from rfl]
  split
  · rfl
  · exact KeepsMiddle.readDisp (dispLen_le mod rm) hf s

theorem handleImmRm_keepsMiddle (w : Bit) (mod : Mode2) (rm : Sel3) : KeepsMiddle b x (handleImmRm w mod rm) :=
  .resolveRm mod rm (.readImm w fun _ => rfl)

end Middle

/-- The handler's run behind the opcode bytes ends in a state whose latch `reg` is the middle field. -/
theorem handleImmRm_reg (w : Bit) (mod : Mode2) (x rm : Sel3) (s : State) :
    (handleImmRm w mod rm (s.openImmRm w mod x rm)).reg = x := by
  rcases handleImmRm_ends w mod rm (s.openImmRm w mod x rm) with ⟨k, n, v, v', e⟩ | ⟨_, v, v', _, _, e⟩
  all_goals rw [e]; rfl

/-- Settles O24: every row is the handler's run from states that differ in the latches `b1` and `reg`. -/
theorem middleFieldOfImmRmIsIgnored : Obligations.MiddleFieldOfImmRmIsIgnored := by
  intro x y rm row s hrow
  obtain ⟨w, mod, m, henc, hexec⟩ : ∃ (w : Bit) (mod : Mode2) (m : Sel3),
      (∀ x, encode (row x) = [immRmLead w, secondByte mod x m]) ∧
        ∀ x, exec (row x) s = .next (handleImmRm w mod m (s.openInsn (row x))) := by
    rcases hrow with rfl | rfl | rfl | rfl | rfl | rfl | rfl | rfl | rfl | rfl
    all_goals exact ⟨_, _, _, fun _ => rfl, fun _ => rfl⟩
  have hopen : s.openImmRm w mod y m = (s.openImmRm w mod x m).latchMiddle (secondByte mod y m) y := rfl
  have hx : exec (row x) s = .next (handleImmRm w mod m (s.openImmRm w mod x m)) := by
    rw [hexec, State.openInsn_eq_openImmRm s (henc x)]
  have hy : exec (row y) s = .next (handleImmRm w mod m (s.openImmRm w mod y m)) := by
    rw [hexec, State.openInsn_eq_openImmRm s (henc y)]
  refine ⟨_, _, hx, hy, ?_, handleImmRm_reg w mod x m s, handleImmRm_reg w mod y m s⟩
  rw [hopen, handleImmRm_keepsMiddle w mod m]
  rfl

end Sys2Proof.Machine
end

section
/-! What an iteration can depend on (spec/10_state.md sections 3 and 6, spec/20_memory.md section 1): not on the latches
it finds, and on no byte of the stream but those it consumes. -/

namespace Sys2Proof.Machine

variable {s t u : State} {i : Instr}

theorem State.unrecognised_lenient (b : Byte) (h : s.unrecPolicy = .lenient) :
    s.unrecognised b = (s.addDiag .unrecognizedOpcode s.insnStart b).goto .pB0 := by
  rw [State.unrecognised, h]

theorem State.unrecognised_strict (b : Byte) (h : s.unrecPolicy = .strict) :
    s.unrecognised b = s.raise .unrecognizedOpcode := by
  rw [State.unrecognised, h]

/-! ### The outcome of a row by what decides it -/

theorem RowOutcome.eq_of_malformed (h : RowOutcome i s t) (hm : i.isRmRegMemory = true) (hp : s.modPolicy = .regOnly) :
    t = (s.openInsn i).raise .malformedSecondByte := by
  have hrej : ¬ s.modPolicy = .full := by simp [hp]
  cases h with
  | malformed _ _ ht => exact ht
  | direct hmode _ _ _ => exact absurd (hmode hm) hrej
  | exhausted ha _ _ _ _ _ _ _ _ => exact absurd (ha.1 hm) hrej
  | decoded ha _ _ _ _ => exact absurd (ha.1 hm) hrej

theorem RowOutcome.eq_of_direct (h : RowOutcome i s t) (hmode : i.isRmRegMemory = true → s.modPolicy = .full)
    (hd : i.isDirect = true) (hp : s.directPolicy = .fail) : t = (s.openInsn i).raise .directAddressUnimplemented := by
  have hrej : ¬ s.directPolicy = .direct16 := by simp [hp]
  cases h with
  | malformed hm hreg _ => exact absurd (hmode hm) (by simp [hreg])
  | direct _ _ _ ht => exact ht
  | exhausted ha _ _ _ _ _ _ _ _ => exact absurd (ha.2 hd) hrej
  | decoded ha _ _ _ _ => exact absurd (ha.2 hd) hrej

/-- The trailing bytes are all there, or the stream ends within them. -/
theorem not_endsAfter_of_window {o : Operands} {m : Memory} {a k : Nat} (hk : k < i.dispBytes + i.immBytes)
    (hw : m.window a (i.dispBytes + i.immBytes) = littleEndian i.dispBytes o.disp ++ littleEndian i.immBytes o.imm) :
    ¬ m.EndsAfter a k := by
  intro hend
  have hlen := hend.length_window hk
  rw [hw, List.length_append, littleEndian_length i.dispBytes_le, littleEndian_length i.immBytes_le] at hlen
  omega

theorem RowOutcome.eq_of_exhausted {k : Nat} (h : RowOutcome i s t) (ha : s.accepts i)
    (hk : k < i.dispBytes + i.immBytes) (hend : s.stream.EndsAfter (s.pc + (encode i).length) k) :
    ∃ v v', t = ((((s.openInsn i).advance k).setDisp v).setImm v').raise .endOfInputMidInstruction := by
  cases h with
  | malformed hm hp _ => exact absurd (ha.1 hm) (by simp [hp])
  | direct _ hd hp _ => exact absurd (ha.2 hd) (by simp [hp])
  | exhausted _ k' v v' hk' hend' _ _ ht =>
    obtain rfl : k' = k := (hend'.length_window hk').symm.trans (hend.length_window hk)
    exact ⟨v, v', ht⟩
  | decoded _ o _ hw _ => exact absurd hend (not_endsAfter_of_window hk hw)

theorem RowOutcome.eq_of_decoded {o : Operands} (h : RowOutcome i s t) (ha : s.accepts i) (hfit : o.fit i = true)
    (hw : s.stream.window (s.pc + (encode i).length) (i.dispBytes + i.immBytes) =
      littleEndian i.dispBytes o.disp ++ littleEndian i.immBytes o.imm) :
    t = ((((s.openInsn i).advance (i.dispBytes + i.immBytes)).setDisp
      (if latchesDisp i then o.disp else s.disp)).setImm (if i.immBytes = 0 then s.imm else o.imm)).emit
        (wholeLine i o) (wholeRecord i o) := by
  cases h with
  | malformed hm hp _ => exact absurd (ha.1 hm) (by simp [hp])
  | direct _ hd hp _ => exact absurd (ha.2 hd) (by simp [hp])
  | exhausted _ k _ _ hk hend _ _ _ => exact absurd hend (not_endsAfter_of_window hk hw)
  | decoded _ o' hfit' hw' ht =>
    obtain ⟨hdisp, himm⟩ := List.append_inj (hw'.symm.trans hw)
      (by rw [littleEndian_length i.dispBytes_le, littleEndian_length i.dispBytes_le])
    obtain ⟨hfd, hfi⟩ := Bool.and_eq_true_iff.1 hfit
    obtain ⟨hfd', hfi'⟩ := Bool.and_eq_true_iff.1 hfit'
    have heq : o' = o := by
      cases o; cases o'
      rw [Operands.mk.injEq]
      exact ⟨littleEndian_injective i.dispBytes_le hfd' hfd hdisp, littleEndian_injective i.immBytes_le hfi' hfi himm⟩
    exact heq ▸ ht

/-! ### Not on the latches -/

section SameButLatches
variable (h : s.SameButLatches u)
include h

theorem State.SameButLatches.stream : u.stream = s.stream := by rw [State.SameButLatches] at h; rw [← h]; rfl
theorem State.SameButLatches.pc : u.pc = s.pc := by rw [State.SameButLatches] at h; rw [← h]
theorem State.SameButLatches.phase : u.phase = s.phase := by rw [State.SameButLatches] at h; rw [← h]
theorem State.SameButLatches.unrecPolicy : u.unrecPolicy = s.unrecPolicy := by
  rw [State.SameButLatches] at h; rw [← h]
theorem State.SameButLatches.modPolicy : u.modPolicy = s.modPolicy := by rw [State.SameButLatches] at h; rw [← h]
theorem State.SameButLatches.directPolicy : u.directPolicy = s.directPolicy := by
  rw [State.SameButLatches] at h; rw [← h]

theorem State.SameButLatches.accepts : u.accepts i ↔ s.accepts i := by
  rw [State.accepts, State.accepts, h.modPolicy, h.directPolicy]

end SameButLatches

theorem State.takeB0_sameButLatches (b : Byte) (h : s.SameButLatches u) : (s.takeB0 b).SameButLatches (u.takeB0 b) := by
  rw [State.SameButLatches] at h
  rw [← h]
  cases hc : classOf b with
  | rmReg => rw [State.takeB0_rmReg _ hc, State.takeB0_rmReg _ hc]; rfl
  | immRm => rw [State.takeB0_immRm _ hc, State.takeB0_immRm _ hc]; rfl
  | immReg => rw [State.takeB0_immReg _ hc, State.takeB0_immReg _ hc]; rfl
  | unrec => rw [State.takeB0_unrec _ hc, State.takeB0_unrec _ hc]; rfl

theorem State.takeB1_sameButLatches (b : Byte) (h : s.SameButLatches u) : (s.takeB1 b).SameButLatches (u.takeB1 b) := by
  rw [State.SameButLatches] at h
  rw [← h]
  rfl

theorem State.begin_sameButLatches (h : s.SameButLatches u) : s.begin.SameButLatches u.begin := by
  rw [State.SameButLatches] at h
  rw [← h]
  rfl

theorem State.openInsn_sameButLatches (i : Instr) (h : s.SameButLatches u) :
    (s.openInsn i).SameButLatches (u.openInsn i) := by
  unfold State.openInsn
  split
  · exact State.takeB1_sameButLatches _ (State.takeB0_sameButLatches _ (State.begin_sameButLatches h))
  · exact State.takeB0_sameButLatches _ (State.begin_sameButLatches h)
  · exact State.begin_sameButLatches h

theorem State.raise_sameButLatches (k : ErrorKind) (h : s.SameButLatches u) :
    (s.raise k).SameButLatches (u.raise k) := by
  rw [State.SameButLatches] at h
  rw [← h]
  rfl

theorem State.unrecognised_sameButLatches (b : Byte) (h : s.SameButLatches u) :
    (s.unrecognised b).SameButLatches (u.unrecognised b) := by
  have hu := h.unrecPolicy
  rw [State.SameButLatches] at h
  cases hpol : s.unrecPolicy with
  | lenient =>
    rw [State.unrecognised_lenient b hpol, State.unrecognised_lenient b (hu.trans hpol), ← h]
    rfl
  | strict =>
    rw [State.unrecognised_strict b hpol, State.unrecognised_strict b (hu.trans hpol), ← h]
    rfl

/-- A row in two states that differ only in the latches: the same thing decides both outcomes. -/
theorem RowOutcome.sameButLatches {v : State} (ht : RowOutcome i s t) (hv : RowOutcome i u v)
    (h : s.SameButLatches u) : t.SameButLatches v := by
  have hopen := State.openInsn_sameButLatches i h
  cases ht with
  | malformed hm hp ht =>
    rw [ht, hv.eq_of_malformed hm (h.modPolicy.trans hp)]
    exact State.raise_sameButLatches _ hopen
  | direct hmode hd hp ht =>
    rw [ht, hv.eq_of_direct (by rwa [h.modPolicy]) hd (h.directPolicy.trans hp)]
    exact State.raise_sameButLatches _ hopen
  | exhausted ha k _ _ hk hend _ _ ht =>
    obtain ⟨_, _, hv⟩ := hv.eq_of_exhausted (h.accepts.2 ha) hk (by rwa [h.stream, h.pc])
    rw [State.SameButLatches] at hopen
    rw [ht, hv, ← hopen]
    rfl
  | decoded ha o hfit hw ht =>
    rw [ht, hv.eq_of_decoded (h.accepts.2 ha) hfit (by rwa [h.stream, h.pc])]
    rw [State.SameButLatches] at hopen
    rw [← hopen]
    rfl

/-- Settles O52: by the cases of a step, each of which looks at the stream, the cursor and the policies only. -/
theorem latchesCarryNothingToTheNextInstruction : Obligations.LatchesCarryNothingToTheNextInstruction := by
  intro s u hp h
  have hbegin := State.begin_sameButLatches h
  have hpu : u.phase = .pB0 := h.phase.trans hp
  rcases step_cases hp with ⟨hend, e⟩ | ⟨b, hread, hb, e⟩ | ⟨b, hread, hb, hend, e⟩ | ⟨i, hi, hop, e⟩
  · refine ⟨_, _, e, step_exhausted hpu (by rwa [h.stream, h.pc]), ?_⟩
    rw [State.SameButLatches] at hbegin
    rw [← hbegin]
    rfl
  · exact ⟨_, _, e, step_unrecognised hpu (by rwa [h.stream, h.pc]) hb,
      State.unrecognised_sameButLatches b (State.takeB0_sameButLatches b hbegin)⟩
  · exact ⟨_, _, e, step_truncated hpu (by rwa [h.stream, h.pc]) hb (by rwa [h.stream, h.pc]),
      State.raise_sameButLatches _ (State.takeB0_sameButLatches b hbegin)⟩
  · obtain ⟨t, et, ht⟩ := exec_outcome hi s
    obtain ⟨v, ev, hv⟩ := exec_outcome hi u
    exact ⟨t, v, e.trans et, (step_eq_exec hi hpu (by rwa [h.stream, h.pc])).trans ev, ht.sameButLatches hv h⟩

/-! ### Not on bytes that are not consumed -/

/-- Attach another stream. -/
def State.withStream (m : Memory) (s : State) : State := { s with src := some m }

theorem State.takeB0_withStream (m : Memory) (b : Byte) (s : State) :
    (s.withStream m).takeB0 b = (s.takeB0 b).withStream m := by
  cases hc : classOf b with
  | rmReg => rw [State.takeB0_rmReg _ hc, State.takeB0_rmReg _ hc]; rfl
  | immRm => rw [State.takeB0_immRm _ hc, State.takeB0_immRm _ hc]; rfl
  | immReg => rw [State.takeB0_immReg _ hc, State.takeB0_immReg _ hc]; rfl
  | unrec => rw [State.takeB0_unrec _ hc, State.takeB0_unrec _ hc]; rfl

theorem State.unrecognised_withStream (m : Memory) (b : Byte) (s : State) :
    (s.withStream m).unrecognised b = (s.unrecognised b).withStream m := by
  unfold State.unrecognised
  rw [show (s.withStream m).unrecPolicy = s.unrecPolicy from rfl]
  split <;> rfl

theorem State.openInsn_withStream (m : Memory) (i : Instr) (s : State) :
    (s.withStream m).openInsn i = (s.openInsn i).withStream m := by
  have hbegin : (s.withStream m).begin = s.begin.withStream m := rfl
  unfold State.openInsn
  rw [hbegin]
  split
  · rw [State.takeB0_withStream]; rfl
  · exact State.takeB0_withStream m _ _
  · rfl

theorem Memory.window_congr {m m' : Memory} {a n : Nat} (h : ∀ k, a ≤ k → k < a + n → m'.read k = m.read k) :
    m'.window a n = m.window a n := by
  induction n generalizing a with
  | zero => rfl
  | succ n ih =>
    simp only [Memory.window]
    rw [h a le_rfl (by omega), ih fun k hk hlt => h k (by omega) (by omega)]

/-- A row that does not find the stream exhausted, on another stream with the same bytes where it reads. -/
theorem RowOutcome.withStream {m : Memory} {v : State} (ht : RowOutcome i s t) (hv : RowOutcome i (s.withStream m) v)
    (hfound : t.phase = .pErr → t.result ≠ some (.err .endOfInputMidInstruction s.pc))
    (hm : ∀ a, s.pc ≤ a → a < t.pc → m.read a = s.stream.read a) : v = t.withStream m := by
  have hopen := State.openInsn_withStream m i s
  cases ht with
  | malformed hmem hp ht =>
    rw [hv.eq_of_malformed hmem hp, hopen, ht]
    rfl
  | direct hmode hd hp ht =>
    rw [hv.eq_of_direct hmode hd hp, hopen, ht]
    rfl
  | exhausted _ _ _ _ _ _ _ _ ht =>
    subst ht
    exact absurd (by simp) (hfound rfl)
  | decoded ha o hfit hw ht =>
    subst ht
    simp only [State.emit_pc, State.setImm_pc, State.setDisp_pc, State.advance_pc, State.openInsn_pc] at hm
    have hw' : m.window (s.pc + (encode i).length) (i.dispBytes + i.immBytes) = _ :=
      (Memory.window_congr fun a hle hlt => hm a (by omega) hlt).trans hw
    rw [hv.eq_of_decoded ha hfit hw', hopen]
    rfl

/-- What a row does not undo: the cursor stands behind the opcode bytes at least. -/
theorem RowOutcome.opcode_le_pc (h : RowOutcome i s t) : s.pc + (encode i).length ≤ t.pc := by
  cases h with
  | malformed _ _ ht | direct _ _ _ ht | exhausted _ _ _ _ _ _ _ _ ht | decoded _ _ _ _ ht => simp [ht]

/-- Settles O53: by the cases of a step; one that finds the stream exhausted is excluded, and every other reads the
bytes it consumes. -/
theorem iterationDependsOnItsOwnBytesOnly : Obligations.IterationDependsOnItsOwnBytesOnly := by
  intro s t m hp h hgoes hm
  have hfound : t.phase = .pErr → t.result ≠ some (.err .endOfInputMidInstruction s.pc) := by
    rcases hgoes with h | h
    · exact fun h' => by rw [h] at h'; cases h'
    · exact fun _ => h.2
  show step (s.withStream m) = .next (t.withStream m)
  rcases step_cases hp with ⟨_, e⟩ | ⟨b, hread, hb, e⟩ | ⟨b, _, _, _, e⟩ | ⟨i, hi, hop, e⟩
  · obtain rfl := Host.Outcome.next.inj (e.symm.trans h)
    rcases hgoes with h | h <;> simp at h
  · obtain rfl := Host.Outcome.next.inj (e.symm.trans h)
    have hpc : ((s.begin.takeB0 b).unrecognised b).pc = s.pc + 1 := by
      rw [(State.unrecognised_readsNothing b _).pc]; simp
    have hread' : m.read s.pc = some b := (hm s.pc le_rfl (by omega)).trans hread
    rw [step_unrecognised (s := s.withStream m) hp hread' hb, ← State.unrecognised_withStream,
      ← State.takeB0_withStream]
    rfl
  · obtain rfl := Host.Outcome.next.inj (e.symm.trans h)
    exact absurd (by simp) (hfound rfl)
  · obtain ⟨t', et, ht⟩ := exec_outcome hi s
    obtain rfl := Host.Outcome.next.inj ((e.trans et).symm.trans h)
    obtain ⟨v, ev, hv⟩ := exec_outcome hi (s.withStream m)
    have hle := ht.opcode_le_pc
    have hop' : m.window s.pc (encode i).length = encode i :=
      (Memory.window_congr fun a h1 h2 => hm a h1 (by omega)).trans hop
    rw [step_eq_exec (s := s.withStream m) hi hp hop', ev, ht.withStream hv hfound hm]

end Sys2Proof.Machine
end

section
/-! What an iteration can do, with the kinds of error under each policy (spec/41_decode_pass.md R152 to R156,
spec/60_exceptions.md R230 to R239). -/

namespace Sys2Proof.Machine

variable {s t : State} {i : Instr}

/-! ### The outcomes of an iteration -/

/-- Under which policies an error kind can arise (R230, R233 to R235). -/
def State.allows (s : State) (k : ErrorKind) : Prop :=
  k ≠ .endOfInputAtBoundary ∧ (k = .malformedSecondByte → s.modPolicy = .regOnly) ∧
    (k = .directAddressUnimplemented → s.directPolicy = .fail) ∧ (k = .unrecognizedOpcode → s.unrecPolicy = .strict)

/-- Everything an iteration can do: the stream is exhausted, a byte is skipped, an instruction is decoded, or the pass
ends in a decode error of a kind the policies allow. -/
inductive IterationOutcome (s t : State) : Prop where
  | finished (hend : s.stream.read s.pc = none) (ht : t = s.begin.finish)
  | skipped (b : Byte) (hread : s.stream.read s.pc = some b) (hb : classOf b = .unrec) (hpol : s.unrecPolicy = .lenient)
      (ht : t = ((s.begin.takeB0 b).addDiag .unrecognizedOpcode s.pc b).goto .pB0)
  | decoded (i : Instr) (o : Operands) (hdec : s.Decodes t i.length (wholeLine i o))
      (hrec : s.Presents t (wholeRecord i o))
  | failed (k : ErrorKind) (n : Nat) (hpos : 1 ≤ n) (hle : n ≤ 5) (hk : s.allows k) (h : s.Raises t k n)
      (hrec : t.records = s.records)

theorem RowOutcome.iterationOutcome (h : RowOutcome i s t) : IterationOutcome s t := by
  have hop := encode_length_bounds i
  have hdisp := i.dispBytes_le
  have himm := i.immBytes_le
  cases h with
  | malformed _ hp ht =>
    subst ht
    exact .failed .malformedSecondByte (encode i).length hop.1 (by omega) ⟨by decide, fun _ => hp, nofun, nofun⟩
      (by simp [State.Raises]) (by simp)
  | direct _ _ hp ht =>
    subst ht
    exact .failed .directAddressUnimplemented (encode i).length hop.1 (by omega) ⟨by decide, nofun, fun _ => hp, nofun⟩
      (by simp [State.Raises]) (by simp)
  | exhausted _ k _ _ hk _ _ _ ht =>
    subst ht
    exact .failed .endOfInputMidInstruction ((encode i).length + k) (by omega) (by omega)
      ⟨by decide, nofun, nofun, nofun⟩
      (by simp [State.Raises, Nat.add_assoc]) (by simp)
  | decoded _ o _ _ ht =>
    subst ht
    exact .decoded i o (by simp [State.Decodes, Instr.length, Nat.add_assoc]) (by simp [State.Presents])

theorem iterationOutcome (hp : s.phase = .pB0) : ∃ t, step s = .next t ∧ IterationOutcome s t := by
  rcases step_cases hp with ⟨hend, e⟩ | ⟨b, hread, hb, e⟩ | ⟨b, _, _, _, e⟩ | ⟨i, hi, _, e⟩
  · exact ⟨_, e, .finished hend rfl⟩
  · refine ⟨_, e, ?_⟩
    cases hpol : s.unrecPolicy with
    | lenient =>
      have hu : (s.begin.takeB0 b).unrecPolicy = .lenient := by simp [hpol]
      exact .skipped b hread hb hpol (by rw [State.unrecognised_lenient b hu]; simp)
    | strict =>
      have hu : (s.begin.takeB0 b).unrecPolicy = .strict := by simp [hpol]
      rw [State.unrecognised_strict b hu]
      exact .failed .unrecognizedOpcode 1 le_rfl (by decide) ⟨by decide, nofun, nofun, fun _ => hpol⟩
        (by simp [State.Raises]) (by simp)
  · exact ⟨_, e, .failed .endOfInputMidInstruction 1 le_rfl (by decide) ⟨by decide, nofun, nofun, nofun⟩
      (by simp [State.Raises]) (by simp)⟩
  · obtain ⟨t, e', ho⟩ := exec_outcome hi s
    exact ⟨t, e.trans e', ho.iterationOutcome⟩

theorem IterationOutcome.of_step (hp : s.phase = .pB0) (h : step s = .next t) : IterationOutcome s t := by
  obtain ⟨u, e, ho⟩ := iterationOutcome hp
  exact Host.Outcome.next.inj (e.symm.trans h) ▸ ho

/-- A row is 2 to 6 bytes long (R90). -/
theorem length_bounds (i : Instr) : 2 ≤ i.length ∧ i.length ≤ 6 := by
  cases i <;> simp [Instr.length, encode, Instr.dispBytes, Instr.immBytes]

/-- Settles O39: the four constructors. -/
theorem iterationHasFourOutcomes : Obligations.IterationHasFourOutcomes := by
  intro s hp
  obtain ⟨t, e, ho⟩ := iterationOutcome hp
  refine ⟨t, e, ?_⟩
  cases ho with
  | finished hend ht => subst ht; exact .inr (.inr (.inl ⟨hend, rfl, rfl⟩))
  | skipped b hread _ hpol ht =>
    subst ht
    exact .inr (.inl ⟨b, hread, hpol, by simp, rfl, by simp, by simp⟩)
  | decoded i o hdec hrec =>
    obtain ⟨h2, h6⟩ := length_bounds i
    exact .inl ⟨_, _, _, h2, h6, hdec, hrec⟩
  | failed k n hpos hle _ h _ => exact .inr (.inr (.inr ⟨k, n, hpos, hle, h⟩))

/-- Settles O38: only a failed iteration ends in an error, and its kind is the one recorded. -/
theorem errorKindsBelongToTheirPolicies : Obligations.ErrorKindsBelongToTheirPolicies := by
  intro s t k hp h herr hres
  cases IterationOutcome.of_step hp h with
  | finished _ ht => rw [ht] at herr; cases herr
  | skipped _ _ _ _ ht => rw [ht] at herr; cases herr
  | decoded _ _ hdec _ =>
    obtain ⟨_, _, _, hphase, _⟩ := hdec
    rw [hphase] at herr; cases herr
  | failed k' n _ _ hk h _ =>
    obtain ⟨_, _, hres', _⟩ := h
    rw [hres'] at hres
    obtain rfl : k' = k := (PassResult.err.inj (Option.some.inj hres)).1
    exact hk

/-! ### The second byte -/

theorem isRmRegMemory_rmRegRow (d w : Bit) {mod : Mode2} (reg rm : Sel3) (h : mod ≠ 3#2) :
    (rmRegRow d w mod reg rm).isRmRegMemory = true := by
  unfold rmRegRow
  rw [if_neg h]
  repeat' split
  all_goals rfl

theorem step_rmReg {b0 b1 : Byte} (hp : s.phase = .pB0) (h0 : s.stream.read s.pc = some b0)
    (h1 : s.stream.read (s.pc + 1) = some b1) (hc : classOf b0 = .rmReg) :
    step s = exec (rmRegRow (directionBit b0) (sizeBit b0) (modField b1) (midField b1) (lowField b1)) s :=
  step_insn hp (rest := []) (by rw [Memory.window_two h0 h1]; simp [decode, hc])

theorem step_immRm {b0 b1 : Byte} (hp : s.phase = .pB0) (h0 : s.stream.read s.pc = some b0)
    (h1 : s.stream.read (s.pc + 1) = some b1) (hc : classOf b0 = .immRm) :
    step s = exec (immRmRow (sizeBit b0) (modField b1) (midField b1) (lowField b1)) s :=
  step_insn hp (rest := []) (by rw [Memory.window_two h0 h1]; simp [decode, hc])

/-- Settles O37: the step executes the row of the two bytes, which the policies reject before any later read. -/
theorem checksOfTheSecondByteComeInOrder : Obligations.ChecksOfTheSecondByteComeInOrder := by
  intro s b0 b1 hp h0 h1
  refine ⟨fun hc hreg hmod => ?_, fun h2 hfull hfail hmod hrm => ?_⟩
  · rw [step_rmReg hp h0 h1 hc]
    have h := exec_malformed
      (wellFormed_rmRegRow (directionBit b0) (sizeBit b0) (modField b1) (midField b1) (lowField b1))
      (isRmRegMemory_rmRegRow _ _ _ _ hmod) hreg
    rwa [encode_rmRegRow] at h
  · cases hc : classOf b0 with
    | immReg | unrec => simp [hc, hasSecondByte] at h2
    | rmReg =>
      rw [step_rmReg hp h0 h1 hc, hmod, hrm]
      exact exec_direct_fails (i := .movRmRegDirect _ _ _) rfl (fun _ => hfull hc) rfl hfail
    | immRm =>
      rw [step_immRm hp h0 h1 hc, hmod, hrm]
      cases sizeBit b0 with
      | false => exact exec_direct_fails (i := .movRmImmDirectB _) rfl nofun rfl hfail
      | true => exact exec_direct_fails (i := .movRmImmDirectW _) rfl nofun rfl hfail

end Sys2Proof.Machine
end

section
/-! The text a row writes is a line of the grammar, and the grammar is over the output alphabet (spec/30_encoding.md
R107, spec/00_scope.md R16). -/

namespace Sys2Proof.Machine

variable {s t : State} {i : Instr} {p : DirectPolicy}

/-! ### The grammar -/

theorem regName_mem : ∀ (w : Bit) (i : Sel3), regName w i ∈ registerTexts := by decide

theorem fragment_mem : ∀ i : Sel3, fragment i ∈ fragmentTexts := by decide

theorem isDecimal_dec (n : Nat) : isDecimal (dec n) := by
  by_cases h : n = 0
  · exact .inl (h ▸ rfl)
  · exact .inr ⟨dec_ne_nil n, head?_dec_ne_zero h, all_isDigit_dec n⟩

theorem isMemory_memoryText (i : Sel3) (n : Nat) : isMemory p (memoryText (fragment i) n) := by
  by_cases h : n = 0
  · exact .inl ⟨fragment i, fragment_mem i, if_pos h⟩
  · exact .inr (.inl ⟨fragment i, fragment_mem i, dec n, isDecimal_dec n, if_neg h⟩)

/-- The `rm` operand is a register or a memory operand, the direct address only where it does not fail. -/
theorem rmText_isOperand (w : Bit) {mod : Mode2} {rm : Sel3} (v : Word) (h : directFails p mod rm = false) :
    rmText w mod rm v ∈ registerTexts ∨ isMemory p (rmText w mod rm v) := by
  rcases Mode2.cases mod with rfl | rfl | rfl | rfl
  · by_cases hrm : rm = Sel3.direct
    · subst hrm
      have hp : p = .direct16 := by cases p <;> simp_all [directFails, operandKind]
      exact .inr (.inr (.inr ⟨hp, dec v.toNat, isDecimal_dec _, rfl⟩))
    · exact .inr (rmText_m0 w v hrm ▸ isMemory_memoryText rm 0)
  · exact .inr (rmText_displacement w rm v (.inl rfl) ▸ isMemory_memoryText rm _)
  · exact .inr (rmText_displacement w rm v (.inr rfl) ▸ isMemory_memoryText rm _)
  · exact .inl (regName_mem w rm)

theorem isLine_rmRegLine (d w : Bit) {mod : Mode2} (reg : Sel3) {rm : Sel3} (v : Word)
    (h : directFails p mod rm = false) : isLine p (rmRegLine d w mod reg rm v) := by
  have hrm := rmText_isOperand w v h
  rw [rmRegLine_eq_moveText]
  cases d with
  | true => exact ⟨_, _, rfl, .inl ⟨regName_mem w reg, hrm.imp id .inl⟩⟩
  | false => exact ⟨_, _, rfl, hrm.imp (⟨·, .inl (regName_mem w reg)⟩) (⟨·, .inl (regName_mem w reg)⟩)⟩

theorem isLine_immRegLine (w : Bit) (reg : Sel3) (v : Word) : isLine p (immRegLine w reg v) :=
  ⟨_, _, rfl, .inl ⟨regName_mem w reg, .inr (.inr (isDecimal_dec _))⟩⟩

theorem isLine_immRmLine (w : Bit) {mod : Mode2} {rm : Sel3} (v v' : Word) (h : directFails p mod rm = false) :
    isLine p (immRmLine w mod rm v v') :=
  ⟨_, _, rfl, (rmText_isOperand w v h).imp (⟨·, .inr (.inr (isDecimal_dec _))⟩) (⟨·, .inr (isDecimal_dec _)⟩)⟩

/-- A row writes nothing or one line of the grammar. -/
theorem exec_writes (h : exec i s = .next t) :
    t.text = s.text ∨ ∃ line, isLine s.directPolicy line ∧ t.text = s.text ++ line ++ [newline] := by
  cases hc : i.cls with
  | unrec => exact absurd hc (cls_ne_unrec i)
  | rmReg =>
    obtain ⟨d, w, mod, reg, rm, _, ⟨k, n, v, rfl⟩ | ⟨hd, v, _, rfl⟩⟩ := exec_rmReg_ends hc h
    · exact .inl rfl
    · exact .inr ⟨_, isLine_rmRegLine d w reg v hd, rfl⟩
  | immReg =>
    obtain ⟨w, reg, _, ⟨k, n, v, rfl⟩ | ⟨v, _, rfl⟩⟩ := exec_immReg_ends hc h
    · exact .inl rfl
    · exact .inr ⟨_, isLine_immRegLine w reg v, rfl⟩
  | immRm =>
    obtain ⟨w, mod, x, rm, _, ⟨k, n, v, v', rfl⟩ | ⟨hd, v, v', _, _, rfl⟩⟩ := exec_immRm_ends hc h
    · exact .inl rfl
    · exact .inr ⟨_, isLine_immRmLine w v v' hd, rfl⟩

/-- Settles O56: only a decoded row writes. -/
theorem linesFollowTheGrammar : Obligations.LinesFollowTheGrammar := by
  intro s t hp h
  rcases step_cases hp with ⟨_, e⟩ | ⟨b, _, _, e⟩ | ⟨b, _, _, _, e⟩ | ⟨i, _, _, e⟩
  · exact .inl (by rw [← Host.Outcome.next.inj (e.symm.trans h)]; simp)
  · rw [← Host.Outcome.next.inj (e.symm.trans h)]
    left
    unfold State.unrecognised
    split
    · simp [State.text]
    · simp
  · exact .inl (by rw [← Host.Outcome.next.inj (e.symm.trans h)]; simp)
  · exact exec_writes (e.symm.trans h)

/-! ### The alphabet -/

theorem outputChar_of_isDigit {c : Char} (h : isDigit c = true) : outputChar c = true := by
  simp [outputChar, h]

theorem all_outputChar_of_isDecimal {l : Text} (h : isDecimal l) : l.all outputChar = true := by
  rcases h with rfl | ⟨_, _, h⟩
  · decide
  · exact List.all_eq_true.2 fun c hc => outputChar_of_isDigit (List.all_eq_true.1 h c hc)

theorem all_outputChar_registerTexts : ∀ r ∈ registerTexts, r.all outputChar = true := by decide

theorem all_outputChar_fragmentTexts : ∀ f ∈ fragmentTexts, f.all outputChar = true := by decide

theorem all_outputChar_terminals :
    "[".toList.all outputChar = true ∧ "]".toList.all outputChar = true ∧ " + ".toList.all outputChar = true ∧
      "mov ".toList.all outputChar = true ∧ ", ".toList.all outputChar = true ∧ header.all outputChar = true ∧
      outputChar newline = true := by decide

theorem all_outputChar_of_isMemory {l : Text} (h : isMemory p l) : l.all outputChar = true := by
  obtain ⟨hopen, hclose, hplus, _⟩ := all_outputChar_terminals
  rcases h with ⟨f, hf, rfl⟩ | ⟨f, hf, n, hn, rfl⟩ | ⟨_, n, hn, rfl⟩
  · simp only [List.all_append, hopen, hclose, all_outputChar_fragmentTexts f hf, Bool.and_self]
  · simp only [List.all_append, hopen, hclose, hplus, all_outputChar_fragmentTexts f hf, all_outputChar_of_isDecimal hn,
      Bool.and_self]
  · simp only [List.all_append, hopen, hclose, all_outputChar_of_isDecimal hn, Bool.and_self]

/-- The grammar's lines are over the alphabet (R16, R107). -/
theorem all_outputChar_of_isLine {l : Text} (h : isLine p l) : (l ++ [newline]).all outputChar = true := by
  obtain ⟨_, _, _, hmov, hcomma, _, hnewline⟩ := all_outputChar_terminals
  obtain ⟨dest, src, rfl, h⟩ := h
  have hboth : dest.all outputChar = true ∧ src.all outputChar = true := by
    rcases h with ⟨hd, hs | hs | hs⟩ | ⟨hd, hs | hs⟩
    · exact ⟨all_outputChar_registerTexts _ hd, all_outputChar_registerTexts _ hs⟩
    · exact ⟨all_outputChar_registerTexts _ hd, all_outputChar_of_isMemory hs⟩
    · exact ⟨all_outputChar_registerTexts _ hd, all_outputChar_of_isDecimal hs⟩
    · exact ⟨all_outputChar_of_isMemory hd, all_outputChar_registerTexts _ hs⟩
    · exact ⟨all_outputChar_of_isMemory hd, all_outputChar_of_isDecimal hs⟩
  simp only [List.all_append, List.all_cons, List.all_nil, hmov, hcomma, hboth, hnewline, Bool.and_self]

end Sys2Proof.Machine
end

section
/-! What a step of a running pass adds to the sink, the log and the records, and how far it moves the cursor
(spec/10_state.md section 2, spec/20_memory.md section 5). -/

namespace Sys2Proof.Machine

variable {s t : State} {p : DirectPolicy}

/-! ### What a transaction adds -/

/-- From `s` to `t` nothing is logged, and text over the alphabet and records are only appended. -/
structure State.Appends (s t : State) : Prop where
  text : ∃ added, t.text = s.text ++ added ∧ added.all outputChar = true
  diag : t.diag = s.diag
  records : s.records <+: t.records

/-- From `s` to `t` nothing is written, logged or presented. -/
structure State.WritesNothing (s t : State) : Prop where
  sink : t.sink = s.sink
  diag : t.diag = s.diag
  records : t.records = s.records

theorem State.WritesNothing.appends (h : s.WritesNothing t) : s.Appends t where
  text := ⟨[], by rw [List.append_nil, State.text, h.sink]; rfl, rfl⟩
  diag := h.diag
  records := h.records ▸ List.prefix_rfl

theorem State.emit_appends {line : Text} (r : InsnRecord) (s : State) (h : isLine p line) :
    s.Appends (s.emit line r) where
  text := ⟨line ++ [newline], by rw [State.emit_text, List.append_assoc], all_outputChar_of_isLine h⟩
  diag := rfl
  records := List.prefix_append _ _

theorem State.header_appends (s : State) : s.Appends ((s.sinkLine header).goto .pB0) where
  text := ⟨header ++ [newline], by rw [State.header_text, List.append_assoc]; rfl, by decide⟩
  diag := rfl
  records := List.prefix_rfl

theorem tickB1_writesNothing (b : Byte) (s : State) : s.WritesNothing (tickB1 b s) := by
  simp only [tickB1]
  repeat' split
  all_goals exact ⟨rfl, rfl, rfl⟩

theorem tickDlo_writesNothing (b : Byte) (s : State) : s.WritesNothing (tickDlo b s) := by
  simp only [tickDlo]
  split
  · exact ⟨rfl, rfl, rfl⟩
  · exact ⟨rfl, rfl, rfl⟩

theorem State.need_writesNothing {f : Byte → State → State} (hf : ∀ b u, State.WritesNothing u (f b u)) (s : State) :
    s.WritesNothing (s.need f) := by
  cases hread : s.stream.read s.pc with
  | none =>
    rw [State.need_none hread]
    exact ⟨rfl, rfl, rfl⟩
  | some b =>
    rw [State.need_some hread]
    exact ⟨(hf b _).sink, (hf b _).diag, (hf b _).records⟩

theorem directFails_direct16 (mod : Mode2) (rm : Sel3) : directFails .direct16 mod rm = false := rfl

theorem tickEmit_appends (h : tickEmit s = .next t) : s.Appends t := by
  unfold tickEmit at h
  cases hc : s.cls with
  | unrec => simp [hc] at h
  | rmReg =>
    simp only [hc, Host.Outcome.next.injEq] at h
    exact h ▸ State.emit_appends _ s (isLine_rmRegLine _ _ _ _ (directFails_direct16 _ _))
  | immReg =>
    simp only [hc, Host.Outcome.next.injEq] at h
    exact h ▸ State.emit_appends (p := .direct16) _ s (isLine_immRegLine _ _ _)
  | immRm =>
    simp only [hc, Host.Outcome.next.injEq] at h
    exact h ▸ State.emit_appends _ s (isLine_immRmLine _ _ _ (directFails_direct16 _ _))

/-- A reading phase other than `P_B0`. -/
theorem State.needTick_appends {f : Byte → State → State} (hf : ∀ b u, State.WritesNothing u (f b u))
    (h : s.needTick f = .next t) : s.Appends t :=
  Host.Outcome.next.inj h ▸ (State.need_writesNothing hf s).appends

/-- A transaction inside a pass and not at an instruction boundary. -/
theorem tick_appends (hw : s.waits = false) (hb0 : s.phase ≠ .pB0) (h : tick s = .next t) : s.Appends t := by
  cases hp : s.phase with
  | pB0 => exact absurd hp hb0
  | pIdle | pOk | pErr => simp [State.waits, hp] at hw
  | pHdr =>
    simp only [tick, hp, Host.Outcome.next.injEq] at h
    exact h ▸ State.header_appends s
  | pB1 =>
    simp only [tick, hp] at h
    exact State.needTick_appends tickB1_writesNothing (next_of_guard h)
  | pDlo =>
    simp only [tick, hp] at h
    exact State.needTick_appends tickDlo_writesNothing (next_of_guard h)
  | pDhi =>
    simp only [tick, hp] at h
    exact State.needTick_appends (f := tickDhi) (fun _ _ => ⟨rfl, rfl, rfl⟩) (next_of_guard h)
  | pIlo =>
    simp only [tick, hp] at h
    exact State.needTick_appends (f := tickIlo) (fun _ _ => ⟨rfl, rfl, rfl⟩) h
  | pIhi =>
    simp only [tick, hp] at h
    exact State.needTick_appends (f := tickIhi) (fun _ _ => ⟨rfl, rfl, rfl⟩) h
  | pEmit =>
    simp only [tick, hp] at h
    exact tickEmit_appends h

/-! ### What a step of a running pass does -/

theorem Iteration.samePass (h : Iteration s t) : s.SamePass t := by
  cases h with
  | finished _ ht => exact ht ▸ s.begin_finish_samePass
  | passed _ _ _ h => exact h.pass
  | failed _ _ hpass => exact hpass

theorem IterationOutcome.pc_bounds (h : IterationOutcome s t) : s.pc ≤ t.pc ∧ t.pc ≤ s.pc + 6 := by
  cases h with
  | finished _ ht => subst ht; simp
  | skipped _ _ _ _ ht => subst ht; simp
  | decoded i _ hdec _ =>
    have h6 := (length_bounds i).2
    have hpc := hdec.1
    omega
  | failed _ n _ hle _ h _ =>
    have hpc := h.1
    omega

/-- Outside an instruction boundary a transaction of a running pass consumes at most one byte. -/
theorem Transaction.of_running (h : Transaction s t) (hb0 : s.phase ≠ .pB0) (hw : s.waits = false) :
    s.SamePass t ∧ s.pc ≤ t.pc ∧ t.pc ≤ s.pc + 1 := by
  cases h with
  | idle hw' _ _ _ | started hw' _ _ _ _ => rw [hw] at hw'; cases hw'
  | wrote _ _ h => exact ⟨h.pass, by simp [h.pc], by simp [h.pc]⟩
  | finished hp _ _ => exact absurd hp hb0
  | exhausted _ _ ht =>
    subst ht
    exact ⟨(State.raise_readsNothing _ s).pass, le_rfl, Nat.le_succ _⟩
  | consumed _ _ _ h =>
    exact ⟨(s.advance_samePass 1).trans h.pass, by simp [h.pc], by simp [h.pc]⟩

theorem step_of_running (hagree : s.agrees) (hs : s.status = .run) (h : step s = .next t) :
    s.SamePass t ∧ s.pc ≤ t.pc ∧ t.pc ≤ s.pc + 6 := by
  by_cases hp : s.phase = .pB0
  · exact ⟨(Iteration.of_step hp h).samePass, (IterationOutcome.of_step hp h).pc_bounds⟩
  · rw [step_eq_tick hp] at h
    obtain ⟨hpass, hle, hle'⟩ := (Transaction.of_tick h).of_running hp (hagree.waits_eq_false hs)
    exact ⟨hpass, hle, by omega⟩

/-- Settles O42: the caller's transaction is guarded by the status, and a step of a running pass stays in its pass. -/
theorem noStartWhileAPassIsRunning : Obligations.NoStartWhileAPassIsRunning := by
  refine ⟨fun s r hs => if_pos hs, fun s t hagree hs h => ?_⟩
  obtain ⟨hpass, hle, _⟩ := step_of_running hagree hs h
  exact ⟨hpass.request, hpass.src, hle⟩

theorem IterationOutcome.appends (h : IterationOutcome s t) :
    s.text <+: t.text ∧ s.diag <+: t.diag ∧ s.records <+: t.records := by
  cases h with
  | finished _ ht => subst ht; exact ⟨List.prefix_rfl, List.prefix_rfl, List.prefix_rfl⟩
  | skipped _ _ _ _ ht => subst ht; simp [State.text]
  | decoded _ _ hdec hrec =>
    obtain ⟨_, _, htext, _, _, _, hdiag⟩ := hdec
    rw [State.Presents] at hrec
    rw [htext, hdiag, hrec, List.append_assoc]
    exact ⟨List.prefix_append _ _, List.prefix_rfl, List.prefix_append _ _⟩
  | failed _ _ _ _ _ h hrec =>
    obtain ⟨_, _, _, _, _, htext, hdiag⟩ := h
    rw [htext, hdiag, hrec]
    exact ⟨List.prefix_rfl, List.prefix_rfl, List.prefix_rfl⟩

/-- Settles O55: by whether the step is an iteration or a transaction. -/
theorem outputIsAppendOnlyAndTheCursorMovesForward : Obligations.OutputIsAppendOnlyAndTheCursorMovesForward := by
  intro s t hagree hs h
  obtain ⟨hpass, hle, hle'⟩ := step_of_running hagree hs h
  have hout : s.text <+: t.text ∧ s.diag <+: t.diag ∧ s.records <+: t.records := by
    by_cases hp : s.phase = .pB0
    · exact (IterationOutcome.of_step hp h).appends
    · obtain ⟨⟨added, htext, _⟩, hdiag, hrec⟩ := tick_appends (hagree.waits_eq_false hs) hp (step_eq_tick hp ▸ h)
      exact ⟨htext ▸ List.prefix_append _ _, hdiag ▸ List.prefix_rfl, hrec⟩
  obtain ⟨htext, hdiag, hrec⟩ := hout
  exact ⟨hle, hle', hpass.src, htext, hdiag, hrec, hpass.unrecPolicy, hpass.modPolicy, hpass.directPolicy⟩

/-- Settles O57: an iteration writes a line of the grammar, a transaction the header or such a line. -/
theorem outputAlphabet : Obligations.OutputAlphabet := by
  intro s t hagree hs h
  by_cases hp : s.phase = .pB0
  · rcases linesFollowTheGrammar s t hp h with htext | ⟨line, hline, htext⟩
    · exact ⟨[], by rw [htext, List.append_nil], rfl⟩
    · exact ⟨line ++ [newline], by rw [htext, List.append_assoc], all_outputChar_of_isLine hline⟩
  · exact (tick_appends (hagree.waits_eq_false hs) hp (step_eq_tick hp ▸ h)).text

/-- Settles O58: of the outcomes of an iteration only the skipped byte logs, and a transaction elsewhere does not. -/
theorem diagnosticsRecordSkippedBytesOnly : Obligations.DiagnosticsRecordSkippedBytesOnly := by
  intro s t hagree hs h hne
  by_cases hp : s.phase = .pB0
  · refine ⟨hp, ?_⟩
    cases IterationOutcome.of_step hp h with
    | finished _ ht => exact absurd (by rw [ht]; rfl) hne
    | skipped b hread hb hpol ht => exact ⟨hpol, b, hread, hb, by simp [ht]⟩
    | decoded _ _ hdec _ =>
      obtain ⟨_, _, _, _, _, _, hdiag⟩ := hdec
      exact absurd hdiag hne
    | failed _ _ _ _ _ h _ =>
      obtain ⟨_, _, _, _, _, _, hdiag⟩ := h
      exact absurd hdiag hne
  · exact absurd (tick_appends (hagree.waits_eq_false hs) hp (step_eq_tick hp ▸ h)).diag hne

end Sys2Proof.Machine
end

section
/-! The per-byte state machine and the engine's loop are one block (spec/41_decode_pass.md R161 to R163): from a reading
phase on, the transactions run the rest of the handler that a step runs at once. -/

namespace Sys2Proof.Machine

variable {s t u x : State} {n k : Nat}

/-! ### Transactions inside an instruction -/

/-- The phases between the first read of an instruction and its end. -/
def innerPhases : List Phase := [.pB1, .pDlo, .pDhi, .pIlo, .pIhi, .pEmit]

/-- `n` transactions lead from the first state to the second, each of them from a phase inside an instruction. -/
inductive LeadsTo : Nat → State → State → Prop where
  | refl (s : State) : LeadsTo 0 s s
  | cons {n : Nat} {s u t : State} (hp : s.phase ∈ innerPhases) (h : tick s = .next u) (ht : LeadsTo n u t) :
      LeadsTo (n + 1) s t

theorem ticks_succ (h : tick s = .next u) (n : Nat) : ticks (n + 1) s = ticks n u := by
  rw [ticks, h]

theorem LeadsTo.ticks_eq (h : LeadsTo n s t) : ticks n s = .next t := by
  induction h with
  | refl s => rfl
  | cons _ h _ ih => exact (ticks_succ h _).trans ih

theorem LeadsTo.inner {m : Nat} (h : LeadsTo n s t) (hm : m < n) :
    ∃ u, ticks m s = .next u ∧ u.phase ∈ innerPhases := by
  induction h generalizing m with
  | refl s => omega
  | cons hp h _ ih =>
    cases m with
    | zero => exact ⟨_, rfl, hp⟩
    | succ m =>
      obtain ⟨v, hv, hin⟩ := ih (Nat.lt_of_succ_lt_succ hm)
      exact ⟨v, (ticks_succ h m).trans hv, hin⟩

/-- From a phase inside an instruction at least one and at most `k` transactions lead to `t`. -/
def State.Reaches (k : Nat) (s t : State) : Prop := ∃ n, 1 ≤ n ∧ n ≤ k ∧ LeadsTo n s t

variable {p : Phase}

theorem State.Reaches.last (hp : p ∈ innerPhases) (h : tick (x.goto p) = .next t) : (x.goto p).Reaches (k + 1) t :=
  ⟨1, le_rfl, Nat.succ_le_succ (Nat.zero_le k), .cons hp h (.refl t)⟩

theorem State.Reaches.more (hp : p ∈ innerPhases) (h : tick (x.goto p) = .next u) (ht : u.Reaches k t) :
    (x.goto p).Reaches (k + 1) t := by
  obtain ⟨n, _, hle, ht⟩ := ht
  exact ⟨n + 1, Nat.succ_le_succ (Nat.zero_le n), Nat.succ_le_succ hle, .cons hp h ht⟩

theorem State.Reaches.mono {j : Nat} (h : s.Reaches j t) (hj : j ≤ k) : s.Reaches k t := by
  obtain ⟨n, hpos, hle, ht⟩ := h
  exact ⟨n, hpos, hle.trans hj, ht⟩

/-! ### The reading phases -/

/-- A transaction that reads, against a read of the handler: both find no byte and raise, or both go on with it. -/
theorem State.Reaches.need {f g : Byte → State → State} (hp : p ∈ innerPhases)
    (htick : tick (x.goto p) = .next ((x.goto p).need f))
    (hread : ∀ b, (f b ((x.goto p).advance 1)).Reaches k (g b (x.advance 1))) :
    (x.goto p).Reaches (k + 1) (x.need g) := by
  have hgoto : (x.goto p).stream.read (x.goto p).pc = x.stream.read x.pc := rfl
  cases h : x.stream.read x.pc with
  | none =>
    rw [State.need_none h]
    rw [State.need_none (hgoto.trans h)] at htick
    exact .last hp htick
  | some b =>
    rw [State.need_some h]
    rw [State.need_some (hgoto.trans h)] at htick
    exact .more hp htick (hread b)

/-- `P_ILO`, `P_IHI` and `P_EMIT` are the reads of the immediate and what follows them. -/
theorem reaches_readImm {w : Bit} {f : State → State} (hw : x.w = w)
    (hf : ∀ j v, tickEmit (((x.advance j).setImm v).goto .pEmit) = .next (f ((x.advance j).setImm v))) :
    (x.goto .pIlo).Reaches 3 (x.readImm w f) := by
  cases w with
  | false =>
    refine (State.Reaches.need (k := 1) (f := tickIlo) (by decide) rfl fun b => ?_).mono (by decide)
    have hilo : tickIlo b ((x.goto .pIlo).advance 1) = ((x.advance 1).setImm (b.setWidth 16)).goto .pEmit := by
      simp only [tickIlo, State.advance_w, State.goto_w, hw]
      rfl
    rw [hilo]
    exact .last (by decide) (hf 1 _)
  | true =>
    refine State.Reaches.need (k := 2) (f := tickIlo) (by decide) rfl fun lo => ?_
    have hilo : tickIlo lo ((x.goto .pIlo).advance 1) = ((x.advance 1).setImm (lo.setWidth 16)).goto .pIhi := by
      simp only [tickIlo, State.advance_w, State.goto_w, hw]
      rfl
    rw [hilo]
    exact State.Reaches.need (k := 1) (f := tickIhi) (by decide) rfl fun hi =>
      .last (p := .pEmit) (by decide) (hf 2 (assemble lo hi))

theorem tick_pDlo (h2 : hasSecondByte x.cls = true) (hd : dispLen x.mod x.rm ≠ 0) :
    tick (x.goto .pDlo) = .next ((x.goto .pDlo).need tickDlo) := if_pos ⟨h2, hd⟩

theorem tick_pDhi (h2 : hasSecondByte x.cls = true) : tick (x.goto .pDhi) = .next ((x.goto .pDhi).need tickDhi) :=
  if_pos h2

/-- `P_DLO` and `P_DHI` are the reads of a displacement. -/
theorem reaches_readDisp {f : State → State} (h2 : hasSecondByte x.cls = true) (hd : dispLen x.mod x.rm ≠ 0)
    (hf : ∀ j v, ((x.advance j).setDisp v).afterDisp.Reaches k (f ((x.advance j).setDisp v))) :
    (x.goto .pDlo).Reaches (k + 2) (x.readDisp (dispLen x.mod x.rm) f) := by
  have hle := dispLen_le x.mod x.rm
  obtain hlen | hlen : dispLen x.mod x.rm = 1 ∨ dispLen x.mod x.rm = 2 := by omega
  · have hdlo (b : Byte) : tickDlo b ((x.goto .pDlo).advance 1) = ((x.advance 1).setDisp (b.setWidth 16)).afterDisp :=
      if_pos hlen
    rw [hlen]
    refine (State.Reaches.need (k := k) (by decide) (tick_pDlo h2 hd) fun b => ?_).mono (Nat.le_succ _)
    rw [hdlo]
    exact hf 1 _
  · have hdlo (b : Byte) : tickDlo b ((x.goto .pDlo).advance 1) = ((x.advance 1).setDisp (b.setWidth 16)).goto .pDhi :=
      if_neg (by rw [State.setDisp_mod, State.setDisp_rm]; exact hlen ▸ by decide)
    rw [hlen]
    refine State.Reaches.need (k := k + 1) (by decide) (tick_pDlo h2 hd) fun lo => ?_
    rw [hdlo]
    exact State.Reaches.need (k := k) (by decide) (tick_pDhi h2) fun hi => hf 2 (assemble lo hi)

/-- `P_B1` once the byte is read and its mode is taken: the check of the special case, then the displacement. -/
theorem reaches_resolveRm {f : State → State} (hp : p ∈ innerPhases)
    (htick : tick (s.goto p) = .next (if directFails x.directPolicy x.mod x.rm then x.raise .directAddressUnimplemented
      else if dispLen x.mod x.rm = 0 then (x.setDisp 0#16).afterDisp else x.goto .pDlo))
    (h2 : hasSecondByte x.cls = true)
    (hf : ∀ j v, ((x.advance j).setDisp v).afterDisp.Reaches k (f ((x.advance j).setDisp v))) :
    (s.goto p).Reaches (k + 3) (x.resolveRm x.mod x.rm f) := by
  unfold State.resolveRm
  by_cases hfails : directFails x.directPolicy x.mod x.rm = true
  · rw [if_pos hfails] at htick ⊢
    exact .last hp htick
  · rw [if_neg hfails] at htick ⊢
    by_cases hd : dispLen x.mod x.rm = 0
    · rw [if_pos hd] at htick
      rw [hd]
      exact (State.Reaches.more hp htick (hf 0 0#16)).mono (by omega)
    · rw [if_neg hd] at htick
      exact .more hp htick (reaches_readDisp h2 hd hf)

/-! ### `P_B1` by the class -/

theorem tick_pB1 {b : Byte} (h2 : hasSecondByte x.cls = true) (hread : x.stream.read x.pc = some b) :
    tick (x.goto .pB1) = .next (tickB1 b ((x.goto .pB1).advance 1)) := by
  have h : tick (x.goto .pB1) = .next ((x.goto .pB1).need tickB1) := if_pos h2
  rw [h, State.need_some (s := x.goto .pB1) hread]

theorem tickB1_goto (b : Byte) (p : Phase) (x : State) : tickB1 b ((x.goto p).advance 1) =
    if x.cls = .rmReg ∧ modeRejected x.modPolicy (modField b) then (x.takeB1 b).raise .malformedSecondByte
    else if directFails (x.takeB1 b).directPolicy (x.takeB1 b).mod (x.takeB1 b).rm then
      (x.takeB1 b).raise .directAddressUnimplemented
    else if dispLen (x.takeB1 b).mod (x.takeB1 b).rm = 0 then ((x.takeB1 b).setDisp 0#16).afterDisp
    else (x.takeB1 b).goto .pDlo := rfl

theorem tickEmit_rmReg (h : s.cls = .rmReg) : tickEmit s = .next (s.emit (rmRegLine s.d s.w s.mod s.reg s.rm s.disp)
    (rmRegRecord s.d s.w s.mod s.reg s.rm s.disp (s.pc - s.insnStart))) := by
  rw [tickEmit, h]

theorem tickEmit_immReg (h : s.cls = .immReg) : tickEmit s = .next (s.emit (immRegLine s.w s.reg s.imm)
    (immRegRecord s.w s.reg s.imm (s.pc - s.insnStart))) := by
  rw [tickEmit, h]

theorem tickEmit_immRm (h : s.cls = .immRm) : tickEmit s = .next (s.emit (immRmLine s.w s.mod s.rm s.disp s.imm)
    (immRmRecord s.w s.mod s.rm s.disp s.imm (s.pc - s.insnStart))) := by
  rw [tickEmit, h]

theorem afterDisp_rmReg (h : s.cls = .rmReg) : s.afterDisp = s.goto .pEmit := by rw [State.afterDisp, h]
theorem afterDisp_immRm (h : s.cls = .immRm) : s.afterDisp = s.goto .pIlo := by rw [State.afterDisp, h]

/-- Class `RM_REG` from its second byte on. -/
theorem reaches_rmReg {b : Byte} (hc : x.cls = .rmReg) (hread : x.stream.read x.pc = some b) :
    (x.goto .pB1).Reaches 6 (handleRmReg x.d x.w (modField b) (midField b) (lowField b) (x.takeB1 b)) := by
  have htick := tick_pB1 (by rw [hc]; rfl) hread
  rw [tickB1_goto] at htick
  unfold handleRmReg
  rw [State.takeB1_modPolicy]
  by_cases hm : modeRejected x.modPolicy (modField b) = true
  · rw [if_pos ⟨hc, hm⟩] at htick
    rw [if_pos hm]
    exact .last (by decide) htick
  · rw [if_neg fun h => hm h.2] at htick
    rw [if_neg hm]
    refine (reaches_resolveRm (k := 1) (x := x.takeB1 b) (by decide) htick (by simp [hc, hasSecondByte])
      fun j v => ?_).mono (by decide)
    rw [afterDisp_rmReg (by simpa using hc)]
    exact .last (by decide) (tickEmit_rmReg hc)

/-- Class `IMM_RM` from its second byte on. -/
theorem reaches_immRm {b : Byte} (hc : x.cls = .immRm) (hread : x.stream.read x.pc = some b) :
    (x.goto .pB1).Reaches 6 (handleImmRm x.w (modField b) (lowField b) (x.takeB1 b)) := by
  have htick := tick_pB1 (by rw [hc]; rfl) hread
  rw [tickB1_goto, if_neg fun h => by rw [hc] at h; cases h.1] at htick
  refine reaches_resolveRm (k := 3) (x := x.takeB1 b) (by decide) htick (by simp [hc, hasSecondByte]) fun j v => ?_
  rw [afterDisp_immRm (by simpa using hc)]
  exact reaches_readImm rfl fun _ _ => tickEmit_immRm hc

/-- Class `IMM_REG` from its immediate on. -/
theorem reaches_immReg (hc : x.cls = .immReg) : (x.goto .pIlo).Reaches 6 (handleImmReg x.w x.reg x) := by
  refine State.Reaches.mono (j := 3) ?_ (by decide)
  exact reaches_readImm rfl fun _ _ => tickEmit_immReg hc

/-- The stream ends behind the leading byte of a class that has a second one. -/
theorem reaches_truncated (h2 : hasSecondByte x.cls = true) (hend : x.stream.read x.pc = none) :
    (x.goto .pB1).Reaches 6 (x.raise .endOfInputMidInstruction) := by
  have h : tick (x.goto .pB1) = .next ((x.goto .pB1).need tickB1) := if_pos h2
  rw [State.need_none (s := x.goto .pB1) hend] at h
  exact .last (by decide) h

/-! ### `P_B0` -/

theorem State.latchB0_advance (b : Byte) (n : Nat) (s : State) : (s.advance n).latchB0 b = (s.latchB0 b).advance n := by
  unfold State.latchB0
  cases classOf b <;> rfl

theorem tickB0_some {b : Byte} (h : s.stream.read s.pc = some b) : tickB0 s =
    match (s.begin.takeB0 b).cls with
    | .rmReg | .immRm => (s.begin.takeB0 b).goto .pB1
    | .immReg => (s.begin.takeB0 b).goto .pIlo
    | .unrec => (s.begin.takeB0 b).unrecognised b := by
  simp only [tickB0, State.next_some (s := s.begin) h, State.latchB0_advance]
  rfl

/-- The first transaction, against the step from the same state. -/
theorem refines_of_reaches (h : tick s = .next u) (ht : u.Reaches 6 t) (hstep : step s = .next t) :
    ∃ n, 1 ≤ n ∧ n ≤ 7 ∧ ticks n s = step s ∧
      ∀ m, 1 ≤ m → m < n → ∃ v, ticks m s = .next v ∧ v.phase ∈ innerPhases := by
  obtain ⟨n, _, hle, ht⟩ := ht
  refine ⟨n + 1, by omega, by omega, ?_, fun m hpos hlt => ?_⟩
  · rw [ticks_succ h, ht.ticks_eq, hstep]
  · obtain ⟨m, rfl⟩ : ∃ j, m = j + 1 := ⟨m - 1, by omega⟩
    obtain ⟨v, hv, hin⟩ := ht.inner (Nat.lt_of_succ_lt_succ hlt)
    exact ⟨v, (ticks_succ h m).trans hv, hin⟩

/-- A step that is one transaction. -/
theorem refines_of_tick_eq (h : tick s = step s) : ∃ n, 1 ≤ n ∧ n ≤ 7 ∧ ticks n s = step s ∧
    ∀ m, 1 ≤ m → m < n → ∃ v, ticks m s = .next v ∧ v.phase ∈ innerPhases := by
  refine ⟨1, le_rfl, by decide, ?_, fun m _ _ => by omega⟩
  rw [← h, ticks]
  cases tick s <;> rfl

end Sys2Proof.Machine
end

section
/-! A step from an instruction boundary and the transactions from there on (spec/41_decode_pass.md R163). -/

namespace Sys2Proof.Machine

variable {s : State} {b b0 b1 : Byte}

/-! ### A step as the handler's run -/

theorem exec_rmRegRow (d w : Bit) (mod : Mode2) (reg rm : Sel3) (s : State) : exec (rmRegRow d w mod reg rm) s =
    .next (handleRmReg d w mod reg rm (s.openInsn (rmRegRow d w mod reg rm))) := by
  rcases Mode2.cases mod with rfl | rfl | rfl | rfl
  · by_cases hrm : rm = Sel3.direct
    · rw [hrm]
      rfl
    · rw [rmRegRow_m0 d w reg hrm]
      rfl
  all_goals rfl

theorem exec_immRmRow (w : Bit) (mod : Mode2) (x rm : Sel3) (s : State) : exec (immRmRow w mod x rm) s =
    .next (handleImmRm w mod rm (s.openInsn (immRmRow w mod x rm))) := by
  rcases Mode2.cases mod with rfl | rfl | rfl | rfl
  · by_cases hrm : rm = Sel3.direct
    · rw [hrm]
      cases w <;> rfl
    · rw [immRmRow_m0 w x hrm]
      cases w <;> rfl
  all_goals cases w <;> rfl

theorem exec_immRegRow (w : Bit) (reg : Sel3) (s : State) :
    exec (immRegRow w reg) s = .next (handleImmReg w reg (s.openInsn (immRegRow w reg))) := by
  cases w <;> rfl

theorem State.openInsn_two {i : Instr} (h : encode i = [b0, b1]) (s : State) :
    s.openInsn i = (s.begin.takeB0 b0).takeB1 b1 := by
  unfold State.openInsn
  rw [h]

theorem State.openInsn_one {i : Instr} (h : encode i = [b0]) (s : State) : s.openInsn i = s.begin.takeB0 b0 := by
  unfold State.openInsn
  rw [h]

theorem State.takeB0_w_rmReg (hc : classOf b = .rmReg) (s : State) : (s.takeB0 b).w = sizeBit b := by
  rw [State.takeB0_rmReg s hc]
theorem State.takeB0_d_rmReg (hc : classOf b = .rmReg) (s : State) : (s.takeB0 b).d = directionBit b := by
  rw [State.takeB0_rmReg s hc]
theorem State.takeB0_w_immRm (hc : classOf b = .immRm) (s : State) : (s.takeB0 b).w = sizeBit b := by
  rw [State.takeB0_immRm s hc]
theorem State.takeB0_w_immReg (hc : classOf b = .immReg) (s : State) : (s.takeB0 b).w = immSizeBit b := by
  rw [State.takeB0_immReg s hc]
theorem State.takeB0_reg_immReg (hc : classOf b = .immReg) (s : State) : (s.takeB0 b).reg = lowField b := by
  rw [State.takeB0_immReg s hc]

/-- Class `RM_REG`: both opcode bytes are consumed and latched, and the handler runs on the latches. -/
theorem step_handleRmReg (hp : s.phase = .pB0) (h0 : s.stream.read s.pc = some b0)
    (h1 : s.stream.read (s.pc + 1) = some b1) (hc : classOf b0 = .rmReg) :
    step s = .next (handleRmReg (s.begin.takeB0 b0).d (s.begin.takeB0 b0).w (modField b1) (midField b1) (lowField b1)
      ((s.begin.takeB0 b0).takeB1 b1)) := by
  have he := encode_rmRegRow (directionBit b0) (sizeBit b0) (modField b1) (midField b1) (lowField b1)
  rw [rmRegLead_of_class b0 hc, secondByte_of_fields] at he
  rw [step_rmReg hp h0 h1 hc, exec_rmRegRow, State.openInsn_two he, State.takeB0_d_rmReg hc, State.takeB0_w_rmReg hc]

theorem step_handleImmRm (hp : s.phase = .pB0) (h0 : s.stream.read s.pc = some b0)
    (h1 : s.stream.read (s.pc + 1) = some b1) (hc : classOf b0 = .immRm) :
    step s = .next (handleImmRm (s.begin.takeB0 b0).w (modField b1) (lowField b1)
      ((s.begin.takeB0 b0).takeB1 b1)) := by
  have he := encode_immRmRow (sizeBit b0) (modField b1) (midField b1) (lowField b1)
  rw [immRmLead_of_class b0 hc, secondByte_of_fields] at he
  rw [step_immRm hp h0 h1 hc, exec_immRmRow, State.openInsn_two he, State.takeB0_w_immRm hc]

/-- Class `IMM_REG`, with its one opcode byte. -/
theorem step_handleImmReg (hp : s.phase = .pB0) (h0 : s.stream.read s.pc = some b) (hc : classOf b = .immReg) :
    step s = .next (handleImmReg (s.begin.takeB0 b).w (s.begin.takeB0 b).reg (s.begin.takeB0 b)) := by
  have he := encode_immRegRow (immSizeBit b) (lowField b)
  rw [immRegLead_of_class b hc] at he
  have hdec : decode (s.stream.window s.pc 2) =
      .insn (immRegRow (immSizeBit b) (lowField b)) (s.stream.window (s.pc + 1) 1) := by
    rw [Memory.window_cons.2 ⟨h0, rfl⟩]
    simp [decode, hc]
  rw [step_insn hp hdec, exec_immRegRow, State.openInsn_one he, State.takeB0_w_immReg hc, State.takeB0_reg_immReg hc]

/-! ### The first transaction -/

theorem tick_pB0 (hp : s.phase = .pB0) : tick s = .next (tickB0 s) := by rw [tick, hp]

theorem tick_finished (hp : s.phase = .pB0) (hend : s.stream.read s.pc = none) : tick s = .next s.begin.finish := by
  rw [tick_pB0 hp, tickB0, State.next_none (s := s.begin) hend]

theorem tick_second (hp : s.phase = .pB0) (h0 : s.stream.read s.pc = some b) (h2 : hasSecondByte (classOf b) = true) :
    tick s = .next ((s.begin.takeB0 b).goto .pB1) := by
  rw [tick_pB0 hp, tickB0_some h0, State.takeB0_cls]
  cases hc : classOf b with
  | rmReg | immRm => rfl
  | immReg | unrec => simp [hc, hasSecondByte] at h2

theorem tick_immReg (hp : s.phase = .pB0) (h0 : s.stream.read s.pc = some b) (hc : classOf b = .immReg) :
    tick s = .next ((s.begin.takeB0 b).goto .pIlo) := by
  rw [tick_pB0 hp, tickB0_some h0, State.takeB0_cls, hc]

theorem tick_unrecognised (hp : s.phase = .pB0) (h0 : s.stream.read s.pc = some b) (hc : classOf b = .unrec) :
    tick s = .next ((s.begin.takeB0 b).unrecognised b) := by
  rw [tick_pB0 hp, tickB0_some h0, State.takeB0_cls, hc]

theorem read_behind_b0 (b : Byte) (s : State) :
    (s.begin.takeB0 b).stream.read (s.begin.takeB0 b).pc = s.stream.read (s.pc + 1) := by simp

/-- The stream ends behind the leading byte. -/
theorem refines_of_cut (hp : s.phase = .pB0) (h0 : s.stream.read s.pc = some b)
    (h2 : hasSecondByte (classOf b) = true) (h1 : s.stream.read (s.pc + 1) = none) :
    ∃ n, 1 ≤ n ∧ n ≤ 7 ∧ ticks n s = step s ∧
      ∀ m, 1 ≤ m → m < n → ∃ v, ticks m s = .next v ∧ v.phase ∈ innerPhases :=
  refines_of_reaches (tick_second hp h0 h2) (reaches_truncated (by simpa using h2) ((read_behind_b0 b s).trans h1))
    (step_truncated hp h0 h2 h1)

/-- Settles O47: by the class of the leading byte; the end of the stream and an unrecognised byte take one transaction,
and in every other case the rest of the handler is reached from the first reading phase. -/
theorem stateMachineRefinesTheLoop : Obligations.StateMachineRefinesTheLoop := by
  intro s hp
  cases h0 : s.stream.read s.pc with
  | none => exact refines_of_tick_eq ((tick_finished hp h0).trans (step_exhausted hp h0).symm)
  | some b =>
    cases hc : classOf b with
    | unrec => exact refines_of_tick_eq ((tick_unrecognised hp h0 hc).trans (step_unrecognised hp h0 hc).symm)
    | immReg =>
      exact refines_of_reaches (tick_immReg hp h0 hc) (reaches_immReg (by simp [hc])) (step_handleImmReg hp h0 hc)
    | rmReg =>
      have h2 : hasSecondByte (classOf b) = true := by rw [hc]; rfl
      cases h1 : s.stream.read (s.pc + 1) with
      | none => exact refines_of_cut hp h0 h2 h1
      | some b1 =>
        exact refines_of_reaches (tick_second hp h0 h2) (reaches_rmReg (by simp [hc]) ((read_behind_b0 b s).trans h1))
          (step_handleRmReg hp h0 h1 hc)
    | immRm =>
      have h2 : hasSecondByte (classOf b) = true := by rw [hc]; rfl
      cases h1 : s.stream.read (s.pc + 1) with
      | none => exact refines_of_cut hp h0 h2 h1
      | some b1 =>
        exact refines_of_reaches (tick_second hp h0 h2) (reaches_immRm (by simp [hc]) ((read_behind_b0 b s).trans h1))
          (step_handleImmRm hp h0 h1 hc)

end Sys2Proof.Machine
end

section
/-! The invariant (spec/10_state.md R31 to R37, R51; spec/60_exceptions.md R239): every transaction keeps it, so every
step does, and a state that meets it never stops the block. -/

namespace Sys2Proof.Machine

variable {s t x : State} {b : Byte} {k : ErrorKind} {p : Phase}

/-! ### What holds while a pass runs -/

/-- The clauses of the invariant that do not speak of the phase, while a pass runs. -/
structure State.Running (s : State) : Prop where
  wf : s.stream.wf = true
  pc_le : s.pc ≤ s.len
  src : s.src.isSome = true
  sink : s.sink.isSome = true
  status : s.status = .run
  result : s.result = none

theorem agrees_of_not_waits (hw : s.waits = false) : s.agrees ↔ s.status = .run ∧ s.result = none := by
  unfold State.agrees
  cases hp : s.phase with
  | pIdle | pOk | pErr => simp [State.waits, hp] at hw
  | _ => rfl

theorem State.Inv.running (h : s.Inv) (hw : s.waits = false) : s.Running := by
  obtain ⟨hwf, hpc, hatt, hagree, _⟩ := h
  obtain ⟨hstatus, hresult⟩ := (agrees_of_not_waits hw).1 hagree
  rcases hatt with hp | ⟨hsrc, hsink⟩
  · simp [State.waits, hp] at hw
  · exact ⟨hwf, hpc, hsrc, hsink, hstatus, hresult⟩

theorem State.Running.inv (h : s.Running) (hw : s.waits = false) (hfits : s.fits) : s.Inv :=
  ⟨h.wf, h.pc_le, .inr ⟨h.src, h.sink⟩, (agrees_of_not_waits hw).2 ⟨h.status, h.result⟩, hfits⟩

/-- What leaves stream, cursor, status and result, and keeps a sink attached. -/
theorem State.Running.of_eq (h : s.Running) (hsrc : t.src = s.src) (hpc : t.pc = s.pc) (hsink : t.sink.isSome = true)
    (hstatus : t.status = s.status) (hresult : t.result = s.result) : t.Running := by
  have hstream : t.stream = s.stream := congrArg (·.getD []) hsrc
  have hlen : t.len = s.len := congrArg Memory.len hstream
  exact ⟨hstream ▸ h.wf, hpc ▸ hlen ▸ h.pc_le, hsrc ▸ h.src, hsink, hstatus.trans h.status, hresult.trans h.result⟩

theorem State.Running.advance (h : s.Running) (hread : s.stream.read s.pc = some b) : (s.advance 1).Running := by
  have hlt : s.pc < s.len := (Memory.read_isSome h.wf s.pc).1 (by rw [hread]; rfl)
  exact ⟨h.wf, hlt, h.src, h.sink, h.status, h.result⟩

theorem State.Running.takeB0 (h : s.Running) (hread : s.stream.read s.pc = some b) : (s.begin.takeB0 b).Running :=
  (h.advance hread).of_eq (by simp) (by simp) (by simpa using h.sink) (by simp) (by simp)

/-! ### The ends of a transaction -/

theorem State.Running.raise_inv (h : x.Running) (hk : k ≠ .endOfInputAtBoundary) (hlo : x.insnStart + 1 ≤ x.pc)
    (hhi : x.pc ≤ x.insnStart + 5) : (x.raise k).Inv :=
  ⟨h.wf, h.pc_le, .inr ⟨h.src, h.sink⟩, ⟨rfl, ⟨k, hk, rfl⟩, hlo, hhi⟩, trivial⟩

theorem State.Running.goto_inv (h : x.Running) (hw : (x.goto p).waits = false) (hfits : (x.goto p).fits) :
    (x.goto p).Inv :=
  State.Running.inv (h.of_eq rfl rfl h.sink rfl rfl) hw hfits

theorem State.Running.emit_inv (h : x.Running) (l : Text) (r : InsnRecord) : (x.emit l r).Inv :=
  State.Running.inv (h.of_eq rfl rfl rfl rfl rfl) rfl trivial

/-- A read inside an instruction, of which 1 to 5 bytes have been read. -/
theorem State.Running.need_inv {f : Byte → State → State} (h : s.Running) (hlo : s.insnStart + 1 ≤ s.pc)
    (hhi : s.pc ≤ s.insnStart + 5) (hf : ∀ b, (s.advance 1).Running → (f b (s.advance 1)).Inv) : (s.need f).Inv := by
  cases hread : s.stream.read s.pc with
  | none =>
    rw [State.need_none hread]
    exact h.raise_inv (by decide) hlo hhi
  | some b =>
    rw [State.need_some hread]
    exact hf b (h.advance hread)

/-- Behind the displacement of a class with a second byte. -/
theorem State.Running.afterDisp_inv (h : x.Running) (h2 : hasSecondByte x.cls = true)
    (hpc : x.pc = x.insnStart + 2 + dispLen x.mod x.rm) : x.afterDisp.Inv := by
  cases hc : x.cls with
  | immReg | unrec => simp [hc, hasSecondByte] at h2
  | rmReg =>
    rw [afterDisp_rmReg hc]
    exact h.goto_inv rfl (by simp [State.fits, hc])
  | immRm =>
    rw [afterDisp_immRm hc]
    exact h.goto_inv rfl (by simp [State.fits, State.latchedOpcode, State.latchedDisp, hc, hasSecondByte, hpc])

/-! ### Once the byte is read -/

theorem tickB1_inv (h : x.Running) (h2 : hasSecondByte x.cls = true) (hpc : x.pc = x.insnStart + 2) :
    (tickB1 b x).Inv := by
  have hlatch : (x.latchB1 b).Running := h.of_eq rfl rfl h.sink rfl rfl
  have hlo : x.insnStart + 1 ≤ x.pc := by omega
  have hhi : x.pc ≤ x.insnStart + 5 := by omega
  simp only [tickB1]
  split
  · exact hlatch.raise_inv (by decide) hlo hhi
  · split
    · exact hlatch.raise_inv (by decide) hlo hhi
    · split
      · rename_i hd
        refine State.Running.afterDisp_inv (hlatch.of_eq rfl rfl hlatch.sink rfl rfl) h2 ?_
        rw [State.setDisp_mod, State.setDisp_rm, hd]
        exact hpc
      · rename_i hd
        exact hlatch.goto_inv rfl ⟨h2, (if_pos h2).trans_ne hd, hpc⟩

theorem tickDlo_inv (h : x.Running) (h2 : hasSecondByte x.cls = true) (hd : dispLen x.mod x.rm ≠ 0)
    (hpc : x.pc = x.insnStart + 3) : (tickDlo b x).Inv := by
  have hlatch : (x.setDisp (b.setWidth 16)).Running := h.of_eq rfl rfl h.sink rfl rfl
  have hle := dispLen_le x.mod x.rm
  simp only [tickDlo]
  split
  · rename_i h1
    refine hlatch.afterDisp_inv h2 ?_
    rw [h1]
    exact hpc
  · rename_i h1
    rw [State.setDisp_mod, State.setDisp_rm] at h1
    have h22 : dispLen x.mod x.rm = 2 := by omega
    exact hlatch.goto_inv rfl ⟨h2, (if_pos h2).trans h22, hpc⟩

theorem tickDhi_inv (h : x.Running) (h2 : hasSecondByte x.cls = true) (hd : dispLen x.mod x.rm = 2)
    (hpc : x.pc = x.insnStart + 4) : (tickDhi b x).Inv := by
  refine State.Running.afterDisp_inv (h.of_eq rfl rfl h.sink rfl rfl) h2 ?_
  rw [State.setDisp_mod, State.setDisp_rm, hd]
  exact hpc

theorem ne_unrec_of_imm (hc : x.cls = .immReg ∨ x.cls = .immRm) : x.cls ≠ .unrec := by
  rcases hc with h | h <;> simp [h]

theorem tickIlo_inv (h : x.Running) (hc : x.cls = .immReg ∨ x.cls = .immRm)
    (hpc : x.pc = x.insnStart + x.latchedOpcode + x.latchedDisp + 1) : (tickIlo b x).Inv := by
  have hlatch : (x.setImm (b.setWidth 16)).Running := h.of_eq rfl rfl h.sink rfl rfl
  unfold tickIlo
  cases hw : x.w with
  | false => exact hlatch.goto_inv rfl (ne_unrec_of_imm hc)
  | true => exact hlatch.goto_inv rfl ⟨hc, hw, hpc⟩

theorem tickIhi_inv (h : x.Running) (hc : x.cls = .immReg ∨ x.cls = .immRm) : (tickIhi b x).Inv :=
  State.Running.goto_inv (h.of_eq rfl rfl h.sink rfl rfl) rfl (ne_unrec_of_imm hc)

theorem tickEmit_inv (h : s.Running) (ht : tickEmit s = .next t) : t.Inv := by
  unfold tickEmit at ht
  cases hc : s.cls with
  | unrec => simp [hc] at ht
  | rmReg | immReg | immRm =>
    simp only [hc, Host.Outcome.next.injEq] at ht
    exact ht ▸ h.emit_inv _ _

/-! ### One transaction -/

theorem State.Running.finish_inv (h : s.Running) (hend : s.stream.read s.pc = none) : s.begin.finish.Inv := by
  have hin : s.InStream := ⟨h.wf, h.pc_le⟩
  exact ⟨h.wf, h.pc_le, .inr ⟨h.src, h.sink⟩, ⟨rfl, rfl, hin.read_eq_none.1 hend⟩, trivial⟩

theorem State.startPass_inv (r : PassRequest) (s : State) : (s.startPass r).Inv :=
  ⟨Memory.wf_ofBytes r.stream, Nat.zero_le _, .inr ⟨rfl, rfl⟩, ⟨rfl, rfl⟩, trivial⟩

/-- The byte is skipped or the pass aborts. -/
theorem State.Running.unrecognised_inv (h : x.Running) (hpc : x.pc = x.insnStart + 1) : (x.unrecognised b).Inv := by
  cases hpol : x.unrecPolicy with
  | lenient =>
    rw [State.unrecognised_lenient b hpol]
    exact State.Running.goto_inv (h.of_eq rfl rfl h.sink rfl rfl) rfl trivial
  | strict =>
    rw [State.unrecognised_strict b hpol]
    exact h.raise_inv (by decide) hpc.ge (by omega)

theorem tickB0_inv (hp : s.phase = .pB0) (h : s.Running) (ht : tick s = .next t) : t.Inv := by
  cases h0 : s.stream.read s.pc with
  | none => exact Host.Outcome.next.inj ((tick_finished hp h0).symm.trans ht) ▸ h.finish_inv h0
  | some b =>
    have htake := h.takeB0 h0
    have hpc : (s.begin.takeB0 b).pc = (s.begin.takeB0 b).insnStart + 1 := by simp
    cases hc : classOf b with
    | unrec => exact Host.Outcome.next.inj ((tick_unrecognised hp h0 hc).symm.trans ht) ▸ htake.unrecognised_inv hpc
    | immReg =>
      rw [← Host.Outcome.next.inj ((tick_immReg hp h0 hc).symm.trans ht)]
      exact htake.goto_inv rfl (by simp [State.fits, State.latchedOpcode, State.latchedDisp, hc, hasSecondByte])
    | rmReg | immRm =>
      have h2 : hasSecondByte (classOf b) = true := by rw [hc]; rfl
      rw [← Host.Outcome.next.inj ((tick_second hp h0 h2).symm.trans ht)]
      exact htake.goto_inv rfl (by simp [State.fits, hc, hasSecondByte])

theorem latchedOpcode_bounds (s : State) : 1 ≤ s.latchedOpcode ∧ s.latchedOpcode ≤ 2 := by
  unfold State.latchedOpcode
  split <;> decide

theorem latchedDisp_le (s : State) : s.latchedDisp ≤ 2 := by
  unfold State.latchedDisp
  split
  · exact dispLen_le _ _
  · decide

theorem latchedDisp_of_second (h2 : hasSecondByte s.cls = true) : s.latchedDisp = dispLen s.mod s.rm := if_pos h2

theorem tick_waits_inv (hs : s.Inv) (hw : s.waits = true) (ht : tick s = .next t) : t.Inv := by
  cases hreq : s.request with
  | none => exact Host.Outcome.next.inj ((tick_idle hw hreq).symm.trans ht) ▸ hs
  | some r => exact Host.Outcome.next.inj ((tick_started hw hreq).symm.trans ht) ▸ State.startPass_inv r s

/-- By the phase: the clause that fits it says what is latched and how many bytes have been read. -/
theorem tick_inv (hs : s.Inv) (ht : tick s = .next t) : t.Inv := by
  have hrun := hs.running
  obtain ⟨_, _, _, _, hfits⟩ := id hs
  have hop := latchedOpcode_bounds s
  have hdisp := latchedDisp_le s
  cases hp : s.phase with
  | pIdle | pOk | pErr => exact tick_waits_inv hs (by simp [State.waits, hp]) ht
  | pHdr =>
    have h := hrun (by simp [State.waits, hp])
    simp only [tick, hp, Host.Outcome.next.injEq] at ht
    exact ht ▸ State.Running.goto_inv (h.of_eq rfl rfl rfl rfl rfl) rfl trivial
  | pB0 => exact tickB0_inv hp (hrun (by simp [State.waits, hp])) ht
  | pB1 =>
    have h := hrun (by simp [State.waits, hp])
    rw [State.fits, hp] at hfits
    obtain ⟨h2, hpc⟩ := hfits
    simp only [tick, hp] at ht
    rw [← Host.Outcome.next.inj (next_of_guard ht)]
    exact h.need_inv (by omega) (by omega) fun b hadv => tickB1_inv hadv h2 (congrArg (· + 1) hpc)
  | pDlo =>
    have h := hrun (by simp [State.waits, hp])
    rw [State.fits, hp] at hfits
    obtain ⟨h2, hd, hpc⟩ := hfits
    rw [latchedDisp_of_second h2] at hd
    simp only [tick, hp] at ht
    rw [← Host.Outcome.next.inj (next_of_guard ht)]
    exact h.need_inv (by omega) (by omega) fun b hadv => tickDlo_inv hadv h2 hd (congrArg (· + 1) hpc)
  | pDhi =>
    have h := hrun (by simp [State.waits, hp])
    rw [State.fits, hp] at hfits
    obtain ⟨h2, hd, hpc⟩ := hfits
    rw [latchedDisp_of_second h2] at hd
    simp only [tick, hp] at ht
    rw [← Host.Outcome.next.inj (next_of_guard ht)]
    exact h.need_inv (by omega) (by omega) fun b hadv => tickDhi_inv hadv h2 hd (congrArg (· + 1) hpc)
  | pIlo =>
    have h := hrun (by simp [State.waits, hp])
    rw [State.fits, hp] at hfits
    obtain ⟨hc, hpc⟩ := hfits
    simp only [tick, hp] at ht
    rw [← Host.Outcome.next.inj ht]
    exact h.need_inv (by omega) (by omega) fun b hadv => tickIlo_inv hadv hc (congrArg (· + 1) hpc)
  | pIhi =>
    have h := hrun (by simp [State.waits, hp])
    rw [State.fits, hp] at hfits
    obtain ⟨hc, _, hpc⟩ := hfits
    simp only [tick, hp] at ht
    rw [← Host.Outcome.next.inj ht]
    exact h.need_inv (by omega) (by omega) fun b hadv => tickIhi_inv hadv hc
  | pEmit =>
    simp only [tick, hp] at ht
    exact tickEmit_inv (hrun (by simp [State.waits, hp])) ht

/-- Settles O50: by the phase. -/
theorem transactionKeepsTheInvariant : Obligations.TransactionKeepsTheInvariant := fun _ _ => tick_inv

/-! ### Steps -/

theorem ticks_inv {n : Nat} (hs : s.Inv) (ht : ticks n s = .next t) : t.Inv := by
  induction n generalizing s with
  | zero => exact Host.Outcome.next.inj ht ▸ hs
  | succ n ih =>
    cases h : tick s with
    | next u => exact ih (tick_inv hs h) ((ticks_succ h n).symm.trans ht)
    | fault f => rw [ticks, h] at ht; cases ht
    | refused r => rw [ticks, h] at ht; cases ht

/-- Settles O49: a step is some transactions, each of which keeps the invariant. -/
theorem stepKeepsTheInvariant : Obligations.StepKeepsTheInvariant := by
  intro s t hs h
  by_cases hp : s.phase = .pB0
  · obtain ⟨n, _, _, hticks, _⟩ := stateMachineRefinesTheLoop s hp
    exact ticks_inv hs (hticks.trans h)
  · exact tick_inv hs (step_eq_tick hp ▸ h)

/-- Where the latches fit the phase the transition table has a row (R162). -/
theorem tick_total (hfits : s.fits) : ∃ t, tick s = .next t := by
  cases hp : s.phase with
  | pIdle | pOk | pErr =>
    cases hreq : s.request with
    | none => exact ⟨_, tick_idle (by simp [State.waits, hp]) hreq⟩
    | some r => exact ⟨_, tick_started (by simp [State.waits, hp]) hreq⟩
  | pHdr | pB0 => exact ⟨_, by rw [tick, hp]⟩
  | pIlo | pIhi => exact ⟨_, by rw [tick, hp]; rfl⟩
  | pB1 =>
    rw [State.fits, hp] at hfits
    exact ⟨_, by rw [tick, hp]; exact if_pos hfits.1⟩
  | pDlo =>
    rw [State.fits, hp] at hfits
    obtain ⟨h2, hd, _⟩ := hfits
    exact ⟨_, by rw [tick, hp]; exact if_pos ⟨h2, latchedDisp_of_second h2 ▸ hd⟩⟩
  | pDhi =>
    rw [State.fits, hp] at hfits
    exact ⟨_, by rw [tick, hp]; exact if_pos hfits.1⟩
  | pEmit =>
    rw [State.fits, hp] at hfits
    rw [tick, hp]
    cases hc : s.cls with
    | unrec => exact absurd hc hfits
    | rmReg => exact ⟨_, tickEmit_rmReg hc⟩
    | immReg => exact ⟨_, tickEmit_immReg hc⟩
    | immRm => exact ⟨_, tickEmit_immRm hc⟩

/-- Settles O51: an iteration always answers, and a transaction does where the latches fit the phase. -/
theorem consistentStateNeverStops : Obligations.ConsistentStateNeverStops := by
  intro s hs
  obtain ⟨_, _, _, _, hfits⟩ := hs
  have htick := tick_total hfits
  refine ⟨?_, htick⟩
  by_cases hp : s.phase = .pB0
  · obtain ⟨t, e, _⟩ := iterationOutcome hp
    exact ⟨t, e⟩
  · rwa [step_eq_tick hp]

end Sys2Proof.Machine
end
